-- ==== Sys2Proof/Word.lean ====
section
/-! DEFINITION. The widths of the block's values (00_scope.md rule R5) as bit vectors.
Every value is unsigned (rule R7). -/

namespace Sys2Proof

/-- A symbol, 8 bits (00_scope.md rule R5, NSYM = 256). -/
abbrev Sym := BitVec 8

/-- A node index or a count, W_IDX = 9 bits. Also the ARG field of a command (30_encoding.md rule R72). -/
abbrev Idx := BitVec 9

/-- One FREQ entry, W_FREQ = 32 bits. Also the DATA field of a command. -/
abbrev Freq := BitVec 32

/-- A node weight, W_WEIGHT = 40 bits. -/
abbrev Weight := BitVec 40

/-- A command word, W_CMD = 64 bits. -/
abbrev CmdWord := BitVec 64

/-- A response data word, W_RDATA = 64 bits. -/
abbrev RData := BitVec 64

end Sys2Proof
end

