-- ==== Sys2Proof/Config.lean ====
section
/-! DEFINITION. What is fixed for the machine (the parameters the spec leaves open) and the free values.
Rules: 00_scope.md R6, 41_build.md R124 and R125, 20_memory.md R53 and R61. -/

namespace Sys2Proof

/-- TIE_POLICY (00_scope.md rule R6): `indexOrder` is this hardware, `anyMin` the envelope of every selection
the source allows. -/
inductive TiePolicy where
  | indexOrder
  | anyMin
deriving DecidableEq, Repr

/-- One free choice of a MERGE step under `anyMin` (41_build.md rule R125): which of the minimum-weight entries is
popped first and second (a number, taken modulo how many there are), and whether the children are swapped.
Every pair and child order that R125 admits is the outcome of some `TiePick`, and nothing else is. -/
structure TiePick where
  first  : Nat
  second : Nat
  swap   : Bool
deriving DecidableEq, Repr, Inhabited

/-- HOST_BUS_ORDER (20_memory.md rule R53): the byte order of a host bus that carries 64-bit words. -/
inductive BusOrder where
  | littleEndian
  | bigEndian
deriving DecidableEq, Repr, Inhabited

/-- HOST_MAP (20_memory.md rule R61): where a platform places the command and the response channel. -/
structure HostMap where
  cmdBase : Nat
  rspBase : Nat
deriving DecidableEq, Repr, Inhabited

/-- NNODE (00_scope.md rule R5): the node memory has entries 0..510. -/
def Config.nNode : Nat := 511

/-- NSYM (00_scope.md rule R5): the symbols are 0..255. -/
def Config.nSym : Nat := 256

/-- The policy of this hardware (00_scope.md rule R6, 10_state.md rule R33). The step is defined for either policy,
`Sys2Proof.Machine.stepWith`; the machine of Core.lean is the one at this value. -/
def Config.tiePolicy : TiePolicy := .indexOrder

/-- Free value (41_build.md rule R125; assumption log 6): the tie choice drawn at the n-th MERGE under `anyMin`.
It has no body, so no proof can depend on what it answers. -/
opaque Config.tiePick : Nat → TiePick

/-- HOST_MAP. No rule of the spec depends on it (assumption log 12). -/
opaque Config.hostMap : HostMap

/-- HOST_BUS_ORDER. No rule of the spec depends on it (assumption log 12). -/
opaque Config.hostBusOrder : BusOrder

end Sys2Proof
end

