-- ==== Sys2Proof/Syntax.lean ====
section
/-! DEFINITION. The command set HTB-1: one constructor per row of the opcode map (30_encoding.md rule R74), and the four
fields of a command word (rule R72). -/

namespace Sys2Proof

/-- A decoded command (30_encoding.md rules R73 and R74). Operands are unsigned and used as they stand: `sym` and `idx`
are the 9-bit ARG field, `value` the 32-bit DATA field. Every value of an operand's type is a legal operand of the
encoding; a symbol above 255 and an index at or above NODE_COUNT are answered BAD_INDEX by the command itself. -/
inductive Instr where
  | nop
  | clear
  | freqWr (sym : Idx) (value : Freq)
  | freqInc (sym : Idx)
  | freqRd (sym : Idx)
  | build
  | nodeRd (idx : Idx)
  | statusRd
deriving DecidableEq, Repr

/-- The four fields of a command word (30_encoding.md rule R72), most significant first. -/
structure Fields where
  data : BitVec 32
  op   : BitVec 4
  rsv  : BitVec 19
  arg  : BitVec 9
deriving DecidableEq, Repr

end Sys2Proof
end

