-- ==== Sys2Proof/WellFormed.lean ====
section
/-! DEFINITION. Which command words are well formed: those that match a row of the match and mask table of
30_encoding.md rule R74. Written from that table alone, so that it is a second account of decoding beside the
pseudocode of rule R75, which Decode.lean follows. Terms of `Instr` need no further check: the widths of their
operands are in their types. -/

namespace Sys2Proof

/-- One row of the match and mask table of 30_encoding.md rule R74. -/
structure OpcodeRow where
  mnemonic  : String
  matchBits : CmdWord
  maskBits  : CmdWord
deriving DecidableEq, Repr

/-- The match and mask table of 30_encoding.md rule R74. -/
def opcodeRows : List OpcodeRow :=
  [ ⟨"NOP",       0x0000000000000000#64, 0xFFFFFFFFFFFFFFFF#64⟩,
    ⟨"CLEAR",     0x0000000010000000#64, 0xFFFFFFFFFFFFFFFF#64⟩,
    ⟨"FREQ_WR",   0x0000000020000000#64, 0x00000000FFFFFE00#64⟩,
    ⟨"FREQ_INC",  0x0000000030000000#64, 0xFFFFFFFFFFFFFE00#64⟩,
    ⟨"FREQ_RD",   0x0000000040000000#64, 0xFFFFFFFFFFFFFE00#64⟩,
    ⟨"BUILD",     0x0000000050000000#64, 0xFFFFFFFFFFFFFFFF#64⟩,
    ⟨"NODE_RD",   0x0000000060000000#64, 0xFFFFFFFFFFFFFE00#64⟩,
    ⟨"STATUS_RD", 0x0000000070000000#64, 0xFFFFFFFFFFFFFFFF#64⟩ ]

/-- Bits the mask has set must equal the match (30_encoding.md rule R74). -/
def OpcodeRow.matches (r : OpcodeRow) (w : CmdWord) : Bool := w &&& r.maskBits == r.matchBits

/-- A command word is well formed when some row matches it; every other word is illegal (30_encoding.md rule R78). -/
def wellFormedWord (w : CmdWord) : Bool := opcodeRows.any (fun r => r.matches w)

/-- The mnemonic whose row matches the word, if any (30_encoding.md rule R75, last paragraph). -/
def tableMnemonic (w : CmdWord) : Option String := (opcodeRows.find? (fun r => r.matches w)).map (·.mnemonic)

end Sys2Proof
end

