-- ==== Sys2Proof/Decode.lean ====
section
/-! DEFINITION. Decoding a command word (30_encoding.md rules R72, R73 and R75), and after it the encoder, written from
the same tables. Decoding is total on every 64-bit word and rejects by name; every rejection is answered BAD_CMD. -/

namespace Sys2Proof

/-- Why a word does not decode (30_encoding.md rules R75 and R78; 60_exceptions.md rule R172). -/
inductive DecodeError where
  /-- OP is 0x8..0xF. -/
  | reservedOpcode
  /-- RSV is not 0. -/
  | reservedBits
  /-- ARG is not 0 in a command that takes none. -/
  | argNotZero
  /-- DATA is not 0 in a command that takes none. -/
  | dataNotZero
  /-- Not eight bytes: only for bytes off a host bus, which always carry a whole 64-bit word (rule R71). -/
  | notOneWord
deriving DecidableEq, Repr

/-- The fields of a command word (30_encoding.md rule R72). -/
def splitWord (w : CmdWord) : Fields :=
  { data := w.extractLsb' 32 32
    op   := w.extractLsb' 28 4
    rsv  := w.extractLsb' 9 19
    arg  := w.extractLsb' 0 9 }

/-- Which opcodes take ARG (30_encoding.md rule R75). -/
def usesArg (op : BitVec 4) : Bool := op == 0x2#4 || op == 0x3#4 || op == 0x4#4 || op == 0x6#4

/-- Which opcodes take DATA (30_encoding.md rule R75). -/
def usesData (op : BitVec 4) : Bool := op == 0x2#4

/-- MNEMONIC[op] with its operands (30_encoding.md rules R73 and R74); none for a reserved opcode. -/
def commandOf (op : BitVec 4) (arg : Idx) (data : Freq) : Option Instr :=
  if op = 0x0#4 then some .nop
  else if op = 0x1#4 then some .clear
  else if op = 0x2#4 then some (.freqWr arg data)
  else if op = 0x3#4 then some (.freqInc arg)
  else if op = 0x4#4 then some (.freqRd arg)
  else if op = 0x5#4 then some .build
  else if op = 0x6#4 then some (.nodeRd arg)
  else if op = 0x7#4 then some .statusRd
  else none

/-- `Decode` over the fields, its checks in the order of 30_encoding.md rule R75. -/
def decodeFields (f : Fields) : Except DecodeError Instr :=
  match commandOf f.op f.arg f.data with
  | none => .error .reservedOpcode
  | some i =>
    if f.rsv ≠ 0#19 then .error .reservedBits
    else if !usesArg f.op && f.arg != 0#9 then .error .argNotZero
    else if !usesData f.op && f.data != 0#32 then .error .dataNotZero
    else .ok i

/-- `Decode(w)` (30_encoding.md rule R75). -/
def decode (w : CmdWord) : Except DecodeError Instr := decodeFields (splitWord w)

/-- A 64-bit word off a host bus of the given byte order (20_memory.md rule R53; assumption log 12): the first byte is
the one at the lowest address. -/
def wordOfBytes (o : BusOrder) (bytes : List (BitVec 8)) : Option CmdWord :=
  if bytes.length = 8 then
    let msbFirst := match o with
      | .bigEndian => bytes
      | .littleEndian => bytes.reverse
    some (msbFirst.foldl (fun acc b => (acc <<< 8) ||| b.setWidth 64) 0#64)
  else none

/-- Decoding, total on any list of bytes. -/
def decodeBytes (o : BusOrder) (bytes : List (BitVec 8)) : Except DecodeError Instr :=
  match wordOfBytes o bytes with
  | none => .error .notOneWord
  | some w => decode w

/-- The mnemonic of a command (30_encoding.md rule R74). -/
def Instr.mnemonic : Instr → String
  | .nop        => "NOP"
  | .clear      => "CLEAR"
  | .freqWr _ _ => "FREQ_WR"
  | .freqInc _  => "FREQ_INC"
  | .freqRd _   => "FREQ_RD"
  | .build      => "BUILD"
  | .nodeRd _   => "NODE_RD"
  | .statusRd   => "STATUS_RD"

/-! ### The encoder -/

/-- The fields of a command's word: unused and reserved fields are 0 (30_encoding.md rules R72, R74 and R75). -/
def Instr.fields : Instr → Fields
  | .nop              => ⟨0#32, 0x0#4, 0#19, 0#9⟩
  | .clear            => ⟨0#32, 0x1#4, 0#19, 0#9⟩
  | .freqWr sym value => ⟨value, 0x2#4, 0#19, sym⟩
  | .freqInc sym      => ⟨0#32, 0x3#4, 0#19, sym⟩
  | .freqRd sym       => ⟨0#32, 0x4#4, 0#19, sym⟩
  | .build            => ⟨0#32, 0x5#4, 0#19, 0#9⟩
  | .nodeRd idx       => ⟨0#32, 0x6#4, 0#19, idx⟩
  | .statusRd         => ⟨0#32, 0x7#4, 0#19, 0#9⟩

/-- Fields to a word, most significant first (30_encoding.md rule R72). -/
def joinFields (f : Fields) : CmdWord := f.data ++ f.op ++ f.rsv ++ f.arg

/-- The word of a command. -/
def encode (i : Instr) : CmdWord := joinFields i.fields

/-- The host's reading of a row of the opcode table: bit 0 is the least significant bit of the word, and every bit at or
above `nbits` is 0. -/
def decodeTableWord (nbits w : Nat) : Option Instr :=
  match decode (BitVec.ofNat 64 (w % 2 ^ nbits)) with
  | .ok i => some i
  | .error _ => none

end Sys2Proof
end

