-- ==== Sys2Proof/Machine/State.lean ====
section
/-! DEFINITION. The state of the block (10_state.md rule R20), its channels (30_encoding.md rules R70 and R81), the
reasons a step can stop, and reset (10_state.md rule R37). Plain data throughout. -/

namespace Sys2Proof.Machine

/-- PHASE (10_state.md rule R22). -/
inductive Phase where
  | load
  | busy
  | done
  | fail
deriving DecidableEq, Repr

/-- RC, the result code of a response (30_encoding.md rule R77). Codes 6 and 7 are never returned and have no
constructor (assumption log 8). -/
inductive ResultCode where
  | ok
  | emptyInput
  | freqOverflow
  | badCmd
  | badPhase
  | badIndex
deriving DecidableEq, Repr

/-- The `kind` bit of a node record (10_state.md rule R27): 1 = LEAF, 0 = BRANCH. -/
inductive NodeKind where
  | leaf
  | branch
deriving DecidableEq, Repr

/-- A node record (10_state.md rule R27). In a LEAF `left` and `right` are 0, in a BRANCH `sym` is 0. -/
structure NodeRec where
  kind   : NodeKind
  sym    : Sym
  left   : Idx
  right  : Idx
  weight : Weight
deriving DecidableEq, Repr

/-- A response (30_encoding.md rule R76). -/
structure Response where
  rc   : ResultCode
  data : RData
deriving DecidableEq, Repr

/-- An indexed array as plain data: (index, value) pairs. Its canonical form is `Memory.wf` of Machine/Ops.lean: indices
strictly rising, and no value equal to what an unlisted index reads as (assumption log 9). -/
abbrev Memory (α : Type) := List (Nat × α)

/-- One move of the model's agents (00_scope.md rule R9, 60_exceptions.md rule R183). The host sends a command word,
takes a response or asserts `rst`; the engine gets a turn. -/
inductive Move where
  | sendCmd (w : CmdWord)
  | takeRsp
  | assertRst
  | engineTurn
deriving DecidableEq, Repr

/-- Why a step of the MODEL stops with a fault. No run of the block reaches one: each marks a state outside the
invariant of 10_state.md rule R36, and 10_state.md rule R35 asks a model to fault there (assumption log 7). -/
inductive Fault where
  /-- NODE_RD or MERGE would read a node record that holds no value (10_state.md rule R35). Safe. -/
  | absentNode
  /-- MERGE found fewer than two queue entries (41_build.md rule R126 has QCOUNT >= 2). Safe. -/
  | queueUnderflow
  /-- MERGE would write NODE[511], which does not exist (20_memory.md rule R52). Safe. -/
  | nodeSpaceFull
deriving DecidableEq, Repr

/-- Why a step of the model has no meaning. -/
inductive Refusal where
  /-- Raised by `exec` for a command that has no meaning in the model yet. Safe. -/
  | notModelled (mnemonic : String)
deriving DecidableEq, Repr

/-- The whole state. The first nine fields are the architectural state (10_state.md rule R20); `rsp` is the response
channel; `schedule` and `draws` are the model's own (assumption log 1 and 6). -/
structure State where
  /-- PHASE, rule R22. -/
  phase     : Phase
  /-- BUILD_ERR, rule R23. -/
  buildErr  : BitVec 3
  /-- LEAF_COUNT, rule R24. -/
  leafCount : Idx
  /-- NODE_COUNT, rule R25. -/
  nodeCount : Idx
  /-- ROOT, rule R26. -/
  root      : Idx
  /-- QCOUNT, rule R28. -/
  qCount    : Idx
  /-- FREQ[0..255], rule R29. An unlisted entry is 0. -/
  freq      : Memory Freq
  /-- NODE[0..510], rule R27. An unlisted entry is absent, rule R35. -/
  node      : Memory (Option NodeRec)
  /-- INQ[0..510], rule R30. An unlisted bit is 0. -/
  inq       : Memory Bool
  /-- The response offered and not yet transferred: rsp_valid, rsp_rc and rsp_data of 30_encoding.md rule R81. -/
  rsp       : Option Response
  /-- The agents' moves still to come, first one next. -/
  schedule  : List Move
  /-- How many free tie choices have been drawn. -/
  draws     : Nat
deriving DecidableEq, Repr

/-- The machine right after reset (10_state.md rule R37, 70_reset_and_hazards.md rule R200): PHASE = LOAD, every counter
and ROOT 0, FREQ and INQ 0, NODE without a value, no response offered. The schedule is empty and no tie choice has been
drawn (assumption log 3 and 6). -/
def State.reset : State :=
  { phase     := .load
    buildErr  := 0#3
    leafCount := 0#9
    nodeCount := 0#9
    root      := 0#9
    qCount    := 0#9
    freq      := []
    node      := []
    inq       := []
    rsp       := none
    schedule  := []
    draws     := 0 }

end Sys2Proof.Machine
end

