-- ==== Sys2Proof/Machine/Ops.lean ====
section
/-! DEFINITION. The shared operations: arrays, registers, responses, raising a result code, entering FAIL and leaving
it. Everything a command or the engine does to the state goes through these. -/

namespace Sys2Proof.Machine

/-! ### Arrays -/

/-- Reading one entry; an index that is not listed reads as `d`. -/
def Memory.read {α : Type} (d : α) : Memory α → Nat → α
  | [], _ => d
  | (k, v) :: m, i => if k = i then v else Memory.read d m i

/-- Listing a new entry before the first larger index. -/
def Memory.insert {α : Type} (i : Nat) (v : α) : Memory α → Memory α
  | [] => [(i, v)]
  | (k, w) :: m => if i < k then (i, v) :: (k, w) :: m else (k, w) :: Memory.insert i v m

/-- Writing one entry: the old entry goes, and the new one is listed unless an unlisted index reads as it anyway. -/
def Memory.write {α : Type} [DecidableEq α] (d : α) (m : Memory α) (i : Nat) (v : α) : Memory α :=
  let rest := m.filter (fun e => e.1 ≠ i)
  if v = d then rest else Memory.insert i v rest

/-- The canonical form: indices strictly rising, nothing listed that an unlisted index reads as (assumption log 9). -/
abbrev Memory.wf {α : Type} (d : α) (m : Memory α) : Prop :=
  m.Pairwise (fun x y => x.1 < y.1) ∧ ∀ e ∈ m, e.2 ≠ d

/-- Every listed index is below `n`. -/
abbrev Memory.below {α : Type} (n : Nat) (m : Memory α) : Prop := ∀ e ∈ m, e.1 < n

/-- FREQ[s] (10_state.md rule R29). -/
def State.freqAt (s : State) (sym : Nat) : Freq := Memory.read 0#32 s.freq sym

/-- FREQ[s] <- v. -/
def State.writeFreq (s : State) (sym : Nat) (v : Freq) : State :=
  { s with freq := Memory.write 0#32 s.freq sym v }

/-- NODE[i], absent when i >= NODE_COUNT (10_state.md rule R35). -/
def State.nodeAt (s : State) (i : Nat) : Option NodeRec :=
  if i < s.nodeCount.toNat then Memory.read none s.node i else none

/-- NODE[i] <- r. -/
def State.writeNode (s : State) (i : Nat) (r : NodeRec) : State :=
  { s with node := Memory.write none s.node i (some r) }

/-- INQ[i] (10_state.md rule R30). -/
def State.inqAt (s : State) (i : Nat) : Bool := Memory.read false s.inq i

/-- INQ[i] <- b. -/
def State.writeInq (s : State) (i : Nat) (b : Bool) : State :=
  { s with inq := Memory.write false s.inq i b }

/-- The priority queue Q = {i : INQ[i] = 1} (10_state.md rule R30), in the order the indices are listed. -/
def State.queue (s : State) : List Nat := (s.inq.filter (fun e => e.2)).map (·.1)

/-! ### Registers -/

def State.setPhase (s : State) (v : Phase) : State := { s with phase := v }
def State.setBuildErr (s : State) (v : BitVec 3) : State := { s with buildErr := v }
def State.setLeafCount (s : State) (v : Idx) : State := { s with leafCount := v }
def State.setNodeCount (s : State) (v : Idx) : State := { s with nodeCount := v }
def State.setRoot (s : State) (v : Idx) : State := { s with root := v }
def State.setQCount (s : State) (v : Idx) : State := { s with qCount := v }

/-! ### Channels and outputs -/

/-- `respond(rc, d)` (00_scope.md rule R8, 30_encoding.md rule R76): the block offers the response. -/
def State.respond (s : State) (rc : ResultCode) (d : RData) : State := { s with rsp := some ⟨rc, d⟩ }

/-- The response is transferred, or discarded by reset. -/
def State.dropRsp (s : State) : State := { s with rsp := none }

/-- The moves still to come. -/
def State.setSchedule (s : State) (ms : List Move) : State := { s with schedule := ms }

/-- One more free tie choice has been drawn. -/
def State.countDraw (s : State) : State := { s with draws := s.draws + 1 }

/-- cmd_ready (30_encoding.md rule R81): 0 while a response is waiting to be transferred. -/
def State.cmdReady (s : State) : Bool := s.rsp.isNone

/-- rsp_valid (30_encoding.md rule R81). -/
def State.rspValid (s : State) : Bool := s.rsp.isSome

/-- The `done` output (10_state.md rule R31, 60_exceptions.md rule R180). -/
def State.doneOut (s : State) : Bool := s.phase = .done || s.phase = .fail

/-! ### Exceptional outcomes -/

/-- `raise <Code>` (00_scope.md rule R8, 60_exceptions.md rule R171): the response is (code, 0) and no other state is
written. The one operation behind BAD_CMD, BAD_PHASE, BAD_INDEX and FREQ_OVERFLOW. -/
def raise (code : ResultCode) (s : State) : Host.Outcome State Fault Refusal := .next (s.respond code 0#64)

/-- Entering FAIL, the one analogue of trap entry (60_exceptions.md rule R177, 41_build.md rule R123): the cause goes to
BUILD_ERR, PHASE becomes FAIL, and the response is (EMPTY_INPUT, 0). -/
def enterFail (s : State) : Host.Outcome State Fault Refusal :=
  .next (((s.setPhase .fail).setBuildErr 1#3).respond .emptyInput 0#64)

/-- What CLEAR does to the registers and arrays, and so the way out of FAIL (42_readout_control.md rule R153,
60_exceptions.md rule R178). NODE becomes unreadable; a model holds such entries as absent (10_state.md rule R35;
assumption log 4). -/
def State.clearBlock (s : State) : State :=
  { s with
    phase     := .load
    buildErr  := 0#3
    leafCount := 0#9
    nodeCount := 0#9
    root      := 0#9
    qCount    := 0#9
    freq      := []
    node      := []
    inq       := [] }

/-- `rst` (70_reset_and_hazards.md rule R200): the reset state of 10_state.md rule R37; a response not yet transferred
is discarded. What is still to come from outside stays to come. -/
def State.resetBlock (s : State) : State := s.clearBlock.dropRsp

end Sys2Proof.Machine
end

