-- ==== Sys2Proof/Machine/Flags.lean ====
section
/-! DEFINITION. The block has no flags register (10_state.md rule R34). The only per-command flag is the result code:
its 3-bit encoding (30_encoding.md rule R77), and the permission table that decides BAD_PHASE (60_exceptions.md
rule R176). -/

namespace Sys2Proof.Machine

/-- The encoding of a result code (30_encoding.md rule R77), also that of BUILD_ERR (10_state.md rule R23). -/
def ResultCode.bits : ResultCode → BitVec 3
  | .ok           => 0#3
  | .emptyInput   => 1#3
  | .freqOverflow => 2#3
  | .badCmd       => 3#3
  | .badPhase     => 4#3
  | .badIndex     => 5#3

/-- rsp_rc while a response is offered (30_encoding.md rule R81). -/
def State.rspRc (s : State) : Option (BitVec 3) := s.rsp.map (fun r => r.rc.bits)

/-- rsp_data while a response is offered (30_encoding.md rule R81). -/
def State.rspData (s : State) : Option RData := s.rsp.map (fun r => r.data)

/-- The permission table (60_exceptions.md rule R176): true where it says "perform". -/
def permitted (i : Instr) (p : Phase) : Bool :=
  match i, p with
  | .nop,        _     => true
  | .clear,      _     => true
  | .freqWr _ _, .load => true
  | .freqWr _ _, _     => false
  | .freqInc _,  .load => true
  | .freqInc _,  _     => false
  | .freqRd _,   _     => true
  | .build,      .load => true
  | .build,      _     => false
  | .nodeRd _,   .done => true
  | .nodeRd _,   _     => false
  | .statusRd,   _     => true

end Sys2Proof.Machine
end

