-- ==== Sys2Proof/Machine/Operands.lean ====
section
/-! DEFINITION. Operand checks and data words: the index checks of 30_encoding.md rule R73, the widenings of
00_scope.md rule R7, the node word of 42_readout_control.md rule R150 and the STATUS word of 10_state.md rule R32. -/

namespace Sys2Proof.Machine

/-- `zext_40` (00_scope.md rule R7). -/
def zext40 {n : Nat} (v : BitVec n) : Weight := v.setWidth 40

/-- `zext_64` (00_scope.md rule R7). -/
def zext64 {n : Nat} (v : BitVec n) : RData := v.setWidth 64

/-- A symbol operand is refused with BAD_INDEX when it is above 255 (30_encoding.md rule R73). -/
def symOutOfRange (sym : Idx) : Bool := 255#9 < sym

/-- An index operand is refused with BAD_INDEX when it is at or above NODE_COUNT (30_encoding.md rule R73). -/
def idxOutOfRange (s : State) (idx : Idx) : Bool := s.nodeCount ≤ idx

/-- The `kind` bit (10_state.md rule R27). -/
def NodeKind.bit : NodeKind → BitVec 1
  | .leaf   => 1#1
  | .branch => 0#1

/-- PHASE as its two bits (10_state.md rule R22). -/
def Phase.bits : Phase → BitVec 2
  | .load => 0#2
  | .busy => 1#2
  | .done => 2#2
  | .fail => 3#2

/-- The node word of NODE_RD (42_readout_control.md rule R150). -/
def nodeWord (r : NodeRec) : RData :=
  match r.kind with
  | .leaf   => (1#64 <<< 63) ||| (zext64 r.sym <<< 40) ||| zext64 r.weight
  | .branch => (zext64 r.right <<< 49) ||| (zext64 r.left <<< 40) ||| zext64 r.weight

/-- The STATUS word (10_state.md rule R32): zext_64 of
QCOUNT, ROOT, NODE_COUNT, LEAF_COUNT, 0b000, BUILD_ERR, PHASE, the first most significant. -/
def State.statusWord (s : State) : RData :=
  zext64 (s.qCount ++ s.root ++ s.nodeCount ++ s.leafCount ++ 0#3 ++ s.buildErr ++ s.phase.bits)

/-- The record of a Leaf (10_state.md rule R27, 41_build.md rule R120). -/
def leafRec (sym : Nat) (count : Freq) : NodeRec :=
  { kind := .leaf, sym := BitVec.ofNat 8 sym, left := 0#9, right := 0#9, weight := zext40 count }

/-- The record of a Branch over two queue entries (41_build.md rule R126). The sum is taken in 40 bits. -/
def branchRec (left right : Nat) (wl wr : Weight) : NodeRec :=
  { kind := .branch, sym := 0#8, left := BitVec.ofNat 9 left, right := BitVec.ofNat 9 right, weight := wl + wr }

end Sys2Proof.Machine
end

