-- ==== Sys2Proof/Machine/Build.lean ====
section
/-! DEFINITION. The command BUILD (41_build.md rules R120 to R123). -/

namespace Sys2Proof.Machine

/-- The symbols with a nonzero count, ascending (41_build.md rules R120 and R121). -/
def State.symbols (s : State) : List Nat := (List.range 256).filter (fun v => s.freqAt v ≠ 0#32)

/-- The loop of BUILD (41_build.md rule R120): the k-th symbol's Leaf goes to NODE[k], and INQ[k] becomes 1. -/
def placeLeaves (s : State) : Nat → List Nat → State
  | _, [] => s
  | k, v :: vs => placeLeaves ((s.writeNode k (leafRec v (s.freqAt v))).writeInq k true) (k + 1) vs

/-- The registers BUILD writes when it found `count` symbols, `count` at least 1 (41_build.md rules R120 and R122). -/
def startBuild (count : Idx) (s : State) : State :=
  ((((s.setLeafCount count).setNodeCount count).setQCount count).setRoot 0#9).setPhase
    (if count = 1#9 then .done else .busy)

/-- BUILD (41_build.md rule R120). -/
def execBuild (s : State) : Host.Outcome State Fault Refusal :=
  if s.phase ≠ .load then raise .badPhase s
  else if s.symbols = [] then enterFail s
  else .next ((startBuild (BitVec.ofNat 9 s.symbols.length) (placeLeaves s 0 s.symbols)).respond .ok 0#64)

end Sys2Proof.Machine
end

