-- ==== Sys2Proof/Machine/Frequency.lean ====
section
/-! DEFINITION. The frequency commands FREQ_WR, FREQ_INC and FREQ_RD (40_frequency.md). Checks run in the priority order
of 60_exceptions.md rule R175; decoding has come before. -/

namespace Sys2Proof.Machine

/-- FREQ_WR (40_frequency.md rule R100). -/
def execFreqWr (sym : Idx) (value : Freq) (s : State) : Host.Outcome State Fault Refusal :=
  if s.phase ≠ .load then raise .badPhase s
  else if symOutOfRange sym then raise .badIndex s
  else .next ((s.writeFreq sym.toNat value).respond .ok 0#64)

/-- FREQ_INC (40_frequency.md rule R101). -/
def execFreqInc (sym : Idx) (s : State) : Host.Outcome State Fault Refusal :=
  if s.phase ≠ .load then raise .badPhase s
  else if symOutOfRange sym then raise .badIndex s
  else if s.freqAt sym.toNat = 0xFFFFFFFF#32 then raise .freqOverflow s
  else .next ((s.writeFreq sym.toNat (s.freqAt sym.toNat + 1#32)).respond .ok 0#64)

/-- FREQ_RD (40_frequency.md rule R102): performed in every phase. -/
def execFreqRd (sym : Idx) (s : State) : Host.Outcome State Fault Refusal :=
  if symOutOfRange sym then raise .badIndex s
  else .next (s.respond .ok (zext64 (s.freqAt sym.toNat)))

end Sys2Proof.Machine
end

