-- ==== Sys2Proof/Machine/Readout.lean ====
section
/-! DEFINITION. Tree readout and control: NODE_RD, STATUS_RD, NOP and CLEAR (42_readout_control.md). -/

namespace Sys2Proof.Machine

/-- NODE_RD (42_readout_control.md rule R150). An index below NODE_COUNT whose record is absent is a state no run
reaches, and the model faults there (10_state.md rule R35; assumption log 7). -/
def execNodeRd (idx : Idx) (s : State) : Host.Outcome State Fault Refusal :=
  if s.phase ≠ .done then raise .badPhase s
  else if idxOutOfRange s idx then raise .badIndex s
  else match s.nodeAt idx.toNat with
    | none   => .fault .absentNode
    | some r => .next (s.respond .ok (nodeWord r))

/-- STATUS_RD (42_readout_control.md rule R151). -/
def execStatusRd (s : State) : Host.Outcome State Fault Refusal := .next (s.respond .ok s.statusWord)

/-- NOP (42_readout_control.md rule R152). -/
def execNop (s : State) : Host.Outcome State Fault Refusal := .next (s.respond .ok 0#64)

/-- CLEAR (42_readout_control.md rule R153). -/
def execClear (s : State) : Host.Outcome State Fault Refusal := .next (s.clearBlock.respond .ok 0#64)

end Sys2Proof.Machine
end

