-- ==== Sys2Proof/Machine/Dispatch.lean ====
section
/-! DEFINITION. One arm per command of the opcode map (30_encoding.md rule R74). -/

namespace Sys2Proof.Machine

def exec (i : Instr) (s : State) : Host.Outcome State Fault Refusal :=
  match i with
  | .nop => Sys2Proof.Machine.execNop s
  | .clear => Sys2Proof.Machine.execClear s
  | .freqWr sym value => Sys2Proof.Machine.execFreqWr sym value s
  | .freqInc sym => Sys2Proof.Machine.execFreqInc sym s
  | .freqRd sym => Sys2Proof.Machine.execFreqRd sym s
  | .build => Sys2Proof.Machine.execBuild s
  | .nodeRd idx => Sys2Proof.Machine.execNodeRd idx s
  | .statusRd => Sys2Proof.Machine.execStatusRd s

end Sys2Proof.Machine
end

