-- ==== Sys2Proof/Machine/Engine.lean ====
section
/-! DEFINITION. The merge engine: selection under either tie policy and the MERGE step (41_build.md rules R124 to
R128). -/

namespace Sys2Proof.Machine

/-- A weighted entry of the priority queue: a node index and that node's weight (00_scope.md glossary). -/
structure Entry where
  idx    : Nat
  weight : Weight
deriving DecidableEq, Repr

/-- The weighted entries of a list of node indices; none when one of them holds no record (10_state.md rule R35). -/
def weigh (s : State) : List Nat → Option (List Entry)
  | [] => some []
  | i :: is =>
    match s.nodeAt i, weigh s is with
    | some r, some es => some (⟨i, r.weight⟩ :: es)
    | _, _ => none

/-- The order of keys (weight, node index), lexicographic and unsigned (41_build.md rule R124). -/
def keyLt (x y : Entry) : Bool := x.weight < y.weight || (x.weight = y.weight && x.idx < y.idx)

/-- `SelectMin` (41_build.md rule R124): the entry with the smallest key; none of an empty list. -/
def selectMin : List Entry → Option Entry
  | [] => none
  | x :: xs =>
    match selectMin xs with
    | none => some x
    | some y => if keyLt x y then some x else some y

/-- The entries of minimum weight (41_build.md rule R125). -/
def minWeightEntries (es : List Entry) : List Entry := es.filter (fun e => es.all (fun x => e.weight ≤ x.weight))

/-- An entry of minimum weight, the free number `k` saying which (41_build.md rule R125). -/
def pickMin (k : Nat) (es : List Entry) : Option Entry := (minWeightEntries es)[k % (minWeightEntries es).length]?

/-- Q \ {a}. -/
def without (a : Entry) (es : List Entry) : List Entry := es.filter (fun e => e.idx ≠ a.idx)

/-- The pair of entries a MERGE combines, left child first. Under `indexOrder` the first selected is the left child
(41_build.md rules R124 and R128); under `anyMin` the free choice decides (rule R125). -/
def selectPair (p : TiePolicy) (pick : TiePick) (es : List Entry) : Option (Entry × Entry) :=
  match p with
  | .indexOrder =>
    match selectMin es with
    | none => none
    | some a =>
      match selectMin (without a es) with
      | none => none
      | some b => some (a, b)
  | .anyMin =>
    match pickMin pick.first es with
    | none => none
    | some a =>
      match pickMin pick.second (without a es) with
      | none => none
      | some b => if pick.swap then some (b, a) else some (a, b)

/-- The writes of a MERGE step on the chosen pair (41_build.md rule R126). -/
def joinPair (l r : Entry) (s : State) : State :=
  let n := s.nodeCount
  let s1 := s.writeNode n.toNat (branchRec l.idx r.idx l.weight r.weight)
  let s2 := ((s1.writeInq l.idx false).writeInq r.idx false).writeInq n.toNat true
  let s3 := (s2.setNodeCount (n + 1#9)).setQCount (s2.qCount - 1#9)
  if s3.qCount = 1#9 then (s3.setRoot n).setPhase .done else s3

/-- MERGE with a given tie choice (41_build.md rule R126), for a state in which it is enabled. The three faults are
states no run reaches (assumption log 7). -/
def mergeWith (p : TiePolicy) (pick : TiePick) (s : State) : Host.Outcome State Fault Refusal :=
  match weigh s s.queue with
  | none => .fault .absentNode
  | some es =>
    match selectPair p pick es with
    | none => .fault .queueUnderflow
    | some (l, r) => if s.nodeCount = 511#9 then .fault .nodeSpaceFull else .next (joinPair l r s)

/-- The engine's turn: MERGE when PHASE = BUSY, nothing otherwise (41_build.md rule R126, 00_scope.md rule R9). Under
`anyMin` the tie choice is the next free value (assumption log 6). -/
def engineStep (p : TiePolicy) (s : State) : Host.Outcome State Fault Refusal :=
  if s.phase ≠ .busy then .next s
  else match p with
    | .indexOrder => mergeWith .indexOrder default s
    | .anyMin     => mergeWith .anyMin (Config.tiePick s.draws) s.countDraw

end Sys2Proof.Machine
end

