-- ==== Sys2Proof/Machine/Channel.lean ====
section
/-! DEFINITION. The channels and the agents' moves: accepting a command word, taking a response, reset, the engine's turn,
and the step under either tie policy (30_encoding.md rule R70, 20_memory.md rule R57, 60_exceptions.md rule R183). -/

namespace Sys2Proof.Machine

/-- A command from acceptance to response, in one atomic step (30_encoding.md rule R70). A word that does not decode is
answered BAD_CMD and writes no other state (rule R75, 60_exceptions.md rule R171). -/
def performWord (w : CmdWord) (s : State) : Host.Outcome State Fault Refusal :=
  match decode w with
  | .ok i => exec i s
  | .error _ => raise .badCmd s

/-- One step under a tie policy: the next move of the schedule, or with none left the engine's turn (assumption log 1).
A command word is accepted only when cmd_ready = 1; while a response is still offered, the host takes it first and the
word stays offered (30_encoding.md rules R70 and R81; assumption log 2). -/
def stepWith (p : TiePolicy) (s : State) : Host.Outcome State Fault Refusal :=
  match s.schedule with
  | [] => engineStep p s
  | .engineTurn :: ms => engineStep p (s.setSchedule ms)
  | .takeRsp :: ms => .next (s.setSchedule ms).dropRsp
  | .assertRst :: ms => .next (s.setSchedule ms).resetBlock
  | .sendCmd w :: ms => if s.cmdReady then performWord w (s.setSchedule ms) else .next s.dropRsp

/-- The state in which the host offers the word next and the block is ready for it. -/
def State.offerWord (s : State) (w : CmdWord) : State := (s.setSchedule (.sendCmd w :: s.schedule)).dropRsp

/-- The table's numbering of a word: bit 0 least significant, every bit at or above `nbits` 0. -/
def tableWord (nbits w : Nat) : CmdWord := BitVec.ofNat 64 (w % 2 ^ nbits)

end Sys2Proof.Machine
end

