-- ==== Sys2Proof/Machine/Step.lean ====
section
/-! DEFINITION. The step of this hardware, and placing a command where the step takes its next one. -/

namespace Sys2Proof.Machine

/-- One step of this hardware (00_scope.md rule R6: TIE_POLICY = index_order). -/
def step (s : State) : Host.Outcome State Fault Refusal := stepWith Config.tiePolicy s

/-- The state with the word offered on the command channel, so that the very next step performs it (assumption log 3). -/
def State.withFetchWord (s : State) (nbits w : Nat) : State := s.offerWord (tableWord nbits w)

end Sys2Proof.Machine
end

