-- ==== Sys2Proof/Machine/HostSide.lean ====
section
/-! DEFINITION. The host's side: the pseudo-commands (30_encoding.md rule R80), a sequence of commands as moves, and runs
of several steps with what shows outside (00_scope.md rule R10). -/

namespace Sys2Proof.Machine

/-- FREQ_COUNT: one FREQ_INC per operand, in order. -/
def freqCount (bs : List Idx) : List Instr := bs.map .freqInc

/-- LOAD_FREQS: FREQ_WR s, v_s for each s in 0..255, ascending; an omitted value is 0 (30_encoding.md rule R79). -/
def loadFreqs (vs : List Freq) : List Instr :=
  (List.range 256).map (fun k => .freqWr (BitVec.ofNat 9 k) (vs.getD k 0#32))

/-- WAIT_DONE is a host-side loop: it issues STATUS_RD until this holds of the RDATA it got, that is, until PHASE is DONE
or FAIL. -/
def waitDoneEnds (status : RData) : Bool := status.extractLsb' 0 2 = 2#2 || status.extractLsb' 0 2 = 3#2

/-- READ_TREE: STATUS_RD, then NODE_RD for each index below the NODE_COUNT of the STATUS word it returned. -/
def readTree (status : RData) : List Instr :=
  .statusRd :: (List.range (status.extractLsb' 17 9).toNat).map (fun i => .nodeRd (BitVec.ofNat 9 i))

/-- A host that sends words one after the other and takes each response before it sends again (30_encoding.md rule R70). It
may send any word (60_exceptions.md rule R183). -/
def hostScript (ws : List CmdWord) : List Move := ws.flatMap (fun w => [.sendCmd w, .takeRsp])

/-- The same host, sending commands of the set. -/
def commandScript (is : List Instr) : List Move := hostScript (is.map encode)

/-- `k` steps under a tie policy, stopping at the first fault or refusal. -/
def runWith (p : TiePolicy) : Nat → State → Host.Outcome State Fault Refusal
  | 0, s => .next s
  | k + 1, s =>
    match stepWith p s with
    | .next t => runWith p k t
    | .fault r => .fault r
    | .refused r => .refused r

/-! ### What is observed (00_scope.md rule R10; assumption log 17) -/

/-- A (command, result code, data word) triple on the host interface. -/
structure Observation where
  word : CmdWord
  rc   : ResultCode
  data : RData
deriving DecidableEq, Repr

/-- What shows outside the block: a response transferred, with the command it answers, or a new level of `done`. -/
inductive Event where
  | response (o : Observation)
  | doneLevel (level : Bool)
deriving DecidableEq, Repr

/-- The response that the next step transfers to the host (30_encoding.md rules R70 and R81). `rst` transfers none
(70_reset_and_hazards.md rule R200). -/
def transferred (s : State) : Option Response :=
  match s.schedule with
  | .takeRsp :: _    => s.rsp
  | .sendCmd _ :: _  => s.rsp
  | .assertRst :: _  => none
  | .engineTurn :: _ => none
  | []               => none

/-- The host's own copy of the command it has sent and not yet seen answered, after the next step (60_exceptions.md
rule R172, last sentence): the block keeps no command word. A command that `rst` meets is lost. -/
def outstanding (sent : Option CmdWord) (s : State) : Option CmdWord :=
  match s.schedule with
  | .takeRsp :: _    => none
  | .sendCmd w :: _  => if s.cmdReady then some w else none
  | .assertRst :: _  => none
  | .engineTurn :: _ => sent
  | []               => sent

/-- What the step from `s` to `t` shows. -/
def observe (sent : Option CmdWord) (s t : State) : List Event :=
  (match sent, transferred s with
    | some w, some r => [.response ⟨w, r.rc, r.data⟩]
    | some _, none   => []
    | none, _        => []) ++
  if t.doneOut = s.doneOut then [] else [.doneLevel t.doneOut]

/-- What shows in `k` steps, in order; `sent` is the command already outstanding, if any. -/
def traceWith (p : TiePolicy) : Nat → Option CmdWord → State → List Event
  | 0, _, _ => []
  | k + 1, sent, s =>
    match stepWith p s with
    | .next t => observe sent s t ++ traceWith p k (outstanding sent s) t
    | .fault _ => []
    | .refused _ => []

/-- The triples among what shows. -/
def triples (es : List Event) : List Observation :=
  es.filterMap (fun e => match e with
    | .response o  => some o
    | .doneLevel _ => none)

/-- The level of `done` after what shows, from the level before it. -/
def doneAfter (level : Bool) (es : List Event) : Bool :=
  es.foldl (fun b e => match e with
    | .response _  => b
    | .doneLevel v => v) level

end Sys2Proof.Machine
end

