-- ==== Sys2Proof/Machine/Assembler.lean ====
section
/-! DEFINITION. The assembler's notation for commands and pseudo-commands (30_encoding.md rules R79 and R80), on one line
of characters. What R79 does not fix (white space, letter case, the shape of a malformed operand) is assumption log 15. -/

namespace Sys2Proof.Machine

/-- Why a line does not assemble. -/
inductive AsmError where
  | unknownMnemonic
  | tooManyOperands
  | badOperand
  /-- "an operand out of its field's range is an assembly error" (30_encoding.md rule R79). -/
  | outOfRange
deriving DecidableEq, Repr

/-- What a line stands for: block commands, or one of the two pseudo-commands whose expansion depends on responses
(30_encoding.md rule R80; `waitDoneEnds` and `readTree` of HostSide.lean). -/
inductive AsmItem where
  | command (i : Instr)
  | waitDone
  | readTree
deriving DecidableEq, Repr

/-- `; text` is a comment (30_encoding.md rule R79); a semicolon inside a character literal is not one. -/
def stripComment : List Char → List Char
  | [] => []
  | '\'' :: c :: '\'' :: cs => '\'' :: c :: '\'' :: stripComment cs
  | c :: cs => if c = ';' then [] else c :: stripComment cs

/-- Operands are separated by commas; a comma inside a character literal separates nothing. -/
def splitCommas : List Char → List (List Char)
  | [] => [[]]
  | '\'' :: c :: '\'' :: cs =>
    match splitCommas cs with
    | [] => [['\'', c, '\'']]
    | f :: fs => ('\'' :: c :: '\'' :: f) :: fs
  | c :: cs =>
    if c = ',' then [] :: splitCommas cs
    else match splitCommas cs with
      | [] => [[c]]
      | f :: fs => (c :: f) :: fs

def isBlank (c : Char) : Bool := c = ' ' || c = '\t' || c = '\r' || c = '\n'

/-- The text without blanks at either end. -/
def trimBlanks (cs : List Char) : List Char := ((cs.dropWhile isBlank).reverse.dropWhile isBlank).reverse

/-- The value of a digit in base 10 or 16. -/
def digitValue (base : Nat) (c : Char) : Option Nat :=
  let n := c.toNat
  let v := if 48 ≤ n ∧ n ≤ 57 then n - 48 else if 97 ≤ n ∧ n ≤ 102 then n - 87 else if 65 ≤ n ∧ n ≤ 70 then n - 55 else base
  if v < base then some v else none

/-- The value of a nonempty string of digits. -/
def digitsValue (base : Nat) : List Char → Option Nat
  | [] => none
  | cs => cs.foldl (fun acc c => acc.bind (fun a => (digitValue base c).map (fun d => a * base + d))) (some 0)

/-- A number: decimal, `0x` hexadecimal, or a character literal that stands for its ASCII value (30_encoding.md
rule R79). -/
def numberValue : List Char → Option Nat
  | ['\'', c, '\''] => if c.toNat < 128 then some c.toNat else none
  | '0' :: 'x' :: cs => digitsValue 16 cs
  | cs => digitsValue 10 cs

/-- All the numbers, or none when one of them is no number. -/
def numberValues : List (List Char) → Option (List Nat)
  | [] => some []
  | f :: fs =>
    match numberValue (trimBlanks f), numberValues fs with
    | some n, some ns => some (n :: ns)
    | _, _ => none

/-- The ARG field holds 9 bits. -/
def argOperand (n : Nat) : Except AsmError Idx := if n < 512 then .ok (BitVec.ofNat 9 n) else .error .outOfRange

/-- The DATA field holds 32 bits. -/
def dataOperand (n : Nat) : Except AsmError Freq := if n < 2 ^ 32 then .ok (BitVec.ofNat 32 n) else .error .outOfRange

/-- A check on every operand of a list. -/
def allOperands {α : Type} (f : Nat → Except AsmError α) : List Nat → Except AsmError (List α)
  | [] => .ok []
  | n :: ns =>
    match f n, allOperands f ns with
    | .ok a, .ok as => .ok (a :: as)
    | .error e, _ => .error e
    | _, .error e => .error e

/-- A command without operands. -/
def plainCommand (x : AsmItem) (ops : List Nat) : Except AsmError (List AsmItem) :=
  if ops = [] then .ok [x] else .error .tooManyOperands

/-- A command whose one operand is ARG; omitted operands are 0 (30_encoding.md rule R79). -/
def argCommand (f : Idx → Instr) (ops : List Nat) : Except AsmError (List AsmItem) :=
  if 1 < ops.length then .error .tooManyOperands
  else match argOperand (ops.getD 0 0) with
    | .ok a => .ok [.command (f a)]
    | .error e => .error e

/-- FREQ_WR sym, value. -/
def writeCommand (ops : List Nat) : Except AsmError (List AsmItem) :=
  if 2 < ops.length then .error .tooManyOperands
  else match argOperand (ops.getD 0 0), dataOperand (ops.getD 1 0) with
    | .ok a, .ok d => .ok [.command (.freqWr a d)]
    | .error e, _ => .error e
    | _, .error e => .error e

/-- FREQ_COUNT b0, …, bk. -/
def countCommand (ops : List Nat) : Except AsmError (List AsmItem) :=
  match allOperands argOperand ops with
  | .ok bs => .ok ((freqCount bs).map .command)
  | .error e => .error e

/-- LOAD_FREQS v0, …, v255. -/
def loadCommand (ops : List Nat) : Except AsmError (List AsmItem) :=
  if 256 < ops.length then .error .tooManyOperands
  else match allOperands dataOperand ops with
    | .ok vs => .ok ((loadFreqs vs).map .command)
    | .error e => .error e

/-- A mnemonic and its operands (30_encoding.md rules R79 and R80). -/
def assembleParts (mnemonic : List Char) (ops : List Nat) : Except AsmError (List AsmItem) :=
  if mnemonic = ['N', 'O', 'P'] then plainCommand (.command .nop) ops
  else if mnemonic = ['C', 'L', 'E', 'A', 'R'] then plainCommand (.command .clear) ops
  else if mnemonic = ['F', 'R', 'E', 'Q', '_', 'W', 'R'] then writeCommand ops
  else if mnemonic = ['F', 'R', 'E', 'Q', '_', 'I', 'N', 'C'] then argCommand .freqInc ops
  else if mnemonic = ['F', 'R', 'E', 'Q', '_', 'R', 'D'] then argCommand .freqRd ops
  else if mnemonic = ['B', 'U', 'I', 'L', 'D'] then plainCommand (.command .build) ops
  else if mnemonic = ['N', 'O', 'D', 'E', '_', 'R', 'D'] then argCommand .nodeRd ops
  else if mnemonic = ['S', 'T', 'A', 'T', 'U', 'S', '_', 'R', 'D'] then plainCommand (.command .statusRd) ops
  else if mnemonic = ['F', 'R', 'E', 'Q', '_', 'C', 'O', 'U', 'N', 'T'] then countCommand ops
  else if mnemonic = ['L', 'O', 'A', 'D', '_', 'F', 'R', 'E', 'Q', 'S'] then loadCommand ops
  else if mnemonic = ['W', 'A', 'I', 'T', '_', 'D', 'O', 'N', 'E'] then plainCommand .waitDone ops
  else if mnemonic = ['R', 'E', 'A', 'D', '_', 'T', 'R', 'E', 'E'] then plainCommand .readTree ops
  else .error .unknownMnemonic

/-- One line of assembler text (30_encoding.md rule R79): nothing, or one command with its operands. -/
def assembleLine (line : List Char) : Except AsmError (List AsmItem) :=
  let text := trimBlanks (stripComment line)
  if text = [] then .ok []
  else
    let mnemonic := text.takeWhile (fun c => !isBlank c)
    let rest := trimBlanks (text.dropWhile (fun c => !isBlank c))
    let operands := if rest = [] then some [] else numberValues (splitCommas rest)
    match operands with
    | none => .error .badOperand
    | some ops => assembleParts mnemonic ops

end Sys2Proof.Machine
end

