-- ==== Sys2Proof/Safety.lean ====
section
/-! DEFINITION. The terms claims are stated in: what two states have in common, the invariants of 10_state.md rule R36
and 41_build.md rules R130 to R134, paths in the tree, and schedules that are fair and free of aborts. -/

namespace Sys2Proof.Machine

/-! ### What two states have in common -/

/-- The two states agree on the whole architectural state of 10_state.md rule R20. -/
structure SameBlock (s t : State) : Prop where
  phase     : t.phase = s.phase
  buildErr  : t.buildErr = s.buildErr
  leafCount : t.leafCount = s.leafCount
  nodeCount : t.nodeCount = s.nodeCount
  root      : t.root = s.root
  qCount    : t.qCount = s.qCount
  freq      : t.freq = s.freq
  node      : t.node = s.node
  inq       : t.inq = s.inq

/-- The two states agree on everything but node records that hold no value (10_state.md rule R35). -/
structure SameVisible (s t : State) : Prop where
  others : t = { s with node := t.node }
  nodes  : ∀ i, t.nodeAt i = s.nodeAt i

/-! ### The tree in NODE -/

/-- The weight of node i, 0 when there is no such record. -/
def State.weightAt (s : State) (i : Nat) : Nat :=
  match s.nodeAt i with
  | some r => r.weight.toNat
  | none => 0

/-- The left child of node i, 0 when there is no such record. -/
def State.leftAt (s : State) (i : Nat) : Nat :=
  match s.nodeAt i with
  | some r => r.left.toNat
  | none => 0

/-- The right child of node i, 0 when there is no such record. -/
def State.rightAt (s : State) (i : Nat) : Nat :=
  match s.nodeAt i with
  | some r => r.right.toNat
  | none => 0

/-- Node i is a LEAF. -/
def State.isLeaf (s : State) (i : Nat) : Bool :=
  match s.nodeAt i with
  | some r => r.kind = .leaf
  | none => false

/-- Node i is a BRANCH. -/
def State.isBranch (s : State) (i : Nat) : Bool :=
  match s.nodeAt i with
  | some r => r.kind = .branch && r.sym = 0#8
  | none => false

/-- The Branches that have node i as a child. -/
def State.parents (s : State) (i : Nat) : List Nat :=
  (List.range s.nodeCount.toNat).filter (fun n => s.isBranch n && (s.leftAt n = i || s.rightAt n = i))

/-- The sum of the weights in the priority queue. -/
def State.queueWeight (s : State) : Nat := (s.queue.map s.weightAt).sum

/-- The sum of all FREQ entries. -/
def State.freqTotal (s : State) : Nat := ((List.range 256).map (fun v => (s.freqAt v).toNat)).sum

/-- A path down from node i to node k, `false` for left and `true` for right (41_build.md rule R135: its length is the
depth of k beneath i). -/
inductive HasPath (s : State) : Nat → List Bool → Nat → Prop where
  | here (i : Nat) : HasPath s i [] i
  | left (i k : Nat) (bits : List Bool) :
      s.isBranch i = true → HasPath s (s.leftAt i) bits k → HasPath s i (false :: bits) k
  | right (i k : Nat) (bits : List Bool) :
      s.isBranch i = true → HasPath s (s.rightAt i) bits k → HasPath s i (true :: bits) k

/-! ### Invariants -/

/-- The arrays are in canonical form and within their index spaces (assumption log 9), and exactly the records below
NODE_COUNT hold a value (10_state.md rules R25 and R35). -/
structure WellStored (s : State) : Prop where
  freqForm  : Memory.wf 0#32 s.freq
  freqBelow : Memory.below 256 s.freq
  nodeForm  : Memory.wf none s.node
  nodeBelow : Memory.below s.nodeCount.toNat s.node
  nodeHeld  : ∀ i, i < s.nodeCount.toNat → (s.nodeAt i).isSome = true
  inqForm   : Memory.wf false s.inq
  inqBelow  : Memory.below 511 s.inq

/-- The invariant of each phase (10_state.md rule R36). -/
structure PhaseInv (s : State) : Prop where
  load : s.phase = .load →
    s.leafCount.toNat = 0 ∧ s.nodeCount.toNat = 0 ∧ s.qCount.toNat = 0 ∧ s.root.toNat = 0 ∧ s.buildErr = 0#3 ∧ s.queue = []
  busy : s.phase = .busy →
    2 ≤ s.leafCount.toNat ∧ s.leafCount.toNat ≤ 256 ∧ s.leafCount.toNat ≤ s.nodeCount.toNat ∧
    s.nodeCount.toNat + 2 ≤ 2 * s.leafCount.toNat ∧ s.qCount.toNat + s.nodeCount.toNat = 2 * s.leafCount.toNat ∧
    2 ≤ s.qCount.toNat ∧ s.queue.length = s.qCount.toNat ∧ (∀ i ∈ s.queue, i < s.nodeCount.toNat) ∧
    s.root.toNat = 0 ∧ s.buildErr = 0#3
  done : s.phase = .done →
    1 ≤ s.leafCount.toNat ∧ s.leafCount.toNat ≤ 256 ∧ s.nodeCount.toNat + 1 = 2 * s.leafCount.toNat ∧
    s.qCount.toNat = 1 ∧ s.queue = [s.root.toNat] ∧ s.root.toNat + 1 = s.nodeCount.toNat ∧ s.buildErr = 0#3
  fail : s.phase = .fail →
    s.leafCount.toNat = 0 ∧ s.nodeCount.toNat = 0 ∧ s.qCount.toNat = 0 ∧ s.root.toNat = 0 ∧ s.queue = [] ∧
    s.buildErr = 1#3 ∧ ∀ v, v < 256 → s.freqAt v = 0#32

/-- The invariant every reachable state satisfies. -/
structure Inv (s : State) : Prop where
  stored : WellStored s
  phases : PhaseInv s

/-- The tree under construction or finished (41_build.md rule R130, and the sums behind rules R131 and R134). -/
structure TreeInv (s : State) : Prop where
  /-- LEAF_COUNT is the number of symbols present. -/
  leafCount : s.phase = .busy ∨ s.phase = .done → s.symbols.length = s.leafCount.toNat
  /-- NODE[k], k < L, is the Leaf of the k-th symbol present, in ascending order. -/
  leaves : ∀ k, k < s.leafCount.toNat → s.nodeAt k = (s.symbols[k]?).map (fun v => leafRec v (s.freqAt v))
  /-- NODE[n], L <= n, is a Branch of two different older nodes, and weighs what they weigh. -/
  branches : ∀ n, n < s.nodeCount.toNat → s.leafCount.toNat ≤ n →
    s.isBranch n = true ∧ s.leftAt n < n ∧ s.rightAt n < n ∧ s.leftAt n ≠ s.rightAt n ∧
    s.weightAt n = s.weightAt (s.leftAt n) + s.weightAt (s.rightAt n)
  /-- A node in the queue is nobody's child; any other is the child of exactly one Branch. -/
  parents : ∀ i, i < s.nodeCount.toNat → (s.parents i).length = if i ∈ s.queue then 0 else 1
  /-- What is in the queue weighs what FREQ holds. -/
  total : s.phase = .busy ∨ s.phase = .done → s.queueWeight = s.freqTotal

/-- New Branches never get lighter (41_build.md rule R133); the second clause is why: what is still in the queue weighs
at least as much as each child of the newest Branch. -/
structure MergeOrder (s : State) : Prop where
  rising : ∀ n, n + 1 < s.nodeCount.toNat → s.leafCount.toNat ≤ n → s.weightAt n ≤ s.weightAt (n + 1)
  queueAbove : s.phase = .busy → s.leafCount.toNat < s.nodeCount.toNat → ∀ i ∈ s.queue,
    s.weightAt (s.leftAt (s.nodeCount.toNat - 1)) ≤ s.weightAt i ∧
    s.weightAt (s.rightAt (s.nodeCount.toNat - 1)) ≤ s.weightAt i

/-! ### Schedules -/

/-- The move takes every piece of state to its reset value: `rst`, or a CLEAR that the block can accept. -/
def isAbort (m : Move) : Bool :=
  match m with
  | .assertRst => true
  | .sendCmd w => encode .clear = w
  | .takeRsp => false
  | .engineTurn => false

/-- The next step is an abort: `rst`, or a CLEAR accepted. -/
def abortsNext (s : State) : Bool :=
  match s.schedule with
  | .assertRst :: _ => true
  | .sendCmd w :: _ => s.cmdReady && encode .clear = w
  | _ => false

/-- The command the next step performs, if it performs one that decodes. -/
def nextCommand (s : State) : Option Instr :=
  match s.schedule with
  | .sendCmd w :: _ =>
    if s.cmdReady then
      match decode w with
      | .ok i => some i
      | .error _ => none
    else none
  | _ => none

/-- The state in which one given move is the next. -/
def State.offerMove (s : State) (m : Move) : State := s.setSchedule [m]

/-- The state after the first `n` moves of an infinite schedule, none when a step stopped. A word offered while a response
waits makes the host take the response, and the schedule's next move follows (assumption log 2). -/
def along (p : TiePolicy) (moves : Nat → Move) : Nat → State → Option State
  | 0, s => some s
  | n + 1, s =>
    match along p moves n s with
    | none => none
    | some t =>
      match stepWith p (t.offerMove (moves n)) with
      | .next u => some u
      | .fault _ => none
      | .refused _ => none

/-- Weak fairness of the engine (70_reset_and_hazards.md rule R210): after every point of the schedule the engine gets
another turn. -/
def WeaklyFair (moves : Nat → Move) : Prop := ∀ n, ∃ m, n ≤ m ∧ moves m = .engineTurn

/-- The index error of a command (60_exceptions.md rule R172, BAD_INDEX). -/
def indexError (i : Instr) (s : State) : Bool :=
  match i with
  | .nop        => false
  | .clear      => false
  | .freqWr v _ => 255 < v.toNat
  | .freqInc v  => 255 < v.toNat
  | .freqRd v   => 255 < v.toNat
  | .build      => false
  | .nodeRd n   => s.nodeCount.toNat ≤ n.toNat
  | .statusRd   => false

end Sys2Proof.Machine
end

