-- ==== Sys2Proof/Certificates/Slice0/Obligations.lean ====
section
/-! DEFINITION. The statements for the provers. `p` is TIE_POLICY (00_scope.md rule R6): a statement for every `p` holds
of this hardware and of the whole any_min envelope; one about `step` or `.indexOrder` holds of this hardware. A frame is
written as an equation: `t = { s with freq := t.freq, rsp := t.rsp }` says that nothing but FREQ and the response channel
differs between s and t. -/

open Sys2Proof Sys2Proof.Machine

/-! ### Encoding -/

/-- 30_encoding.md rules R72 to R75: decoding the word of any command gives the command back, every operand at every
value. -/
def Obligations.DecodeOfEncodeIsIdentity : Prop := ∀ i : Instr, decode (encode i) = .ok i

/-- 30_encoding.md rules R71 to R75: a command has one word only, so no bit of an accepted word is dropped. -/
def Obligations.EncodeOfDecodeIsIdentity : Prop := ∀ (w : CmdWord) (i : Instr), decode w = .ok i → encode i = w

/-- 30_encoding.md rules R75 and R78: decoding agrees with the match and mask table; a word that matches no row is
answered BAD_CMD and writes no other state. -/
def Obligations.DecodeAgreesWithMatchAndMask : Prop :=
  ∀ (w : CmdWord) (s : State),
    (wellFormedWord w = true ↔ ∃ i, decode w = .ok i) ∧
    (∀ i, decode w = .ok i → tableMnemonic w = some i.mnemonic) ∧
    (wellFormedWord w = false →
      ∃ t, performWord w s = .next t ∧ t.rsp = some ⟨.badCmd, 0#64⟩ ∧ t = { s with rsp := t.rsp })

/-- 30_encoding.md rule R74: "No two rows match the same word." -/
def Obligations.OpcodeRowsNeverOverlap : Prop :=
  ∀ (w : CmdWord) (r q : OpcodeRow), r ∈ opcodeRows → q ∈ opcodeRows → r.matches w = true → q.matches w = true → r = q

/-- Words written out from 30_encoding.md rule R74 and 95_test_vectors.md section 2.1 decode to what they stand for. -/
def Obligations.SampleWordsDecode : Prop :=
  decode 0x0000000000000000#64 = .ok .nop ∧
  decode 0x0000000010000000#64 = .ok .clear ∧
  decode 0x0000000520000041#64 = .ok (.freqWr 0x41#9 5#32) ∧
  decode 0x0000000120000100#64 = .ok (.freqWr 256#9 1#32) ∧
  decode 0x0000000030000007#64 = .ok (.freqInc 7#9) ∧
  decode 0x000000004000012C#64 = .ok (.freqRd 300#9) ∧
  decode 0x0000000050000000#64 = .ok .build ∧
  decode 0x00000000600001FF#64 = .ok (.nodeRd 511#9) ∧
  decode 0x0000000070000000#64 = .ok .statusRd ∧
  decode 0x0000000080000000#64 = .error .reservedOpcode ∧
  decode 0x0000000010000200#64 = .error .reservedBits ∧
  decode 0x0000000000000001#64 = .error .argNotZero ∧
  decode 0x0000000130000041#64 = .error .dataNotZero

/-- 30_encoding.md rule R79: its own example, on the characters of the line; for every mnemonic with operands, the command
for operands in the range of their fields, and the assembly error for one out of range. -/
def Obligations.AssemblerExampleAndRange : Prop :=
  assembleLine ['F', 'R', 'E', 'Q', '_', 'W', 'R', ' ', '0', 'x', '4', '1', ',', ' ', '5']
    = .ok [.command (.freqWr 0x41#9 5#32)] ∧
  encode (.freqWr 0x41#9 5#32) = 0x0000000520000041#64 ∧
  (∀ a d : Nat,
    (a < 512 → d < 2 ^ 32 → assembleParts ['F', 'R', 'E', 'Q', '_', 'W', 'R'] [a, d]
      = .ok [.command (.freqWr (BitVec.ofNat 9 a) (BitVec.ofNat 32 d))]) ∧
    (512 ≤ a ∨ 2 ^ 32 ≤ d → assembleParts ['F', 'R', 'E', 'Q', '_', 'W', 'R'] [a, d] = .error .outOfRange)) ∧
  (∀ a : Nat,
    (a < 512 →
      assembleParts ['F', 'R', 'E', 'Q', '_', 'W', 'R'] [a] = .ok [.command (.freqWr (BitVec.ofNat 9 a) 0#32)] ∧
      assembleParts ['F', 'R', 'E', 'Q', '_', 'I', 'N', 'C'] [a] = .ok [.command (.freqInc (BitVec.ofNat 9 a))] ∧
      assembleParts ['F', 'R', 'E', 'Q', '_', 'R', 'D'] [a] = .ok [.command (.freqRd (BitVec.ofNat 9 a))] ∧
      assembleParts ['N', 'O', 'D', 'E', '_', 'R', 'D'] [a] = .ok [.command (.nodeRd (BitVec.ofNat 9 a))]) ∧
    (512 ≤ a →
      assembleParts ['F', 'R', 'E', 'Q', '_', 'W', 'R'] [a] = .error .outOfRange ∧
      assembleParts ['F', 'R', 'E', 'Q', '_', 'I', 'N', 'C'] [a] = .error .outOfRange ∧
      assembleParts ['F', 'R', 'E', 'Q', '_', 'R', 'D'] [a] = .error .outOfRange ∧
      assembleParts ['N', 'O', 'D', 'E', '_', 'R', 'D'] [a] = .error .outOfRange)) ∧
  (∀ ops : List Nat,
    ((∀ a ∈ ops, a < 512) → assembleParts ['F', 'R', 'E', 'Q', '_', 'C', 'O', 'U', 'N', 'T'] ops
      = .ok (ops.map (fun a => .command (.freqInc (BitVec.ofNat 9 a))))) ∧
    ((∃ a ∈ ops, 512 ≤ a) → assembleParts ['F', 'R', 'E', 'Q', '_', 'C', 'O', 'U', 'N', 'T'] ops = .error .outOfRange) ∧
    (ops.length ≤ 256 → (∀ d ∈ ops, d < 2 ^ 32) → assembleParts ['L', 'O', 'A', 'D', '_', 'F', 'R', 'E', 'Q', 'S'] ops
      = .ok ((loadFreqs (ops.map (BitVec.ofNat 32))).map .command)) ∧
    (ops.length ≤ 256 → (∃ d ∈ ops, 2 ^ 32 ≤ d) →
      assembleParts ['L', 'O', 'A', 'D', '_', 'F', 'R', 'E', 'Q', 'S'] ops = .error .outOfRange))

/-! ### The command channel -/

/-- 30_encoding.md rule R70: with no response waiting, a step on an offered word that decodes is exec of that command,
and the word is no longer offered; `withFetchWord` makes any such word the very next one. -/
def Obligations.StepPerformsTheDecodedCommand : Prop :=
  (∀ (s : State) (w : CmdWord) (ms : List Move) (i : Instr),
    s.schedule = .sendCmd w :: ms → s.rsp = none → decode w = .ok i → step s = exec i { s with schedule := ms }) ∧
  (∀ (s : State) (w : CmdWord) (i : Instr),
    decode w = .ok i → step (s.withFetchWord 64 w.toNat) = exec i { s with rsp := none })

/-- 30_encoding.md rules R70 and R81, in the model's moves (assumption log 2): while a response waits, cmd_ready is 0; an
offered word is not accepted and stays offered, and the host takes the response; taking it changes nothing else. -/
def Obligations.OfferedWordWaitsForTheResponse : Prop :=
  ∀ (p : TiePolicy) (s : State) (ms : List Move) (r : Response), s.rsp = some r →
    s.cmdReady = false ∧ s.rspValid = true ∧
    (∀ w, s.schedule = .sendCmd w :: ms → stepWith p s = .next { s with rsp := none }) ∧
    (s.schedule = .takeRsp :: ms → stepWith p s = .next { s with rsp := none, schedule := ms })

/-- 30_encoding.md rule R77: the encoding of every result code, as rsp_rc and rsp_data (rule R81) show it while a response is
offered; 6 and 7 never show. -/
def Obligations.ResponseChannelShowsCodeAndData : Prop :=
  ∀ (s : State) (d : RData),
    (s.rsp = some ⟨.ok, d⟩ → s.rspRc = some 0#3 ∧ s.rspData = some d) ∧
    (s.rsp = some ⟨.emptyInput, d⟩ → s.rspRc = some 1#3 ∧ s.rspData = some d) ∧
    (s.rsp = some ⟨.freqOverflow, d⟩ → s.rspRc = some 2#3 ∧ s.rspData = some d) ∧
    (s.rsp = some ⟨.badCmd, d⟩ → s.rspRc = some 3#3 ∧ s.rspData = some d) ∧
    (s.rsp = some ⟨.badPhase, d⟩ → s.rspRc = some 4#3 ∧ s.rspData = some d) ∧
    (s.rsp = some ⟨.badIndex, d⟩ → s.rspRc = some 5#3 ∧ s.rspData = some d) ∧
    s.rspRc ≠ some 6#3 ∧ s.rspRc ≠ some 7#3

/-- 30_encoding.md rule R70, 60_exceptions.md rule R183 and 20_memory.md rule R57: a host that sends any words and takes each
response before it sends again gets exactly one response per word, in their order, however many engine turns fall between
its moves. -/
def Obligations.OneResponsePerCommandInOrder : Prop :=
  ∀ (p : TiePolicy) (ws : List CmdWord) (moves ms : List Move) (s : State),
    Inv s → s.rsp = none → moves.filter (fun m => m ≠ .engineTurn) = hostScript ws → s.schedule = moves ++ ms →
    (triples (traceWith p moves.length none s)).map (·.word) = ws ∧
    ∃ t, runWith p moves.length s = .next t ∧ t.rsp = none ∧ t.schedule = ms

/-- 00_scope.md rule R10 and 70_reset_and_hazards.md rule R200 (assumption log 17): after a word is accepted and any number
of engine turns, taking the response shows the one triple of the word and its response; if `rst` comes before, no triple ever
shows, and the block is in the reset state with no response offered. -/
def Obligations.TripleShowsAtTransferAndNeverAfterReset : Prop :=
  ∀ (p : TiePolicy) (w : CmdWord) (n : Nat) (ms : List Move) (s : State), Inv s → s.rsp = none →
    (s.schedule = .sendCmd w :: (List.replicate n .engineTurn ++ .takeRsp :: ms) →
      ∃ t r, performWord w { s with schedule := List.replicate n .engineTurn ++ .takeRsp :: ms } = .next t ∧
        t.rsp = some r ∧ triples (traceWith p (n + 2) none s) = [⟨w, r.rc, r.data⟩]) ∧
    (s.schedule = .sendCmd w :: (List.replicate n .engineTurn ++ .assertRst :: ms) →
      triples (traceWith p (n + 2) none s) = [] ∧
      ∃ t, runWith p (n + 2) s = .next t ∧ t.rsp = none ∧ SameBlock State.reset t ∧ t.schedule = ms)

/-- 00_scope.md rule R10 (assumption log 17): what shows outside gives the level of `done` after any number of steps, and a
level shows only when it is a new one. -/
def Obligations.TraceFollowsTheLevelOfDone : Prop :=
  (∀ (p : TiePolicy) (k : Nat) (sent : Option CmdWord) (s t : State), runWith p k s = .next t →
    doneAfter s.doneOut (traceWith p k sent s) = t.doneOut) ∧
  (∀ (sent : Option CmdWord) (s t : State) (level : Bool),
    .doneLevel level ∈ observe sent s t ↔ level = t.doneOut ∧ t.doneOut ≠ s.doneOut)

/-! ### The commands -/

/-- 40_frequency.md rule R100, whole: encoding, BAD_PHASE, BAD_INDEX, and the write. -/
def Obligations.FreqWrWritesOneEntry : Prop :=
  ∀ (sym : Idx) (value : Freq) (s : State),
    (∀ w : CmdWord, decode w = .ok (.freqWr sym value) ↔
      w &&& 0x00000000FFFFFE00#64 = 0x0000000020000000#64 ∧ w.extractLsb' 0 9 = sym ∧ w.extractLsb' 32 32 = value) ∧
    (s.phase ≠ .load → exec (.freqWr sym value) s = .next { s with rsp := some ⟨.badPhase, 0#64⟩ }) ∧
    (s.phase = .load → 255 < sym.toNat → exec (.freqWr sym value) s = .next { s with rsp := some ⟨.badIndex, 0#64⟩ }) ∧
    (s.phase = .load → sym.toNat ≤ 255 →
      ∃ t, exec (.freqWr sym value) s = .next t ∧ t.rsp = some ⟨.ok, 0#64⟩ ∧ t.freqAt sym.toNat = value ∧
        (∀ v, v ≠ sym.toNat → t.freqAt v = s.freqAt v) ∧ t = { s with freq := t.freq, rsp := t.rsp })

/-- 40_frequency.md rule R101, whole: encoding, the three errors in their order, and the increment, which never wraps. -/
def Obligations.FreqIncCountsOneOccurrence : Prop :=
  ∀ (sym : Idx) (s : State),
    (∀ w : CmdWord, decode w = .ok (.freqInc sym) ↔
      w &&& 0xFFFFFFFFFFFFFE00#64 = 0x0000000030000000#64 ∧ w.extractLsb' 0 9 = sym) ∧
    (s.phase ≠ .load → exec (.freqInc sym) s = .next { s with rsp := some ⟨.badPhase, 0#64⟩ }) ∧
    (s.phase = .load → 255 < sym.toNat → exec (.freqInc sym) s = .next { s with rsp := some ⟨.badIndex, 0#64⟩ }) ∧
    (s.phase = .load → sym.toNat ≤ 255 → s.freqAt sym.toNat = 0xFFFFFFFF#32 →
      exec (.freqInc sym) s = .next { s with rsp := some ⟨.freqOverflow, 0#64⟩ }) ∧
    (s.phase = .load → sym.toNat ≤ 255 → s.freqAt sym.toNat ≠ 0xFFFFFFFF#32 →
      ∃ t, exec (.freqInc sym) s = .next t ∧ t.rsp = some ⟨.ok, 0#64⟩ ∧
        (t.freqAt sym.toNat).toNat = (s.freqAt sym.toNat).toNat + 1 ∧
        (∀ v, v ≠ sym.toNat → t.freqAt v = s.freqAt v) ∧ t = { s with freq := t.freq, rsp := t.rsp })

/-- 40_frequency.md rule R102, whole: encoding, BAD_INDEX, and the answer in every phase. -/
def Obligations.FreqRdAnswersTheEntry : Prop :=
  ∀ (sym : Idx) (s : State),
    (∀ w : CmdWord, decode w = .ok (.freqRd sym) ↔
      w &&& 0xFFFFFFFFFFFFFE00#64 = 0x0000000040000000#64 ∧ w.extractLsb' 0 9 = sym) ∧
    (255 < sym.toNat → exec (.freqRd sym) s = .next { s with rsp := some ⟨.badIndex, 0#64⟩ }) ∧
    (sym.toNat ≤ 255 →
      ∃ t d, exec (.freqRd sym) s = .next t ∧ t.rsp = some ⟨.ok, d⟩ ∧ d.toNat = (s.freqAt sym.toNat).toNat ∧
        t = { s with rsp := t.rsp })

/-- 41_build.md rules R120 to R123, whole: encoding, BAD_PHASE, EMPTY_INPUT with FAIL, and for L >= 1 the leaves in
ascending symbol order, the queue bits, the counters, and DONE at once exactly when L = 1. `S` is any strictly ascending
list of exactly the symbols present. -/
def Obligations.BuildPlacesTheLeaves : Prop :=
  ∀ (s : State) (S : List Nat), S.Pairwise (· < ·) → (∀ v, v ∈ S ↔ v < 256 ∧ s.freqAt v ≠ 0#32) →
    (∀ w : CmdWord, decode w = .ok .build ↔ w = 0x0000000050000000#64) ∧
    (s.phase ≠ .load → exec .build s = .next { s with rsp := some ⟨.badPhase, 0#64⟩ }) ∧
    (s.phase = .load → S = [] →
      exec .build s = .next { s with phase := .fail, buildErr := 1#3, rsp := some ⟨.emptyInput, 0#64⟩ }) ∧
    (s.phase = .load → S ≠ [] →
      ∃ t, exec .build s = .next t ∧ t.rsp = some ⟨.ok, 0#64⟩ ∧
        t.leafCount.toNat = S.length ∧ t.nodeCount.toNat = S.length ∧ t.qCount.toNat = S.length ∧ t.root = 0#9 ∧
        (S.length = 1 → t.phase = .done) ∧ (S.length ≠ 1 → t.phase = .busy) ∧
        (∀ k (h : k < S.length), ∃ r, t.nodeAt k = some r ∧ r.kind = .leaf ∧ r.sym.toNat = S[k] ∧ r.left = 0#9 ∧
          r.right = 0#9 ∧ r.weight.toNat = (s.freqAt S[k]).toNat) ∧
        (∀ k, t.inqAt k = if k < S.length then true else s.inqAt k) ∧
        t = { s with phase := t.phase, leafCount := t.leafCount, nodeCount := t.nodeCount, root := t.root,
                     qCount := t.qCount, node := t.node, inq := t.inq, rsp := t.rsp })

/-- 42_readout_control.md rule R150, whole: encoding, the errors, and the node word bit by bit. -/
def Obligations.NodeRdAnswersTheRecord : Prop :=
  ∀ (idx : Idx) (s : State),
    (∀ w : CmdWord, decode w = .ok (.nodeRd idx) ↔
      w &&& 0xFFFFFFFFFFFFFE00#64 = 0x0000000060000000#64 ∧ w.extractLsb' 0 9 = idx) ∧
    (s.phase ≠ .done → exec (.nodeRd idx) s = .next { s with rsp := some ⟨.badPhase, 0#64⟩ }) ∧
    (s.phase = .done → s.nodeCount.toNat ≤ idx.toNat ∨ idx.toNat = 511 →
      exec (.nodeRd idx) s = .next { s with rsp := some ⟨.badIndex, 0#64⟩ }) ∧
    (∀ r, s.phase = .done → s.nodeAt idx.toNat = some r →
      ∃ t d, exec (.nodeRd idx) s = .next t ∧ t.rsp = some ⟨.ok, d⟩ ∧ t = { s with rsp := t.rsp } ∧
        d.extractLsb' 0 40 = r.weight ∧ d.extractLsb' 58 5 = 0#5 ∧
        (r.kind = .leaf →
          d.extractLsb' 63 1 = 1#1 ∧ d.extractLsb' 49 9 = 0#9 ∧ d.extractLsb' 48 1 = 0#1 ∧ d.extractLsb' 40 8 = r.sym) ∧
        (r.kind = .branch →
          d.extractLsb' 63 1 = 0#1 ∧ d.extractLsb' 49 9 = r.right ∧ d.extractLsb' 40 9 = r.left))

/-- 42_readout_control.md rule R151 and the STATUS layout of 10_state.md rules R22 and R32, whole, in every state. -/
def Obligations.StatusRdAnswersTheStatusWord : Prop :=
  ∀ s : State,
    (∀ w : CmdWord, decode w = .ok .statusRd ↔ w = 0x0000000070000000#64) ∧
    ∃ t d, exec .statusRd s = .next t ∧ t.rsp = some ⟨.ok, d⟩ ∧ t = { s with rsp := t.rsp } ∧
      (s.phase = .load → d.extractLsb' 0 2 = 0#2) ∧ (s.phase = .busy → d.extractLsb' 0 2 = 1#2) ∧
      (s.phase = .done → d.extractLsb' 0 2 = 2#2) ∧ (s.phase = .fail → d.extractLsb' 0 2 = 3#2) ∧
      d.extractLsb' 2 3 = s.buildErr ∧ d.extractLsb' 5 3 = 0#3 ∧ d.extractLsb' 8 9 = s.leafCount ∧
      d.extractLsb' 17 9 = s.nodeCount ∧ d.extractLsb' 26 9 = s.root ∧ d.extractLsb' 35 9 = s.qCount ∧
      d.extractLsb' 44 20 = 0#20

/-- 42_readout_control.md rule R152, whole: the one word of NOP, BAD_CMD for any other word with OP = 0, and (OK, 0) in every
phase, no state written. -/
def Obligations.NopAnswersOkAndWritesNothing : Prop :=
  (∀ w : CmdWord, decode w = .ok .nop ↔ w = 0#64) ∧
  (∀ (w : CmdWord) (s : State), w.extractLsb' 28 4 = 0#4 → w ≠ 0#64 →
    performWord w s = .next { s with rsp := some ⟨.badCmd, 0#64⟩ }) ∧
  ∀ s : State, ∃ t, exec .nop s = .next t ∧ t.rsp = some ⟨.ok, 0#64⟩ ∧ t = { s with rsp := t.rsp }

/-- 42_readout_control.md rule R153: the one word of CLEAR, and in every phase the reset state. That NODE is held as
absent afterwards is the model's form of "becomes unreadable" (assumption log 4). -/
def Obligations.ClearReturnsTheResetState : Prop :=
  (∀ w : CmdWord, decode w = .ok .clear ↔ w = 0x0000000010000000#64) ∧
  ∀ s : State, ∃ t, exec .clear s = .next t ∧ t.rsp = some ⟨.ok, 0#64⟩ ∧
    t.phase = .load ∧ t.buildErr = 0#3 ∧ t.leafCount = 0#9 ∧ t.nodeCount = 0#9 ∧ t.root = 0#9 ∧ t.qCount = 0#9 ∧
    (∀ v, t.freqAt v = 0#32) ∧ (∀ i, t.inqAt i = false) ∧ (∀ i, t.nodeAt i = none) ∧
    t = { State.reset with rsp := t.rsp, schedule := s.schedule, draws := s.draws }

/-! ### Errors and phases -/

/-- 60_exceptions.md rule R171: an error answers data 0 and writes no state; EMPTY_INPUT alone writes, and exactly
PHASE = FAIL and BUILD_ERR = 1. -/
def Obligations.ErrorsWriteNoState : Prop :=
  ∀ (w : CmdWord) (s t : State), performWord w s = .next t →
    ∃ rc d, t.rsp = some ⟨rc, d⟩ ∧
      (rc ≠ .ok → d = 0#64) ∧
      (rc ≠ .ok → rc ≠ .emptyInput → t = { s with rsp := t.rsp }) ∧
      (rc = .emptyInput → decode w = .ok .build ∧ t = { s with phase := .fail, buildErr := 1#3, rsp := t.rsp })

/-- 60_exceptions.md rules R172 and R175: each result code is answered exactly for its cause, the causes tried in the
order BAD_CMD, BAD_PHASE, BAD_INDEX, the command's own failure; and what each records. -/
def Obligations.ResultCodesNameTheirCause : Prop :=
  ∀ (w : CmdWord) (s t : State), performWord w s = .next t →
    ∃ rc d, t.rsp = some ⟨rc, d⟩ ∧
      (rc = .badCmd ↔ ∀ i, decode w ≠ .ok i) ∧
      (rc = .badPhase ↔ ∃ i, decode w = .ok i ∧ permitted i s.phase = false) ∧
      (rc = .badIndex ↔ ∃ i, decode w = .ok i ∧ permitted i s.phase = true ∧ indexError i s = true) ∧
      (rc = .freqOverflow ↔ ∃ sym, decode w = .ok (.freqInc sym) ∧ s.phase = .load ∧ sym.toNat ≤ 255 ∧
        s.freqAt sym.toNat = 0xFFFFFFFF#32) ∧
      (rc = .emptyInput ↔ decode w = .ok .build ∧ s.phase = .load ∧ ∀ v, v < 256 → s.freqAt v = 0#32) ∧
      (rc ≠ .ok → rc ≠ .emptyInput → t = { s with rsp := t.rsp }) ∧
      (rc = .emptyInput → t.phase = .fail ∧ t.buildErr = 1#3)

/-- 60_exceptions.md rule R176: a command is refused with BAD_PHASE exactly where the permission table says so, and the
phase moves only along the listed transitions. -/
def Obligations.PhasesFollowThePermissionTable : Prop :=
  (∀ (i : Instr) (s : State),
    (permitted i s.phase = false → exec i s = .next { s with rsp := some ⟨.badPhase, 0#64⟩ }) ∧
    (permitted i s.phase = true → ∀ t d, exec i s = .next t → t.rsp ≠ some ⟨.badPhase, d⟩)) ∧
  (∀ (p : TiePolicy) (s t : State), stepWith p s = .next t → t.phase ≠ s.phase →
    (abortsNext s = true ∧ t.phase = .load) ∨
    (s.phase = .load ∧ nextCommand s = some .build ∧
      t.phase = if s.symbols.length = 0 then .fail else if s.symbols.length = 1 then .done else .busy) ∨
    (s.phase = .busy ∧ t.phase = .done ∧ s.qCount = 2#9 ∧ ∀ m, s.schedule.head? = some m → m = .engineTurn))

/-- 60_exceptions.md rule R177: FAIL is entered only through BUILD with no symbol present; the cause is saved, `done`
rises, and every other register keeps its LOAD value. -/
def Obligations.FailIsEnteredOnlyByEmptyBuild : Prop :=
  ∀ (p : TiePolicy) (s t : State), Inv s → stepWith p s = .next t → s.phase ≠ .fail → t.phase = .fail →
    nextCommand s = some .build ∧ (∀ v, v < 256 → s.freqAt v = 0#32) ∧ t.rsp = some ⟨.emptyInput, 0#64⟩ ∧
    t.buildErr = 1#3 ∧ t.doneOut = true ∧ t.leafCount = 0#9 ∧ t.nodeCount = 0#9 ∧ t.root = 0#9 ∧ t.qCount = 0#9 ∧
    t.freq = s.freq ∧ t.node = s.node ∧ t.inq = s.inq

/-- 60_exceptions.md rule R178: FAIL is left only by CLEAR or reset, which give the reset state; any other step
leaves the whole block as it is, and the four loading and reading commands are refused. -/
def Obligations.FailIsLeftOnlyByClearOrReset : Prop :=
  ∀ (p : TiePolicy) (s : State), s.phase = .fail →
    (∀ t, stepWith p s = .next t →
      (abortsNext s = true → SameBlock State.reset t) ∧ (abortsNext s = false → SameBlock s t)) ∧
    exec .build s = .next { s with rsp := some ⟨.badPhase, 0#64⟩ } ∧
    (∀ sym v, exec (.freqWr sym v) s = .next { s with rsp := some ⟨.badPhase, 0#64⟩ }) ∧
    (∀ sym, exec (.freqInc sym) s = .next { s with rsp := some ⟨.badPhase, 0#64⟩ }) ∧
    (∀ idx, exec (.nodeRd idx) s = .next { s with rsp := some ⟨.badPhase, 0#64⟩ })

/-- 10_state.md rule R31: `done` is 1 exactly in DONE and FAIL and falls only on CLEAR or
reset. -/
def Obligations.DoneFallsOnlyOnClearOrReset : Prop :=
  (∀ s : State, s.doneOut = true ↔ s.phase = .done ∨ s.phase = .fail) ∧
  ∀ (p : TiePolicy) (s t : State), stepWith p s = .next t → s.doneOut = true → t.doneOut = false →
    t.phase = .load ∧ abortsNext s = true

/-! ### Reset -/

/-- 10_state.md rule R37: every value after reset or CLEAR. -/
def Obligations.ResetAndClearValues : Prop :=
  ∀ t : State, t = State.reset ∨ (∃ s, exec .clear s = .next t) →
    t.phase = .load ∧ t.buildErr = 0#3 ∧ t.leafCount = 0#9 ∧ t.nodeCount = 0#9 ∧ t.root = 0#9 ∧ t.qCount = 0#9 ∧
    (∀ v, t.freqAt v = 0#32) ∧ (∀ i, t.inqAt i = false) ∧ (∀ i, t.nodeAt i = none) ∧ t.doneOut = false

/-- 70_reset_and_hazards.md rule R200: `rst` gives the reset state from any state, a MERGE in progress or not, and
discards a response not yet transferred. -/
def Obligations.ResetDropsEverything : Prop :=
  ∀ (p : TiePolicy) (s : State) (ms : List Move), s.schedule = .assertRst :: ms →
    ∃ t, stepWith p s = .next t ∧ SameBlock State.reset t ∧ t.rsp = none ∧ t.doneOut = false ∧ ∀ i, t.nodeAt i = none

/-- The reset state meets every invariant (10_state.md rules R36 and R37), whatever schedule follows. -/
def Obligations.ResetMeetsTheInvariants : Prop :=
  ∀ ms : List Move, Inv (State.reset.setSchedule ms) ∧ TreeInv (State.reset.setSchedule ms) ∧
    MergeOrder (State.reset.setSchedule ms)

/-! ### The merge engine -/

/-- 41_build.md rules R124, R126 and R128: the two smallest keys, first one left; what MERGE writes and its frame; enabled
exactly in BUSY. -/
def Obligations.MergeJoinsTheTwoSmallestKeys : Prop :=
  (∀ (p : TiePolicy) (s : State), s.phase ≠ .busy → engineStep p s = .next s) ∧
  ∀ s : State, Inv s → s.phase = .busy →
    ∃ a b ra rb t, a ∈ s.queue ∧ b ∈ s.queue ∧ a ≠ b ∧ s.nodeAt a = some ra ∧ s.nodeAt b = some rb ∧
      (∀ x ∈ s.queue, x ≠ a → s.weightAt a < s.weightAt x ∨ (s.weightAt a = s.weightAt x ∧ a < x)) ∧
      (∀ x ∈ s.queue, x ≠ a → x ≠ b → s.weightAt b < s.weightAt x ∨ (s.weightAt b = s.weightAt x ∧ b < x)) ∧
      engineStep .indexOrder s = .next t ∧
      t.nodeAt s.nodeCount.toNat =
        some { kind := .branch, sym := 0#8, left := BitVec.ofNat 9 a, right := BitVec.ofNat 9 b,
               weight := ra.weight + rb.weight } ∧
      (∀ i, i ≠ s.nodeCount.toNat → t.nodeAt i = s.nodeAt i) ∧
      (∀ i, t.inqAt i = if i = s.nodeCount.toNat then true else if i = a ∨ i = b then false else s.inqAt i) ∧
      t.nodeCount.toNat = s.nodeCount.toNat + 1 ∧ t.qCount.toNat + 1 = s.qCount.toNat ∧
      (s.qCount = 2#9 → t.root = s.nodeCount ∧ t.phase = .done) ∧
      (s.qCount ≠ 2#9 → t.root = s.root ∧ t.phase = .busy) ∧
      t = { s with phase := t.phase, nodeCount := t.nodeCount, root := t.root, qCount := t.qCount, node := t.node,
                   inq := t.inq }

/-- 41_build.md rule R125: under any_min a MERGE may take exactly the pairs and child orders the rule lists, and writes
what MERGE writes on that pair; the engine's turn does one of them, and what index_order does is one of them. -/
def Obligations.AnyMinAdmitsExactlyTheEnvelope : Prop :=
  ∀ s t : State, Inv s → s.phase = .busy →
    ((∃ pick, mergeWith .anyMin pick s = .next t) ↔
      ∃ a b ra rb, a ∈ s.queue ∧ b ∈ s.queue ∧ b ≠ a ∧ s.nodeAt a = some ra ∧ s.nodeAt b = some rb ∧
        (∀ x ∈ s.queue, s.weightAt a ≤ s.weightAt x) ∧
        (∀ x ∈ s.queue, x ≠ a → s.weightAt b ≤ s.weightAt x) ∧
        (t = joinPair ⟨a, ra.weight⟩ ⟨b, rb.weight⟩ s ∨ t = joinPair ⟨b, rb.weight⟩ ⟨a, ra.weight⟩ s)) ∧
    (engineStep .anyMin s = .next t → ∃ pick, mergeWith .anyMin pick s = .next { t with draws := s.draws }) ∧
    (engineStep .indexOrder s = .next t → ∃ pick, mergeWith .anyMin pick s = .next t)

/-- 41_build.md rule R131: weights lie between 1 and the sum of all FREQ entries, that sum is at most 0xFF_FFFF_FF00, and
no MERGE sum reaches 2^40. -/
def Obligations.NoWeightOverflows : Prop :=
  ∀ s : State, Inv s → TreeInv s →
    s.freqTotal ≤ 0xFFFFFFFF00 ∧
    (∀ i, i < s.nodeCount.toNat → 1 ≤ s.weightAt i ∧ s.weightAt i ≤ s.freqTotal) ∧
    (∀ a ∈ s.queue, ∀ b ∈ s.queue, a ≠ b → s.weightAt a + s.weightAt b < 2 ^ 40)

/-- 41_build.md rules R127 and R132: a build of L >= 2 leaves takes exactly L - 1 MERGE steps under either policy, BUSY
before the last and DONE with 2L - 1 nodes after it. -/
def Obligations.BuildEndsAfterLMinusOneMerges : Prop :=
  ∀ (p : TiePolicy) (s : State), Inv s → s.phase = .load → s.rsp = none → s.schedule = [.sendCmd (encode .build)] →
    2 ≤ s.symbols.length →
    (∀ k, k + 1 < s.symbols.length → ∃ u, runWith p (1 + k) s = .next u ∧ u.phase = .busy ∧
      u.nodeCount.toNat = s.symbols.length + k ∧ u.qCount.toNat + k = s.symbols.length) ∧
    (∃ t, runWith p s.symbols.length s = .next t ∧ t.phase = .done ∧ t.nodeCount.toNat + 1 = 2 * s.symbols.length ∧
      t.root.toNat + 1 = t.nodeCount.toNat)

/-- 70_reset_and_hazards.md rule R210 and 41_build.md rule R127: along every infinite schedule that is fair to the engine
and free of aborts, a build in BUSY reaches DONE. -/
def Obligations.FairEngineReachesDone : Prop :=
  ∀ (p : TiePolicy) (moves : Nat → Move) (s : State), Inv s → s.phase = .busy → WeaklyFair moves →
    (∀ n, isAbort (moves n) = false) → ∃ n t, along p moves n s = some t ∧ t.phase = .done

/-- 41_build.md rule R129 and 20_memory.md rule R57: while BUSY no command but CLEAR changes anything the engine works on,
under either policy, and no command but NOP, STATUS_RD, FREQ_RD and CLEAR is accepted. -/
def Obligations.CommandsLeaveARunningBuildAlone : Prop :=
  ∀ (i : Instr) (s t : State), s.phase = .busy → exec i s = .next t → i ≠ .clear →
    t = { s with rsp := t.rsp } ∧
    (∀ d, t.rsp = some ⟨.ok, d⟩ → i = .nop ∨ i = .statusRd ∨ ∃ sym, i = .freqRd sym)

/-- 41_build.md rule R129: under index_order the finished tree is a function of the block's state when the build runs,
whatever the two schedules of commands and engine turns are. -/
def Obligations.FinalTreeIgnoresTheInterleaving : Prop :=
  ∀ (j k : Nat) (s t s' t' : State), s.phase = .busy → SameBlock s t →
    (∀ m ∈ s.schedule, isAbort m = false) → (∀ m ∈ t.schedule, isAbort m = false) →
    core.run j s = .next s' → core.run k t = .next t' → s'.phase = .done → t'.phase = .done → SameBlock s' t'

/-! ### Invariants -/

/-- 10_state.md rule R36: every step keeps the invariant, under either tie policy. -/
def Obligations.StepKeepsTheInvariant : Prop :=
  ∀ (p : TiePolicy) (s t : State), Inv s → stepWith p s = .next t → Inv t

/-- 60_exceptions.md rule R174: in a state that meets the invariant no step stops: no MERGE fails and no command is left
without an answer. -/
def Obligations.NoStepStops : Prop := ∀ (p : TiePolicy) (s : State), Inv s → ∃ t, stepWith p s = .next t

/-- 41_build.md rule R130: every step keeps the tree's shape and sums, under either tie policy. -/
def Obligations.StepKeepsTheTree : Prop :=
  ∀ (p : TiePolicy) (s t : State), Inv s → TreeInv s → stepWith p s = .next t → TreeInv t

/-- 41_build.md rule R133: every step keeps the order of the Branch weights, under either tie policy. -/
def Obligations.StepKeepsBranchWeightsRising : Prop :=
  ∀ (p : TiePolicy) (s t : State), Inv s → TreeInv s → MergeOrder s → stepWith p s = .next t → MergeOrder t

/-- 10_state.md rule R36: every state reachable from reset under any schedule meets its phase's invariant; the counters
stay within 511 and 256; and outside LOAD no step but CLEAR or reset changes FREQ. -/
def Obligations.ReachableStatesMeetThePhaseInvariant : Prop :=
  (∀ (p : TiePolicy) (ms : List Move) (k : Nat) (t : State), runWith p k (State.reset.setSchedule ms) = .next t →
    PhaseInv t ∧ t.nodeCount.toNat ≤ 511 ∧ t.qCount.toNat ≤ 256) ∧
  ∀ (p : TiePolicy) (s t : State), stepWith p s = .next t → s.phase ≠ .load → abortsNext s = false →
    ∀ v, t.freqAt v = s.freqAt v

/-- 41_build.md rules R130 and R132: in every reachable DONE state, under either policy, NODE holds a strict binary tree of
2L - 1 nodes over exactly the symbols present: (a) the leaves, (b) the branches, (c) one parent for every node but the root;
and every node is reachable from ROOT. -/
def Obligations.FinishedTreeIsStrictBinary : Prop :=
  ∀ (p : TiePolicy) (ms : List Move) (k : Nat) (s : State), runWith p k (State.reset.setSchedule ms) = .next s →
    s.phase = .done →
    (∃ S : List Nat, S.Pairwise (· < ·) ∧ (∀ v, v ∈ S ↔ v < 256 ∧ s.freqAt v ≠ 0#32) ∧ S.length = s.leafCount.toNat ∧
      ∀ j (h : j < S.length), ∃ r, s.nodeAt j = some r ∧ r.kind = .leaf ∧ r.sym.toNat = S[j]) ∧
    (∀ n, n < s.nodeCount.toNat → (s.isLeaf n = true ↔ n < s.leafCount.toNat)) ∧
    (∀ n, n < s.nodeCount.toNat → s.leafCount.toNat ≤ n →
      s.isBranch n = true ∧ s.leftAt n < n ∧ s.rightAt n < n ∧ s.leftAt n ≠ s.rightAt n) ∧
    (∀ i, i < s.nodeCount.toNat → i ≠ s.root.toNat → (s.parents i).length = 1) ∧
    s.parents s.root.toNat = [] ∧
    s.nodeCount.toNat + 1 = 2 * s.leafCount.toNat ∧ s.nodeCount.toNat ≤ 511 ∧
    (∀ k, k < s.nodeCount.toNat → ∃ bits, HasPath s s.root.toNat bits k)

/-- 41_build.md rules R133 and R134: in every reachable state, under either policy, the weights of successive Branches
never decrease, and in DONE the root weighs what FREQ holds. -/
def Obligations.ReachableTreeWeights : Prop :=
  ∀ (p : TiePolicy) (ms : List Move) (k : Nat) (s : State), runWith p k (State.reset.setSchedule ms) = .next s →
    (∀ n, s.leafCount.toNat ≤ n → n + 1 < s.nodeCount.toNat → s.weightAt n ≤ s.weightAt (n + 1)) ∧
    (s.phase = .done → s.weightAt s.root.toNat = s.freqTotal)

/-- 41_build.md rule R135: the depth of every leaf. -/
def Obligations.LeafDepthIsBounded : Prop :=
  ∀ (s : State) (k : Nat), Inv s → TreeInv s → s.phase = .done → k < s.leafCount.toNat →
    (∃ bits, HasPath s s.root.toNat bits k) ∧
    ∀ bits, HasPath s s.root.toNat bits k →
      (s.leafCount.toNat = 1 → bits.length = 0) ∧
      (2 ≤ s.leafCount.toNat → 1 ≤ bits.length ∧ bits.length ≤ s.leafCount.toNat - 1) ∧ bits.length ≤ 255

/-- 41_build.md rule R130 and 42_readout_control.md rule R150: a walk from ROOT comes to every node along exactly one
path: no sharing, no cycle, nothing unreachable. -/
def Obligations.EveryNodeHasExactlyOnePath : Prop :=
  ∀ (s : State) (k : Nat), Inv s → TreeInv s → s.phase = .done → k < s.nodeCount.toNat →
    ∃ bits, HasPath s s.root.toNat bits k ∧ ∀ other, HasPath s s.root.toNat other k → other = bits

/-! ### Whole-machine rules -/

/-- 20_memory.md rule R56: the reads write no state and, repeated, answer the same; FREQ_WR is idempotent; each accepted
FREQ_INC adds 1. -/
def Obligations.ReadsRepeatAndWritesAreIdempotent : Prop :=
  (∀ (i : Instr) (s t u : State), (i = .statusRd ∨ (∃ sym, i = .freqRd sym) ∨ ∃ idx, i = .nodeRd idx) →
    exec i s = .next t → exec i t = .next u → t = { s with rsp := t.rsp } ∧ u = t) ∧
  (∀ (sym : Idx) (v : Freq) (s t u : State), exec (.freqWr sym v) s = .next t → exec (.freqWr sym v) t = .next u → u = t) ∧
  (∀ (sym : Idx) (s t : State), exec (.freqInc sym) s = .next t → t.rsp = some ⟨.ok, 0#64⟩ →
    (t.freqAt sym.toNat).toNat = (s.freqAt sym.toNat).toNat + 1)

/-- 70_reset_and_hazards.md rule R206: after BUILD, FREQ is frozen until CLEAR or reset, which set it to zero; BUILD in
DONE or FAIL is refused. -/
def Obligations.FreqIsFrozenUntilClear : Prop :=
  ∀ (p : TiePolicy) (s t : State), s.phase ≠ .load → stepWith p s = .next t →
    (abortsNext s = false → t.freq = s.freq ∧ t.phase ≠ .load) ∧
    (abortsNext s = true → t.phase = .load ∧ ∀ v, t.freqAt v = 0#32) ∧
    exec .build s = .next { s with rsp := some ⟨.badPhase, 0#64⟩ }

/-- 70_reset_and_hazards.md rule R209: after a build has ended nothing changes until the host's next CLEAR or reset,
however long the machine runs. -/
def Obligations.NothingChangesAfterTheBuildEnds : Prop :=
  ∀ (p : TiePolicy) (k : Nat) (s t : State), s.phase = .done ∨ s.phase = .fail →
    (∀ m ∈ s.schedule, isAbort m = false) → runWith p k s = .next t → SameBlock s t

/-- 40_frequency.md rule R103: FREQ_INC over a buffer, sent command by command from a state with no frequencies, answers
OK every time and leaves the source's frequency mapping. -/
def Obligations.TallyCountsTheBuffer : Prop :=
  ∀ (p : TiePolicy) (buffer : List Sym) (ms : List Move) (s : State),
    s.phase = .load → (∀ v, s.freqAt v = 0#32) → s.rsp = none →
    s.schedule = commandScript (freqCount (buffer.map (fun b => b.setWidth 9))) ++ ms →
    (∀ b, buffer.count b ≤ 2 ^ 32 - 1) →
    ∃ t, runWith p (2 * buffer.length) s = .next t ∧ t.schedule = ms ∧
      traceWith p (2 * buffer.length) none s =
        buffer.map (fun b => .response ⟨encode (.freqInc (b.setWidth 9)), .ok, 0#64⟩) ∧
      ∀ b : Sym, (t.freqAt b.toNat).toNat = buffer.count b

/-- 30_encoding.md rule R80: LOAD_FREQS leaves FREQ[s] = v_s for every s. -/
def Obligations.LoadFreqsLoadsTheMapping : Prop :=
  ∀ (p : TiePolicy) (vs : List Freq) (ms : List Move) (s : State),
    s.phase = .load → s.rsp = none → s.schedule = commandScript (loadFreqs vs) ++ ms →
    ∃ t, runWith p 512 s = .next t ∧ t.phase = .load ∧ t.schedule = ms ∧ ∀ v, v < 256 → t.freqAt v = vs.getD v 0#32

/-- 30_encoding.md rule R80: WAIT_DONE ends exactly when PHASE is DONE or FAIL, and READ_TREE then reads exactly the
records of the tree, every one answered OK. -/
def Obligations.WaitDoneThenReadTreeReadsEveryNode : Prop :=
  ∀ s : State, ∃ t d, exec .statusRd s = .next t ∧ t.rsp = some ⟨.ok, d⟩ ∧
    (waitDoneEnds d = true ↔ s.phase = .done ∨ s.phase = .fail) ∧
    readTree d = .statusRd :: (List.range s.nodeCount.toNat).map (fun i => .nodeRd (BitVec.ofNat 9 i)) ∧
    (Inv s → s.phase = .done → ∀ i ∈ readTree d, ∃ u e, exec i t = .next u ∧ u.rsp = some ⟨.ok, e⟩)

/-- 10_state.md rules R35 and R37: what NODE holds at or above NODE_COUNT cannot be observed: two states that differ only
there take the same steps, answer the same and stay so. -/
def Obligations.AbsentRecordsCannotBeObserved : Prop :=
  ∀ (p : TiePolicy) (s t s' : State), SameVisible s t → stepWith p s = .next s' →
    ∃ t', stepWith p t = .next t' ∧ SameVisible s' t' ∧ t'.doneOut = s'.doneOut ∧
      ∀ sent, observe sent t t' = observe sent s s' ∧ outstanding sent t = outstanding sent s
end

