-- ==== Sys2Proof/Laws/Memory.lean ====
section
/-! SUPPORT. The laws of the arrays: a read after a write, on every list of pairs; that a write keeps the canonical form
and the index bound; and what the priority queue lists. -/

namespace Sys2Proof.Machine

variable {α : Type}

@[simp] theorem Memory.read_nil (d : α) (i : Nat) : Memory.read d [] i = d := rfl

theorem Memory.read_cons (d : α) (k : Nat) (v : α) (m : Memory α) (i : Nat) :
    Memory.read d ((k, v) :: m) i = if k = i then v else Memory.read d m i := rfl

/-- What is listed nowhere reads as the default. -/
theorem Memory.read_unlisted {d : α} {m : Memory α} {i : Nat} (h : ∀ e ∈ m, e.1 ≠ i) : Memory.read d m i = d := by
  induction m with
  | nil => rfl
  | cons e m ih =>
    obtain ⟨k, v⟩ := e
    have hk : k ≠ i := h (k, v) (by simp)
    rw [Memory.read_cons, if_neg hk]
    exact ih (fun e he => h e (by simp [he]))

theorem Memory.read_insert (d : α) (m : Memory α) (i j : Nat) (v : α) (h : ∀ e ∈ m, e.1 ≠ i) :
    Memory.read d (Memory.insert i v m) j = if i = j then v else Memory.read d m j := by
  induction m with
  | nil => rfl
  | cons e m ih =>
    obtain ⟨k, w⟩ := e
    have hk : k ≠ i := h (k, w) (by simp)
    have ih := ih (fun e he => h e (by simp [he]))
    unfold Memory.insert
    split
    · rfl
    · rw [Memory.read_cons, Memory.read_cons, ih]
      by_cases hkj : k = j
      · have : i ≠ j := fun hij => hk (hkj.trans hij.symm)
        rw [if_pos hkj, if_pos hkj, if_neg this]
      · rw [if_neg hkj, if_neg hkj]

theorem Memory.read_filter_ne (d : α) (m : Memory α) (i j : Nat) (h : i ≠ j) :
    Memory.read d (m.filter (fun e => e.1 ≠ i)) j = Memory.read d m j := by
  induction m with
  | nil => rfl
  | cons e m ih =>
    obtain ⟨k, w⟩ := e
    rw [List.filter_cons]
    by_cases hk : k = i
    · have hkj : k ≠ j := fun hkj => h (hk.symm.trans hkj)
      rw [if_neg (by simp [hk]), ih, Memory.read_cons, if_neg hkj]
    · rw [if_pos (by simp [hk]), Memory.read_cons, Memory.read_cons, ih]

theorem Memory.filter_ne_unlisted (m : Memory α) (i : Nat) : ∀ e ∈ m.filter (fun e => e.1 ≠ i), e.1 ≠ i := by
  intro e he
  simpa using (List.mem_filter.mp he).2

/-- A read after a write: the value written at its index, everything else as before. -/
theorem Memory.read_write [DecidableEq α] (d : α) (m : Memory α) (i j : Nat) (v : α) :
    Memory.read d (Memory.write d m i v) j = if i = j then v else Memory.read d m j := by
  unfold Memory.write
  by_cases hv : v = d
  · rw [if_pos hv]
    by_cases hij : i = j
    · subst hij
      rw [if_pos rfl, hv]
      exact Memory.read_unlisted (Memory.filter_ne_unlisted m i)
    · rw [if_neg hij]; exact Memory.read_filter_ne d m i j hij
  · rw [if_neg hv, Memory.read_insert d _ i j v (Memory.filter_ne_unlisted m i)]
    by_cases hij : i = j
    · rw [if_pos hij, if_pos hij]
    · rw [if_neg hij, if_neg hij]; exact Memory.read_filter_ne d m i j hij

theorem Memory.mem_insert {m : Memory α} {i : Nat} {v : α} {e : Nat × α} :
    e ∈ Memory.insert i v m ↔ e = (i, v) ∨ e ∈ m := by
  induction m with
  | nil => simp [Memory.insert]
  | cons x m ih =>
    obtain ⟨k, w⟩ := x
    unfold Memory.insert
    split
    · simp
    · simp only [List.mem_cons, ih]
      exact or_left_comm

/-- What a write leaves listed: the other indices as they were, and the new entry unless it is the default. -/
theorem Memory.mem_write [DecidableEq α] {d : α} {m : Memory α} {i : Nat} {v : α} {e : Nat × α} :
    e ∈ Memory.write d m i v ↔ (e = (i, v) ∧ v ≠ d) ∨ (e ∈ m ∧ e.1 ≠ i) := by
  unfold Memory.write
  by_cases hv : v = d
  · rw [if_pos hv, List.mem_filter]; simp [hv]
  · rw [if_neg hv, Memory.mem_insert, List.mem_filter]; simp [hv]

theorem Memory.insert_sorted {m : Memory α} {i : Nat} {v : α} (hm : m.Pairwise (fun x y => x.1 < y.1))
    (hi : ∀ e ∈ m, e.1 ≠ i) : (Memory.insert i v m).Pairwise (fun x y => x.1 < y.1) := by
  induction m with
  | nil => simp [Memory.insert]
  | cons x m ih =>
    obtain ⟨k, w⟩ := x
    have hk : k ≠ i := hi (k, w) (by simp)
    have hm' := List.pairwise_cons.mp hm
    unfold Memory.insert
    split
    · rename_i hik
      refine List.pairwise_cons.mpr ⟨fun e he => ?_, hm⟩
      rcases List.mem_cons.mp he with rfl | he
      · exact hik
      · exact Nat.lt_trans hik (hm'.1 e he)
    · rename_i hik
      refine List.pairwise_cons.mpr ⟨fun e he => ?_, ih hm'.2 (fun e he => hi e (by simp [he]))⟩
      rcases Memory.mem_insert.mp he with rfl | he
      · show k < i
        omega
      · exact hm'.1 e he

/-- A write keeps the canonical form. -/
theorem Memory.write_wf [DecidableEq α] {d : α} {m : Memory α} (h : Memory.wf d m) (i : Nat) (v : α) :
    Memory.wf d (Memory.write d m i v) := by
  refine ⟨?_, fun e he => ?_⟩
  · unfold Memory.write
    by_cases hv : v = d
    · rw [if_pos hv]; exact h.1.filter _
    · rw [if_neg hv]; exact Memory.insert_sorted (h.1.filter _) (Memory.filter_ne_unlisted m i)
  · rcases Memory.mem_write.mp he with ⟨rfl, hv⟩ | ⟨he, -⟩
    · exact hv
    · exact h.2 e he

/-- A write within the bound keeps every listed index below it. -/
theorem Memory.write_below [DecidableEq α] {d : α} {m : Memory α} {n i : Nat} (h : Memory.below n m) (hi : i < n)
    (v : α) : Memory.below n (Memory.write d m i v) := by
  intro e he
  rcases Memory.mem_write.mp he with ⟨rfl, -⟩ | ⟨he, -⟩
  · exact hi
  · exact h e he

/-- In canonical form an entry is listed with the value its index reads as. -/
theorem Memory.mem_iff_read {d : α} {m : Memory α} (h : Memory.wf d m) {i : Nat} {v : α} (hv : v ≠ d) :
    (i, v) ∈ m ↔ Memory.read d m i = v := by
  induction m with
  | nil => simp only [List.not_mem_nil, false_iff]; exact fun e => hv e.symm
  | cons x m ih =>
    obtain ⟨k, w⟩ := x
    have hs := List.pairwise_cons.mp h.1
    have ih := ih ⟨hs.2, fun e he => h.2 e (by simp [he])⟩
    rw [Memory.read_cons, List.mem_cons]
    by_cases hk : k = i
    · rw [if_pos hk]
      constructor
      · rintro (he | he)
        · exact (Prod.mk.inj he).2.symm
        · have := hs.1 _ he
          simp only at this
          omega
      · rintro rfl; exact .inl (by rw [hk])
    · rw [if_neg hk, ← ih]
      constructor
      · rintro (he | he)
        · exact absurd (Prod.mk.inj he).1.symm hk
        · exact he
      · exact .inr

/-- Two arrays in canonical form that read alike are equal. -/
theorem Memory.eq_of_read {d : α} {m n : Memory α} (hm : Memory.wf d m) (hn : Memory.wf d n)
    (h : ∀ i, Memory.read d m i = Memory.read d n i) : m = n := by
  induction m generalizing n with
  | nil =>
    cases n with
    | nil => rfl
    | cons y n =>
      obtain ⟨k, w⟩ := y
      have := h k
      rw [Memory.read_nil, Memory.read_cons, if_pos rfl] at this
      exact absurd this.symm (hn.2 (k, w) (by simp))
  | cons x m ih =>
    obtain ⟨k, v⟩ := x
    have hsm := List.pairwise_cons.mp hm.1
    have hkv : Memory.read d ((k, v) :: m) k = v := by rw [Memory.read_cons, if_pos rfl]
    cases n with
    | nil =>
      have := h k
      rw [hkv, Memory.read_nil] at this
      exact absurd this (hm.2 (k, v) (by simp))
    | cons y n =>
      obtain ⟨l, w⟩ := y
      have hsn := List.pairwise_cons.mp hn.1
      have hk : (k, v) ∈ (l, w) :: n := (Memory.mem_iff_read hn (hm.2 (k, v) (by simp))).mpr ((h k).symm.trans hkv)
      have hl : (l, w) ∈ (k, v) :: m := by
        refine (Memory.mem_iff_read hm (hn.2 (l, w) (by simp))).mpr ((h l).trans ?_)
        rw [Memory.read_cons, if_pos rfl]
      have hkl : k = l ∧ v = w := by
        rcases List.mem_cons.mp hk with hk | hk
        · exact Prod.mk.inj hk
        · rcases List.mem_cons.mp hl with hl | hl
          · exact ⟨(Prod.mk.inj hl).1.symm, (Prod.mk.inj hl).2.symm⟩
          · have h1 := hsn.1 _ hk
            have h2 := hsm.1 _ hl
            simp only at h1 h2
            omega
      obtain ⟨rfl, rfl⟩ := hkl
      congr 1
      refine ih ⟨hsm.2, fun e he => hm.2 e (by simp [he])⟩ ⟨hsn.2, fun e he => hn.2 e (by simp [he])⟩ (fun i => ?_)
      by_cases hi : k = i
      · subst hi
        rw [Memory.read_unlisted (fun e he => Nat.ne_of_gt (hsm.1 e he)),
          Memory.read_unlisted (fun e he => Nat.ne_of_gt (hsn.1 e he))]
      · have := h i
        rwa [Memory.read_cons, Memory.read_cons, if_neg hi, if_neg hi] at this

/-! ### Reads and writes of the block's arrays -/

@[simp] theorem State.writeFreq_freqAt (s : State) (i j : Nat) (v : Freq) :
    (s.writeFreq i v).freqAt j = if i = j then v else s.freqAt j := Memory.read_write 0#32 s.freq i j v

@[simp] theorem State.writeInq_inqAt (s : State) (i j : Nat) (b : Bool) :
    (s.writeInq i b).inqAt j = if i = j then b else s.inqAt j := Memory.read_write false s.inq i j b

@[simp] theorem State.writeNode_nodeAt (s : State) (i j : Nat) (r : NodeRec) :
    (s.writeNode i r).nodeAt j = if i = j ∧ j < s.nodeCount.toNat then some r else s.nodeAt j := by
  unfold State.nodeAt State.writeNode
  by_cases hj : j < s.nodeCount.toNat
  · simp only [hj, if_true, and_true]; exact Memory.read_write none s.node i j (some r)
  · simp only [hj, if_false, and_false]

/-- The queue lists the indices whose bit is 1. -/
theorem State.mem_queue {s : State} (h : Memory.wf false s.inq) (i : Nat) : i ∈ s.queue ↔ s.inqAt i = true := by
  unfold State.queue State.inqAt
  rw [← Memory.mem_iff_read h (by decide), List.mem_map]
  constructor
  · rintro ⟨⟨k, b⟩, he, rfl⟩
    have := List.mem_filter.mp he
    simp only at this
    rw [this.2] at this
    exact this.1
  · intro he
    exact ⟨(i, true), List.mem_filter.mpr ⟨he, rfl⟩, rfl⟩

/-- The queue lists its indices in strictly rising order, so each once. -/
theorem State.queue_sorted {s : State} (h : Memory.wf false s.inq) : s.queue.Pairwise (· < ·) := by
  unfold State.queue
  exact List.pairwise_map.mpr (h.1.filter _)

end Sys2Proof.Machine
end

