-- ==== Sys2Proof/Laws/State.lean ====
section
/-! SUPPORT. One lemma per field per update of State, true by rfl, so that no later proof unfolds a record update; and
the reads of the arrays under the updates that leave them alone. -/

namespace Sys2Proof.Machine

/-- Two states with equal fields are equal. -/
theorem State.eq_of_fields {s t : State} (h1 : s.phase = t.phase) (h2 : s.buildErr = t.buildErr)
    (h3 : s.leafCount = t.leafCount) (h4 : s.nodeCount = t.nodeCount) (h5 : s.root = t.root) (h6 : s.qCount = t.qCount)
    (h7 : s.freq = t.freq) (h8 : s.node = t.node) (h9 : s.inq = t.inq) (h10 : s.rsp = t.rsp)
    (h11 : s.schedule = t.schedule) (h12 : s.draws = t.draws) : s = t := by
  cases s; cases t
  cases h1; cases h2; cases h3; cases h4; cases h5; cases h6; cases h7; cases h8; cases h9; cases h10; cases h11; cases h12
  rfl

/-! ### setPhase -/

@[simp] theorem State.setPhase_phase (s : State) (v : Phase) : (s.setPhase v).phase = v := rfl
@[simp] theorem State.setPhase_buildErr (s : State) (v : Phase) : (s.setPhase v).buildErr = s.buildErr := rfl
@[simp] theorem State.setPhase_leafCount (s : State) (v : Phase) : (s.setPhase v).leafCount = s.leafCount := rfl
@[simp] theorem State.setPhase_nodeCount (s : State) (v : Phase) : (s.setPhase v).nodeCount = s.nodeCount := rfl
@[simp] theorem State.setPhase_root (s : State) (v : Phase) : (s.setPhase v).root = s.root := rfl
@[simp] theorem State.setPhase_qCount (s : State) (v : Phase) : (s.setPhase v).qCount = s.qCount := rfl
@[simp] theorem State.setPhase_freq (s : State) (v : Phase) : (s.setPhase v).freq = s.freq := rfl
@[simp] theorem State.setPhase_node (s : State) (v : Phase) : (s.setPhase v).node = s.node := rfl
@[simp] theorem State.setPhase_inq (s : State) (v : Phase) : (s.setPhase v).inq = s.inq := rfl
@[simp] theorem State.setPhase_rsp (s : State) (v : Phase) : (s.setPhase v).rsp = s.rsp := rfl
@[simp] theorem State.setPhase_schedule (s : State) (v : Phase) : (s.setPhase v).schedule = s.schedule := rfl
@[simp] theorem State.setPhase_draws (s : State) (v : Phase) : (s.setPhase v).draws = s.draws := rfl
@[simp] theorem State.setPhase_freqAt (s : State) (v : Phase) (i : Nat) : (s.setPhase v).freqAt i = s.freqAt i := rfl
@[simp] theorem State.setPhase_nodeAt (s : State) (v : Phase) (i : Nat) : (s.setPhase v).nodeAt i = s.nodeAt i := rfl
@[simp] theorem State.setPhase_inqAt (s : State) (v : Phase) (i : Nat) : (s.setPhase v).inqAt i = s.inqAt i := rfl
@[simp] theorem State.setPhase_queue (s : State) (v : Phase) : (s.setPhase v).queue = s.queue := rfl

/-! ### setBuildErr -/

@[simp] theorem State.setBuildErr_phase (s : State) (v : BitVec 3) : (s.setBuildErr v).phase = s.phase := rfl
@[simp] theorem State.setBuildErr_buildErr (s : State) (v : BitVec 3) : (s.setBuildErr v).buildErr = v := rfl
@[simp] theorem State.setBuildErr_leafCount (s : State) (v : BitVec 3) : (s.setBuildErr v).leafCount = s.leafCount := rfl
@[simp] theorem State.setBuildErr_nodeCount (s : State) (v : BitVec 3) : (s.setBuildErr v).nodeCount = s.nodeCount := rfl
@[simp] theorem State.setBuildErr_root (s : State) (v : BitVec 3) : (s.setBuildErr v).root = s.root := rfl
@[simp] theorem State.setBuildErr_qCount (s : State) (v : BitVec 3) : (s.setBuildErr v).qCount = s.qCount := rfl
@[simp] theorem State.setBuildErr_freq (s : State) (v : BitVec 3) : (s.setBuildErr v).freq = s.freq := rfl
@[simp] theorem State.setBuildErr_node (s : State) (v : BitVec 3) : (s.setBuildErr v).node = s.node := rfl
@[simp] theorem State.setBuildErr_inq (s : State) (v : BitVec 3) : (s.setBuildErr v).inq = s.inq := rfl
@[simp] theorem State.setBuildErr_rsp (s : State) (v : BitVec 3) : (s.setBuildErr v).rsp = s.rsp := rfl
@[simp] theorem State.setBuildErr_schedule (s : State) (v : BitVec 3) : (s.setBuildErr v).schedule = s.schedule := rfl
@[simp] theorem State.setBuildErr_draws (s : State) (v : BitVec 3) : (s.setBuildErr v).draws = s.draws := rfl
@[simp] theorem State.setBuildErr_freqAt (s : State) (v : BitVec 3) (i : Nat) : (s.setBuildErr v).freqAt i = s.freqAt i := rfl
@[simp] theorem State.setBuildErr_nodeAt (s : State) (v : BitVec 3) (i : Nat) : (s.setBuildErr v).nodeAt i = s.nodeAt i := rfl
@[simp] theorem State.setBuildErr_inqAt (s : State) (v : BitVec 3) (i : Nat) : (s.setBuildErr v).inqAt i = s.inqAt i := rfl
@[simp] theorem State.setBuildErr_queue (s : State) (v : BitVec 3) : (s.setBuildErr v).queue = s.queue := rfl

/-! ### setLeafCount -/

@[simp] theorem State.setLeafCount_phase (s : State) (v : Idx) : (s.setLeafCount v).phase = s.phase := rfl
@[simp] theorem State.setLeafCount_buildErr (s : State) (v : Idx) : (s.setLeafCount v).buildErr = s.buildErr := rfl
@[simp] theorem State.setLeafCount_leafCount (s : State) (v : Idx) : (s.setLeafCount v).leafCount = v := rfl
@[simp] theorem State.setLeafCount_nodeCount (s : State) (v : Idx) : (s.setLeafCount v).nodeCount = s.nodeCount := rfl
@[simp] theorem State.setLeafCount_root (s : State) (v : Idx) : (s.setLeafCount v).root = s.root := rfl
@[simp] theorem State.setLeafCount_qCount (s : State) (v : Idx) : (s.setLeafCount v).qCount = s.qCount := rfl
@[simp] theorem State.setLeafCount_freq (s : State) (v : Idx) : (s.setLeafCount v).freq = s.freq := rfl
@[simp] theorem State.setLeafCount_node (s : State) (v : Idx) : (s.setLeafCount v).node = s.node := rfl
@[simp] theorem State.setLeafCount_inq (s : State) (v : Idx) : (s.setLeafCount v).inq = s.inq := rfl
@[simp] theorem State.setLeafCount_rsp (s : State) (v : Idx) : (s.setLeafCount v).rsp = s.rsp := rfl
@[simp] theorem State.setLeafCount_schedule (s : State) (v : Idx) : (s.setLeafCount v).schedule = s.schedule := rfl
@[simp] theorem State.setLeafCount_draws (s : State) (v : Idx) : (s.setLeafCount v).draws = s.draws := rfl
@[simp] theorem State.setLeafCount_freqAt (s : State) (v : Idx) (i : Nat) : (s.setLeafCount v).freqAt i = s.freqAt i := rfl
@[simp] theorem State.setLeafCount_nodeAt (s : State) (v : Idx) (i : Nat) : (s.setLeafCount v).nodeAt i = s.nodeAt i := rfl
@[simp] theorem State.setLeafCount_inqAt (s : State) (v : Idx) (i : Nat) : (s.setLeafCount v).inqAt i = s.inqAt i := rfl
@[simp] theorem State.setLeafCount_queue (s : State) (v : Idx) : (s.setLeafCount v).queue = s.queue := rfl

/-! ### setNodeCount -/

@[simp] theorem State.setNodeCount_phase (s : State) (v : Idx) : (s.setNodeCount v).phase = s.phase := rfl
@[simp] theorem State.setNodeCount_buildErr (s : State) (v : Idx) : (s.setNodeCount v).buildErr = s.buildErr := rfl
@[simp] theorem State.setNodeCount_leafCount (s : State) (v : Idx) : (s.setNodeCount v).leafCount = s.leafCount := rfl
@[simp] theorem State.setNodeCount_nodeCount (s : State) (v : Idx) : (s.setNodeCount v).nodeCount = v := rfl
@[simp] theorem State.setNodeCount_root (s : State) (v : Idx) : (s.setNodeCount v).root = s.root := rfl
@[simp] theorem State.setNodeCount_qCount (s : State) (v : Idx) : (s.setNodeCount v).qCount = s.qCount := rfl
@[simp] theorem State.setNodeCount_freq (s : State) (v : Idx) : (s.setNodeCount v).freq = s.freq := rfl
@[simp] theorem State.setNodeCount_node (s : State) (v : Idx) : (s.setNodeCount v).node = s.node := rfl
@[simp] theorem State.setNodeCount_inq (s : State) (v : Idx) : (s.setNodeCount v).inq = s.inq := rfl
@[simp] theorem State.setNodeCount_rsp (s : State) (v : Idx) : (s.setNodeCount v).rsp = s.rsp := rfl
@[simp] theorem State.setNodeCount_schedule (s : State) (v : Idx) : (s.setNodeCount v).schedule = s.schedule := rfl
@[simp] theorem State.setNodeCount_draws (s : State) (v : Idx) : (s.setNodeCount v).draws = s.draws := rfl
@[simp] theorem State.setNodeCount_freqAt (s : State) (v : Idx) (i : Nat) : (s.setNodeCount v).freqAt i = s.freqAt i := rfl
@[simp] theorem State.setNodeCount_inqAt (s : State) (v : Idx) (i : Nat) : (s.setNodeCount v).inqAt i = s.inqAt i := rfl
@[simp] theorem State.setNodeCount_queue (s : State) (v : Idx) : (s.setNodeCount v).queue = s.queue := rfl

/-! ### setRoot -/

@[simp] theorem State.setRoot_phase (s : State) (v : Idx) : (s.setRoot v).phase = s.phase := rfl
@[simp] theorem State.setRoot_buildErr (s : State) (v : Idx) : (s.setRoot v).buildErr = s.buildErr := rfl
@[simp] theorem State.setRoot_leafCount (s : State) (v : Idx) : (s.setRoot v).leafCount = s.leafCount := rfl
@[simp] theorem State.setRoot_nodeCount (s : State) (v : Idx) : (s.setRoot v).nodeCount = s.nodeCount := rfl
@[simp] theorem State.setRoot_root (s : State) (v : Idx) : (s.setRoot v).root = v := rfl
@[simp] theorem State.setRoot_qCount (s : State) (v : Idx) : (s.setRoot v).qCount = s.qCount := rfl
@[simp] theorem State.setRoot_freq (s : State) (v : Idx) : (s.setRoot v).freq = s.freq := rfl
@[simp] theorem State.setRoot_node (s : State) (v : Idx) : (s.setRoot v).node = s.node := rfl
@[simp] theorem State.setRoot_inq (s : State) (v : Idx) : (s.setRoot v).inq = s.inq := rfl
@[simp] theorem State.setRoot_rsp (s : State) (v : Idx) : (s.setRoot v).rsp = s.rsp := rfl
@[simp] theorem State.setRoot_schedule (s : State) (v : Idx) : (s.setRoot v).schedule = s.schedule := rfl
@[simp] theorem State.setRoot_draws (s : State) (v : Idx) : (s.setRoot v).draws = s.draws := rfl
@[simp] theorem State.setRoot_freqAt (s : State) (v : Idx) (i : Nat) : (s.setRoot v).freqAt i = s.freqAt i := rfl
@[simp] theorem State.setRoot_nodeAt (s : State) (v : Idx) (i : Nat) : (s.setRoot v).nodeAt i = s.nodeAt i := rfl
@[simp] theorem State.setRoot_inqAt (s : State) (v : Idx) (i : Nat) : (s.setRoot v).inqAt i = s.inqAt i := rfl
@[simp] theorem State.setRoot_queue (s : State) (v : Idx) : (s.setRoot v).queue = s.queue := rfl

/-! ### setQCount -/

@[simp] theorem State.setQCount_phase (s : State) (v : Idx) : (s.setQCount v).phase = s.phase := rfl
@[simp] theorem State.setQCount_buildErr (s : State) (v : Idx) : (s.setQCount v).buildErr = s.buildErr := rfl
@[simp] theorem State.setQCount_leafCount (s : State) (v : Idx) : (s.setQCount v).leafCount = s.leafCount := rfl
@[simp] theorem State.setQCount_nodeCount (s : State) (v : Idx) : (s.setQCount v).nodeCount = s.nodeCount := rfl
@[simp] theorem State.setQCount_root (s : State) (v : Idx) : (s.setQCount v).root = s.root := rfl
@[simp] theorem State.setQCount_qCount (s : State) (v : Idx) : (s.setQCount v).qCount = v := rfl
@[simp] theorem State.setQCount_freq (s : State) (v : Idx) : (s.setQCount v).freq = s.freq := rfl
@[simp] theorem State.setQCount_node (s : State) (v : Idx) : (s.setQCount v).node = s.node := rfl
@[simp] theorem State.setQCount_inq (s : State) (v : Idx) : (s.setQCount v).inq = s.inq := rfl
@[simp] theorem State.setQCount_rsp (s : State) (v : Idx) : (s.setQCount v).rsp = s.rsp := rfl
@[simp] theorem State.setQCount_schedule (s : State) (v : Idx) : (s.setQCount v).schedule = s.schedule := rfl
@[simp] theorem State.setQCount_draws (s : State) (v : Idx) : (s.setQCount v).draws = s.draws := rfl
@[simp] theorem State.setQCount_freqAt (s : State) (v : Idx) (i : Nat) : (s.setQCount v).freqAt i = s.freqAt i := rfl
@[simp] theorem State.setQCount_nodeAt (s : State) (v : Idx) (i : Nat) : (s.setQCount v).nodeAt i = s.nodeAt i := rfl
@[simp] theorem State.setQCount_inqAt (s : State) (v : Idx) (i : Nat) : (s.setQCount v).inqAt i = s.inqAt i := rfl
@[simp] theorem State.setQCount_queue (s : State) (v : Idx) : (s.setQCount v).queue = s.queue := rfl

/-! ### respond -/

@[simp] theorem State.respond_phase (s : State) (rc : ResultCode) (d : RData) : (s.respond rc d).phase = s.phase := rfl
@[simp] theorem State.respond_buildErr (s : State) (rc : ResultCode) (d : RData) : (s.respond rc d).buildErr = s.buildErr := rfl
@[simp] theorem State.respond_leafCount (s : State) (rc : ResultCode) (d : RData) : (s.respond rc d).leafCount = s.leafCount := rfl
@[simp] theorem State.respond_nodeCount (s : State) (rc : ResultCode) (d : RData) : (s.respond rc d).nodeCount = s.nodeCount := rfl
@[simp] theorem State.respond_root (s : State) (rc : ResultCode) (d : RData) : (s.respond rc d).root = s.root := rfl
@[simp] theorem State.respond_qCount (s : State) (rc : ResultCode) (d : RData) : (s.respond rc d).qCount = s.qCount := rfl
@[simp] theorem State.respond_freq (s : State) (rc : ResultCode) (d : RData) : (s.respond rc d).freq = s.freq := rfl
@[simp] theorem State.respond_node (s : State) (rc : ResultCode) (d : RData) : (s.respond rc d).node = s.node := rfl
@[simp] theorem State.respond_inq (s : State) (rc : ResultCode) (d : RData) : (s.respond rc d).inq = s.inq := rfl
@[simp] theorem State.respond_rsp (s : State) (rc : ResultCode) (d : RData) : (s.respond rc d).rsp = some ⟨rc, d⟩ := rfl
@[simp] theorem State.respond_schedule (s : State) (rc : ResultCode) (d : RData) : (s.respond rc d).schedule = s.schedule := rfl
@[simp] theorem State.respond_draws (s : State) (rc : ResultCode) (d : RData) : (s.respond rc d).draws = s.draws := rfl
@[simp] theorem State.respond_freqAt (s : State) (rc : ResultCode) (d : RData) (i : Nat) : (s.respond rc d).freqAt i = s.freqAt i := rfl
@[simp] theorem State.respond_nodeAt (s : State) (rc : ResultCode) (d : RData) (i : Nat) : (s.respond rc d).nodeAt i = s.nodeAt i := rfl
@[simp] theorem State.respond_inqAt (s : State) (rc : ResultCode) (d : RData) (i : Nat) : (s.respond rc d).inqAt i = s.inqAt i := rfl
@[simp] theorem State.respond_queue (s : State) (rc : ResultCode) (d : RData) : (s.respond rc d).queue = s.queue := rfl

/-! ### dropRsp -/

@[simp] theorem State.dropRsp_phase (s : State) : s.dropRsp.phase = s.phase := rfl
@[simp] theorem State.dropRsp_buildErr (s : State) : s.dropRsp.buildErr = s.buildErr := rfl
@[simp] theorem State.dropRsp_leafCount (s : State) : s.dropRsp.leafCount = s.leafCount := rfl
@[simp] theorem State.dropRsp_nodeCount (s : State) : s.dropRsp.nodeCount = s.nodeCount := rfl
@[simp] theorem State.dropRsp_root (s : State) : s.dropRsp.root = s.root := rfl
@[simp] theorem State.dropRsp_qCount (s : State) : s.dropRsp.qCount = s.qCount := rfl
@[simp] theorem State.dropRsp_freq (s : State) : s.dropRsp.freq = s.freq := rfl
@[simp] theorem State.dropRsp_node (s : State) : s.dropRsp.node = s.node := rfl
@[simp] theorem State.dropRsp_inq (s : State) : s.dropRsp.inq = s.inq := rfl
@[simp] theorem State.dropRsp_rsp (s : State) : s.dropRsp.rsp = none := rfl
@[simp] theorem State.dropRsp_schedule (s : State) : s.dropRsp.schedule = s.schedule := rfl
@[simp] theorem State.dropRsp_draws (s : State) : s.dropRsp.draws = s.draws := rfl
@[simp] theorem State.dropRsp_freqAt (s : State) (i : Nat) : s.dropRsp.freqAt i = s.freqAt i := rfl
@[simp] theorem State.dropRsp_nodeAt (s : State) (i : Nat) : s.dropRsp.nodeAt i = s.nodeAt i := rfl
@[simp] theorem State.dropRsp_inqAt (s : State) (i : Nat) : s.dropRsp.inqAt i = s.inqAt i := rfl
@[simp] theorem State.dropRsp_queue (s : State) : s.dropRsp.queue = s.queue := rfl

/-! ### setSchedule -/

@[simp] theorem State.setSchedule_phase (s : State) (ms : List Move) : (s.setSchedule ms).phase = s.phase := rfl
@[simp] theorem State.setSchedule_buildErr (s : State) (ms : List Move) : (s.setSchedule ms).buildErr = s.buildErr := rfl
@[simp] theorem State.setSchedule_leafCount (s : State) (ms : List Move) : (s.setSchedule ms).leafCount = s.leafCount := rfl
@[simp] theorem State.setSchedule_nodeCount (s : State) (ms : List Move) : (s.setSchedule ms).nodeCount = s.nodeCount := rfl
@[simp] theorem State.setSchedule_root (s : State) (ms : List Move) : (s.setSchedule ms).root = s.root := rfl
@[simp] theorem State.setSchedule_qCount (s : State) (ms : List Move) : (s.setSchedule ms).qCount = s.qCount := rfl
@[simp] theorem State.setSchedule_freq (s : State) (ms : List Move) : (s.setSchedule ms).freq = s.freq := rfl
@[simp] theorem State.setSchedule_node (s : State) (ms : List Move) : (s.setSchedule ms).node = s.node := rfl
@[simp] theorem State.setSchedule_inq (s : State) (ms : List Move) : (s.setSchedule ms).inq = s.inq := rfl
@[simp] theorem State.setSchedule_rsp (s : State) (ms : List Move) : (s.setSchedule ms).rsp = s.rsp := rfl
@[simp] theorem State.setSchedule_schedule (s : State) (ms : List Move) : (s.setSchedule ms).schedule = ms := rfl
@[simp] theorem State.setSchedule_draws (s : State) (ms : List Move) : (s.setSchedule ms).draws = s.draws := rfl
@[simp] theorem State.setSchedule_freqAt (s : State) (ms : List Move) (i : Nat) : (s.setSchedule ms).freqAt i = s.freqAt i := rfl
@[simp] theorem State.setSchedule_nodeAt (s : State) (ms : List Move) (i : Nat) : (s.setSchedule ms).nodeAt i = s.nodeAt i := rfl
@[simp] theorem State.setSchedule_inqAt (s : State) (ms : List Move) (i : Nat) : (s.setSchedule ms).inqAt i = s.inqAt i := rfl
@[simp] theorem State.setSchedule_queue (s : State) (ms : List Move) : (s.setSchedule ms).queue = s.queue := rfl

/-! ### countDraw -/

@[simp] theorem State.countDraw_phase (s : State) : s.countDraw.phase = s.phase := rfl
@[simp] theorem State.countDraw_buildErr (s : State) : s.countDraw.buildErr = s.buildErr := rfl
@[simp] theorem State.countDraw_leafCount (s : State) : s.countDraw.leafCount = s.leafCount := rfl
@[simp] theorem State.countDraw_nodeCount (s : State) : s.countDraw.nodeCount = s.nodeCount := rfl
@[simp] theorem State.countDraw_root (s : State) : s.countDraw.root = s.root := rfl
@[simp] theorem State.countDraw_qCount (s : State) : s.countDraw.qCount = s.qCount := rfl
@[simp] theorem State.countDraw_freq (s : State) : s.countDraw.freq = s.freq := rfl
@[simp] theorem State.countDraw_node (s : State) : s.countDraw.node = s.node := rfl
@[simp] theorem State.countDraw_inq (s : State) : s.countDraw.inq = s.inq := rfl
@[simp] theorem State.countDraw_rsp (s : State) : s.countDraw.rsp = s.rsp := rfl
@[simp] theorem State.countDraw_schedule (s : State) : s.countDraw.schedule = s.schedule := rfl
@[simp] theorem State.countDraw_draws (s : State) : s.countDraw.draws = s.draws + 1 := rfl
@[simp] theorem State.countDraw_freqAt (s : State) (i : Nat) : s.countDraw.freqAt i = s.freqAt i := rfl
@[simp] theorem State.countDraw_nodeAt (s : State) (i : Nat) : s.countDraw.nodeAt i = s.nodeAt i := rfl
@[simp] theorem State.countDraw_inqAt (s : State) (i : Nat) : s.countDraw.inqAt i = s.inqAt i := rfl
@[simp] theorem State.countDraw_queue (s : State) : s.countDraw.queue = s.queue := rfl

/-! ### writeFreq -/

@[simp] theorem State.writeFreq_phase (s : State) (k : Nat) (v : Freq) : (s.writeFreq k v).phase = s.phase := rfl
@[simp] theorem State.writeFreq_buildErr (s : State) (k : Nat) (v : Freq) : (s.writeFreq k v).buildErr = s.buildErr := rfl
@[simp] theorem State.writeFreq_leafCount (s : State) (k : Nat) (v : Freq) : (s.writeFreq k v).leafCount = s.leafCount := rfl
@[simp] theorem State.writeFreq_nodeCount (s : State) (k : Nat) (v : Freq) : (s.writeFreq k v).nodeCount = s.nodeCount := rfl
@[simp] theorem State.writeFreq_root (s : State) (k : Nat) (v : Freq) : (s.writeFreq k v).root = s.root := rfl
@[simp] theorem State.writeFreq_qCount (s : State) (k : Nat) (v : Freq) : (s.writeFreq k v).qCount = s.qCount := rfl
@[simp] theorem State.writeFreq_freq (s : State) (k : Nat) (v : Freq) : (s.writeFreq k v).freq = Memory.write 0#32 s.freq k v := rfl
@[simp] theorem State.writeFreq_node (s : State) (k : Nat) (v : Freq) : (s.writeFreq k v).node = s.node := rfl
@[simp] theorem State.writeFreq_inq (s : State) (k : Nat) (v : Freq) : (s.writeFreq k v).inq = s.inq := rfl
@[simp] theorem State.writeFreq_rsp (s : State) (k : Nat) (v : Freq) : (s.writeFreq k v).rsp = s.rsp := rfl
@[simp] theorem State.writeFreq_schedule (s : State) (k : Nat) (v : Freq) : (s.writeFreq k v).schedule = s.schedule := rfl
@[simp] theorem State.writeFreq_draws (s : State) (k : Nat) (v : Freq) : (s.writeFreq k v).draws = s.draws := rfl
@[simp] theorem State.writeFreq_nodeAt (s : State) (k : Nat) (v : Freq) (i : Nat) : (s.writeFreq k v).nodeAt i = s.nodeAt i := rfl
@[simp] theorem State.writeFreq_inqAt (s : State) (k : Nat) (v : Freq) (i : Nat) : (s.writeFreq k v).inqAt i = s.inqAt i := rfl
@[simp] theorem State.writeFreq_queue (s : State) (k : Nat) (v : Freq) : (s.writeFreq k v).queue = s.queue := rfl

/-! ### writeNode -/

@[simp] theorem State.writeNode_phase (s : State) (k : Nat) (r : NodeRec) : (s.writeNode k r).phase = s.phase := rfl
@[simp] theorem State.writeNode_buildErr (s : State) (k : Nat) (r : NodeRec) : (s.writeNode k r).buildErr = s.buildErr := rfl
@[simp] theorem State.writeNode_leafCount (s : State) (k : Nat) (r : NodeRec) : (s.writeNode k r).leafCount = s.leafCount := rfl
@[simp] theorem State.writeNode_nodeCount (s : State) (k : Nat) (r : NodeRec) : (s.writeNode k r).nodeCount = s.nodeCount := rfl
@[simp] theorem State.writeNode_root (s : State) (k : Nat) (r : NodeRec) : (s.writeNode k r).root = s.root := rfl
@[simp] theorem State.writeNode_qCount (s : State) (k : Nat) (r : NodeRec) : (s.writeNode k r).qCount = s.qCount := rfl
@[simp] theorem State.writeNode_freq (s : State) (k : Nat) (r : NodeRec) : (s.writeNode k r).freq = s.freq := rfl
@[simp] theorem State.writeNode_node (s : State) (k : Nat) (r : NodeRec) : (s.writeNode k r).node = Memory.write none s.node k (some r) := rfl
@[simp] theorem State.writeNode_inq (s : State) (k : Nat) (r : NodeRec) : (s.writeNode k r).inq = s.inq := rfl
@[simp] theorem State.writeNode_rsp (s : State) (k : Nat) (r : NodeRec) : (s.writeNode k r).rsp = s.rsp := rfl
@[simp] theorem State.writeNode_schedule (s : State) (k : Nat) (r : NodeRec) : (s.writeNode k r).schedule = s.schedule := rfl
@[simp] theorem State.writeNode_draws (s : State) (k : Nat) (r : NodeRec) : (s.writeNode k r).draws = s.draws := rfl
@[simp] theorem State.writeNode_freqAt (s : State) (k : Nat) (r : NodeRec) (i : Nat) : (s.writeNode k r).freqAt i = s.freqAt i := rfl
@[simp] theorem State.writeNode_inqAt (s : State) (k : Nat) (r : NodeRec) (i : Nat) : (s.writeNode k r).inqAt i = s.inqAt i := rfl
@[simp] theorem State.writeNode_queue (s : State) (k : Nat) (r : NodeRec) : (s.writeNode k r).queue = s.queue := rfl

/-! ### writeInq -/

@[simp] theorem State.writeInq_phase (s : State) (k : Nat) (b : Bool) : (s.writeInq k b).phase = s.phase := rfl
@[simp] theorem State.writeInq_buildErr (s : State) (k : Nat) (b : Bool) : (s.writeInq k b).buildErr = s.buildErr := rfl
@[simp] theorem State.writeInq_leafCount (s : State) (k : Nat) (b : Bool) : (s.writeInq k b).leafCount = s.leafCount := rfl
@[simp] theorem State.writeInq_nodeCount (s : State) (k : Nat) (b : Bool) : (s.writeInq k b).nodeCount = s.nodeCount := rfl
@[simp] theorem State.writeInq_root (s : State) (k : Nat) (b : Bool) : (s.writeInq k b).root = s.root := rfl
@[simp] theorem State.writeInq_qCount (s : State) (k : Nat) (b : Bool) : (s.writeInq k b).qCount = s.qCount := rfl
@[simp] theorem State.writeInq_freq (s : State) (k : Nat) (b : Bool) : (s.writeInq k b).freq = s.freq := rfl
@[simp] theorem State.writeInq_node (s : State) (k : Nat) (b : Bool) : (s.writeInq k b).node = s.node := rfl
@[simp] theorem State.writeInq_inq (s : State) (k : Nat) (b : Bool) : (s.writeInq k b).inq = Memory.write false s.inq k b := rfl
@[simp] theorem State.writeInq_rsp (s : State) (k : Nat) (b : Bool) : (s.writeInq k b).rsp = s.rsp := rfl
@[simp] theorem State.writeInq_schedule (s : State) (k : Nat) (b : Bool) : (s.writeInq k b).schedule = s.schedule := rfl
@[simp] theorem State.writeInq_draws (s : State) (k : Nat) (b : Bool) : (s.writeInq k b).draws = s.draws := rfl
@[simp] theorem State.writeInq_freqAt (s : State) (k : Nat) (b : Bool) (i : Nat) : (s.writeInq k b).freqAt i = s.freqAt i := rfl
@[simp] theorem State.writeInq_nodeAt (s : State) (k : Nat) (b : Bool) (i : Nat) : (s.writeInq k b).nodeAt i = s.nodeAt i := rfl

/-! ### clearBlock -/

@[simp] theorem State.clearBlock_phase (s : State) : s.clearBlock.phase = .load := rfl
@[simp] theorem State.clearBlock_buildErr (s : State) : s.clearBlock.buildErr = 0#3 := rfl
@[simp] theorem State.clearBlock_leafCount (s : State) : s.clearBlock.leafCount = 0#9 := rfl
@[simp] theorem State.clearBlock_nodeCount (s : State) : s.clearBlock.nodeCount = 0#9 := rfl
@[simp] theorem State.clearBlock_root (s : State) : s.clearBlock.root = 0#9 := rfl
@[simp] theorem State.clearBlock_qCount (s : State) : s.clearBlock.qCount = 0#9 := rfl
@[simp] theorem State.clearBlock_freq (s : State) : s.clearBlock.freq = [] := rfl
@[simp] theorem State.clearBlock_node (s : State) : s.clearBlock.node = [] := rfl
@[simp] theorem State.clearBlock_inq (s : State) : s.clearBlock.inq = [] := rfl
@[simp] theorem State.clearBlock_rsp (s : State) : s.clearBlock.rsp = s.rsp := rfl
@[simp] theorem State.clearBlock_schedule (s : State) : s.clearBlock.schedule = s.schedule := rfl
@[simp] theorem State.clearBlock_draws (s : State) : s.clearBlock.draws = s.draws := rfl
@[simp] theorem State.clearBlock_freqAt (s : State) (i : Nat) : s.clearBlock.freqAt i = 0#32 := rfl
@[simp] theorem State.clearBlock_nodeAt (s : State) (i : Nat) : s.clearBlock.nodeAt i = none := rfl
@[simp] theorem State.clearBlock_inqAt (s : State) (i : Nat) : s.clearBlock.inqAt i = false := rfl
@[simp] theorem State.clearBlock_queue (s : State) : s.clearBlock.queue = [] := rfl

/-! ### resetBlock -/

@[simp] theorem State.resetBlock_phase (s : State) : s.resetBlock.phase = .load := rfl
@[simp] theorem State.resetBlock_buildErr (s : State) : s.resetBlock.buildErr = 0#3 := rfl
@[simp] theorem State.resetBlock_leafCount (s : State) : s.resetBlock.leafCount = 0#9 := rfl
@[simp] theorem State.resetBlock_nodeCount (s : State) : s.resetBlock.nodeCount = 0#9 := rfl
@[simp] theorem State.resetBlock_root (s : State) : s.resetBlock.root = 0#9 := rfl
@[simp] theorem State.resetBlock_qCount (s : State) : s.resetBlock.qCount = 0#9 := rfl
@[simp] theorem State.resetBlock_freq (s : State) : s.resetBlock.freq = [] := rfl
@[simp] theorem State.resetBlock_node (s : State) : s.resetBlock.node = [] := rfl
@[simp] theorem State.resetBlock_inq (s : State) : s.resetBlock.inq = [] := rfl
@[simp] theorem State.resetBlock_rsp (s : State) : s.resetBlock.rsp = none := rfl
@[simp] theorem State.resetBlock_schedule (s : State) : s.resetBlock.schedule = s.schedule := rfl
@[simp] theorem State.resetBlock_draws (s : State) : s.resetBlock.draws = s.draws := rfl
@[simp] theorem State.resetBlock_freqAt (s : State) (i : Nat) : s.resetBlock.freqAt i = 0#32 := rfl
@[simp] theorem State.resetBlock_nodeAt (s : State) (i : Nat) : s.resetBlock.nodeAt i = none := rfl
@[simp] theorem State.resetBlock_inqAt (s : State) (i : Nat) : s.resetBlock.inqAt i = false := rfl
@[simp] theorem State.resetBlock_queue (s : State) : s.resetBlock.queue = [] := rfl

end Sys2Proof.Machine
end

