-- ==== Sys2Proof/Laws/Ops.lean ====
section
/-! SUPPORT. One lemma per shared operation outside the engine: the operand checks, what a command can do to the state,
BUILD's loop, and what a step can be. -/

namespace Sys2Proof.Machine

theorem symOutOfRange_iff (sym : Idx) : symOutOfRange sym = true ↔ 255 < sym.toNat := by
  unfold symOutOfRange
  rw [decide_eq_true_iff, BitVec.lt_def]
  rfl

theorem idxOutOfRange_iff (s : State) (idx : Idx) : idxOutOfRange s idx = true ↔ s.nodeCount.toNat ≤ idx.toNat := by
  unfold idxOutOfRange
  rw [decide_eq_true_iff, BitVec.le_def]

theorem State.nodeAt_of_lt {s : State} {i : Nat} (h : i < s.nodeCount.toNat) :
    s.nodeAt i = Memory.read none s.node i := if_pos h

theorem State.nodeAt_of_ge {s : State} {i : Nat} (h : s.nodeCount.toNat ≤ i) : s.nodeAt i = none :=
  if_neg (Nat.not_lt.mpr h)

theorem State.lt_of_nodeAt {s : State} {i : Nat} {r : NodeRec} (h : s.nodeAt i = some r) : i < s.nodeCount.toNat := by
  by_cases hi : i < s.nodeCount.toNat
  · exact hi
  · rw [State.nodeAt_of_ge (Nat.not_lt.mp hi)] at h; cases h

/-! ### The symbols present -/

theorem State.mem_symbols (s : State) (v : Nat) : v ∈ s.symbols ↔ v < 256 ∧ s.freqAt v ≠ 0#32 := by
  simp [State.symbols]

theorem State.symbols_sorted (s : State) : s.symbols.Pairwise (· < ·) := List.pairwise_lt_range.filter _

theorem State.symbols_length_le (s : State) : s.symbols.length ≤ 256 :=
  Nat.le_trans (List.length_filter_le _ _) (by simp)

/-- `symbols` depends on FREQ alone. -/
theorem State.symbols_congr {s t : State} (h : ∀ v, v < 256 → t.freqAt v = s.freqAt v) : t.symbols = s.symbols := by
  unfold State.symbols
  refine List.filter_congr (fun v hv => ?_)
  rw [h v (List.mem_range.mp hv)]

/-! ### BUILD's loop -/

/-- BUILD's loop writes NODE and INQ only. -/
theorem placeLeaves_frame (s : State) (k : Nat) (vs : List Nat) :
    placeLeaves s k vs = { s with node := (placeLeaves s k vs).node, inq := (placeLeaves s k vs).inq } := by
  induction vs generalizing s k with
  | nil => rfl
  | cons v vs ih =>
    unfold placeLeaves
    exact ih ((s.writeNode k (leafRec v (s.freqAt v))).writeInq k true) (k + 1)

@[simp] theorem placeLeaves_freqAt (s : State) (k : Nat) (vs : List Nat) (v : Nat) :
    (placeLeaves s k vs).freqAt v = s.freqAt v := by
  rw [placeLeaves_frame]; rfl

@[simp] theorem placeLeaves_nodeCount (s : State) (k : Nat) (vs : List Nat) :
    (placeLeaves s k vs).nodeCount = s.nodeCount := by
  rw [placeLeaves_frame]

/-- BUILD's loop puts the j-th symbol's Leaf at index k + j and leaves every other record alone. -/
theorem placeLeaves_node (s : State) (k : Nat) (vs : List Nat) (i : Nat) :
    Memory.read none (placeLeaves s k vs).node i =
      if h : k ≤ i ∧ i < k + vs.length then
        some (leafRec (vs[i - k]'(by omega)) (s.freqAt (vs[i - k]'(by omega))))
      else Memory.read none s.node i := by
  induction vs generalizing s k with
  | nil =>
    rw [dif_neg (by simp only [List.length_nil]; omega)]
    rfl
  | cons v vs ih =>
    unfold placeLeaves
    rw [ih]
    by_cases hk : i = k
    · subst hk
      rw [dif_neg (by omega), dif_pos (by simp)]
      simp only [State.writeInq_node, State.writeNode_node, Nat.sub_self, List.getElem_cons_zero]
      rw [Memory.read_write, if_pos rfl]
    · by_cases hr : k + 1 ≤ i ∧ i < k + 1 + vs.length
      · rw [dif_pos hr, dif_pos (by simp only [List.length_cons]; omega)]
        obtain ⟨j, rfl⟩ : ∃ j, i = k + 1 + j := ⟨i - (k + 1), by omega⟩
        have h1 : k + 1 + j - k = j + 1 := by omega
        have h2 : k + 1 + j - (k + 1) = j := by omega
        simp only [h1, h2, List.getElem_cons_succ, State.writeInq_freqAt, State.writeNode_freqAt]
      · rw [dif_neg hr, dif_neg (by simp only [List.length_cons]; omega)]
        simp only [State.writeInq_node, State.writeNode_node]
        rw [Memory.read_write, if_neg (fun h => hk h.symm)]

/-- BUILD's loop sets the queue bits k, …, k + length - 1 and leaves every other bit alone. -/
theorem placeLeaves_inqAt (s : State) (k : Nat) (vs : List Nat) (i : Nat) :
    (placeLeaves s k vs).inqAt i = if k ≤ i ∧ i < k + vs.length then true else s.inqAt i := by
  induction vs generalizing s k with
  | nil =>
    rw [if_neg (by simp only [List.length_nil]; omega)]
    rfl
  | cons v vs ih =>
    unfold placeLeaves
    rw [ih, State.writeInq_inqAt, State.writeNode_inqAt]
    simp only [List.length_cons]
    by_cases hk : k = i
    · subst hk
      rw [if_pos rfl, if_neg (by omega), if_pos (by omega)]
    · rw [if_neg hk]
      by_cases hr : k + 1 ≤ i ∧ i < k + 1 + vs.length
      · rw [if_pos hr, if_pos (by omega)]
      · rw [if_neg hr, if_neg (by omega)]

/-- BUILD's loop keeps the canonical forms and the index bounds. -/
theorem placeLeaves_stored (s : State) (k : Nat) (vs : List Nat) {n m : Nat} (hn : k + vs.length ≤ n)
    (hm : k + vs.length ≤ m) (h1 : Memory.wf none s.node) (h2 : Memory.below n s.node) (h3 : Memory.wf false s.inq)
    (h4 : Memory.below m s.inq) :
    Memory.wf none (placeLeaves s k vs).node ∧ Memory.below n (placeLeaves s k vs).node ∧
    Memory.wf false (placeLeaves s k vs).inq ∧ Memory.below m (placeLeaves s k vs).inq := by
  induction vs generalizing s k with
  | nil => exact ⟨h1, h2, h3, h4⟩
  | cons v vs ih =>
    simp only [List.length_cons] at hn hm
    have hk : k < n := by omega
    have hk' : k < m := by omega
    exact ih ((s.writeNode k (leafRec v (s.freqAt v))).writeInq k true) (k + 1) (by omega) (by omega)
      (Memory.write_wf h1 k (some (leafRec v (s.freqAt v))))
      (Memory.write_below (d := none) h2 hk (some (leafRec v (s.freqAt v)))) (Memory.write_wf h3 k true) 
      (Memory.write_below (d := false) h4 hk' true)

/-! ### What a command can do -/

/-- Everything a command can do when it answers a next state: it offers one response, leaves the schedule and the free
choices alone, and its effect on the block is that of FREQ_WR or FREQ_INC (one FREQ entry), of BUILD, of CLEAR, of
entering FAIL, or none. -/
theorem exec_cases {i : Instr} {s t : State} (h : exec i s = .next t) :
    ∃ rc d,
      t = s.respond rc d ∨
      (s.phase = .load ∧ rc = .ok ∧ d = 0#64 ∧ ∃ sym v, sym < 256 ∧ t = (s.writeFreq sym v).respond rc d) ∨
      (i = .build ∧ s.phase = .load ∧ s.symbols = [] ∧ rc = .emptyInput ∧ d = 0#64 ∧
        t = ((s.setPhase .fail).setBuildErr 1#3).respond rc d) ∨
      (i = .build ∧ s.phase = .load ∧ s.symbols ≠ [] ∧ rc = .ok ∧ d = 0#64 ∧
        t = (startBuild (BitVec.ofNat 9 s.symbols.length) (placeLeaves s 0 s.symbols)).respond rc d) ∨
      (i = .clear ∧ rc = .ok ∧ d = 0#64 ∧ t = s.clearBlock.respond rc d) := by
  cases i with
  | nop => exact ⟨_, _, .inl (Host.Outcome.next.inj h).symm⟩
  | clear => exact ⟨_, _, .inr (.inr (.inr (.inr ⟨rfl, rfl, rfl, (Host.Outcome.next.inj h).symm⟩)))⟩
  | statusRd => exact ⟨_, _, .inl (Host.Outcome.next.inj h).symm⟩
  | freqWr sym value =>
    change execFreqWr sym value s = _ at h
    unfold execFreqWr raise at h
    split at h
    · exact ⟨_, _, .inl (Host.Outcome.next.inj h).symm⟩
    · rename_i hp
      split at h
      · exact ⟨_, _, .inl (Host.Outcome.next.inj h).symm⟩
      · rename_i hs
        rw [symOutOfRange_iff] at hs
        exact ⟨_, _, .inr (.inl ⟨Decidable.not_not.mp hp, rfl, rfl, sym.toNat, value, by omega,
          (Host.Outcome.next.inj h).symm⟩)⟩
  | freqInc sym =>
    change execFreqInc sym s = _ at h
    unfold execFreqInc raise at h
    split at h
    · exact ⟨_, _, .inl (Host.Outcome.next.inj h).symm⟩
    · rename_i hp
      split at h
      · exact ⟨_, _, .inl (Host.Outcome.next.inj h).symm⟩
      · rename_i hs
        rw [symOutOfRange_iff] at hs
        split at h
        · exact ⟨_, _, .inl (Host.Outcome.next.inj h).symm⟩
        · exact ⟨_, _, .inr (.inl ⟨Decidable.not_not.mp hp, rfl, rfl, sym.toNat, _, by omega,
            (Host.Outcome.next.inj h).symm⟩)⟩
  | freqRd sym =>
    change execFreqRd sym s = _ at h
    unfold execFreqRd raise at h
    split at h <;> exact ⟨_, _, .inl (Host.Outcome.next.inj h).symm⟩
  | build =>
    change execBuild s = _ at h
    unfold execBuild raise enterFail at h
    split at h
    · exact ⟨_, _, .inl (Host.Outcome.next.inj h).symm⟩
    · rename_i hp
      split at h
      · rename_i hs
        exact ⟨_, _, .inr (.inr (.inl ⟨rfl, Decidable.not_not.mp hp, hs, rfl, rfl, (Host.Outcome.next.inj h).symm⟩))⟩
      · rename_i hs
        exact ⟨_, _, .inr (.inr (.inr (.inl ⟨rfl, Decidable.not_not.mp hp, hs, rfl, rfl,
          (Host.Outcome.next.inj h).symm⟩)))⟩
  | nodeRd idx =>
    change execNodeRd idx s = _ at h
    unfold execNodeRd raise at h
    split at h
    · exact ⟨_, _, .inl (Host.Outcome.next.inj h).symm⟩
    · split at h
      · exact ⟨_, _, .inl (Host.Outcome.next.inj h).symm⟩
      · split at h
        · cases h
        · exact ⟨_, _, .inl (Host.Outcome.next.inj h).symm⟩

/-- A command either answers a next state or is NODE_RD of an absent record. -/
theorem exec_total (i : Instr) (s : State) :
    (∃ t, exec i s = .next t) ∨
    (∃ idx, i = .nodeRd idx ∧ s.phase = .done ∧ idx.toNat < s.nodeCount.toNat ∧ s.nodeAt idx.toNat = none ∧
      exec i s = .fault .absentNode) := by
  cases i with
  | nop => exact .inl ⟨_, rfl⟩
  | clear => exact .inl ⟨_, rfl⟩
  | statusRd => exact .inl ⟨_, rfl⟩
  | freqWr sym value => simp only [exec, execFreqWr, raise]; split <;> (try split) <;> exact .inl ⟨_, rfl⟩
  | freqInc sym => simp only [exec, execFreqInc, raise]; split <;> (try split) <;> (try split) <;> exact .inl ⟨_, rfl⟩
  | freqRd sym => simp only [exec, execFreqRd, raise]; split <;> exact .inl ⟨_, rfl⟩
  | build => simp only [exec, execBuild, raise, enterFail]; split <;> (try split) <;> exact .inl ⟨_, rfl⟩
  | nodeRd idx =>
    change (∃ t, execNodeRd idx s = .next t) ∨ (∃ j, _ ∧ _ ∧ _ ∧ _ ∧ execNodeRd idx s = .fault .absentNode)
    unfold execNodeRd raise
    by_cases hp : s.phase = .done
    · rw [if_neg (not_not_intro hp)]
      by_cases hi : idxOutOfRange s idx = true
      · rw [if_pos hi]; exact .inl ⟨_, rfl⟩
      · rw [if_neg hi]
        rw [idxOutOfRange_iff] at hi
        cases hn : s.nodeAt idx.toNat with
        | none => exact .inr ⟨idx, rfl, hp, by omega, hn, rfl⟩
        | some r => exact .inl ⟨_, rfl⟩
    · rw [if_pos hp]; exact .inl ⟨_, rfl⟩

/-- What a step is, by the head of the schedule. -/
theorem stepWith_cases (p : TiePolicy) (s : State) :
    (s.schedule = [] ∧ stepWith p s = engineStep p s) ∨
    (∃ ms, s.schedule = .engineTurn :: ms ∧ stepWith p s = engineStep p (s.setSchedule ms)) ∨
    (∃ ms, s.schedule = .takeRsp :: ms ∧ stepWith p s = .next (s.setSchedule ms).dropRsp) ∨
    (∃ ms, s.schedule = .assertRst :: ms ∧ stepWith p s = .next (s.setSchedule ms).resetBlock) ∨
    (∃ w ms, s.schedule = .sendCmd w :: ms ∧ s.rsp = none ∧ stepWith p s = performWord w (s.setSchedule ms)) ∨
    (∃ w ms r, s.schedule = .sendCmd w :: ms ∧ s.rsp = some r ∧ stepWith p s = .next s.dropRsp) := by
  unfold stepWith State.cmdReady
  cases hs : s.schedule with
  | nil => exact .inl ⟨rfl, rfl⟩
  | cons m ms =>
    cases m with
    | engineTurn => exact .inr (.inl ⟨ms, rfl, rfl⟩)
    | takeRsp => exact .inr (.inr (.inl ⟨ms, rfl, rfl⟩))
    | assertRst => exact .inr (.inr (.inr (.inl ⟨ms, rfl, rfl⟩)))
    | sendCmd w =>
      cases hr : s.rsp with
      | none => exact .inr (.inr (.inr (.inr (.inl ⟨w, ms, rfl, rfl, rfl⟩))))
      | some r => exact .inr (.inr (.inr (.inr (.inr ⟨w, ms, r, rfl, rfl, rfl⟩))))

end Sys2Proof.Machine
end

