-- ==== Sys2Proof/Laws/Engine.lean ====
section
/-! SUPPORT. One lemma per operation of the merge engine: weighing the queue, selecting under either policy, the writes of
a MERGE, and when a MERGE answers a next state. -/

namespace Sys2Proof.Machine

/-- The weighted entry of node i when its record is r. -/
theorem weigh_eq_some {s : State} {is : List Nat} {es : List Entry} (h : weigh s is = some es) :
    es.map (·.idx) = is ∧ ∀ e ∈ es, ∃ r, s.nodeAt e.idx = some r ∧ e.weight = r.weight := by
  induction is generalizing es with
  | nil =>
    cases (Option.some.inj h)
    exact ⟨rfl, by simp⟩
  | cons i is ih =>
    unfold weigh at h
    split at h
    · rename_i r es' hn hw
      cases Option.some.inj h
      obtain ⟨h1, h2⟩ := ih hw
      refine ⟨by simp [h1], fun e he => ?_⟩
      rcases List.mem_cons.mp he with rfl | he
      · exact ⟨r, hn, rfl⟩
      · exact h2 e he
    · cases h

/-- Weighing succeeds when every node in the list holds a record. -/
theorem weigh_isSome {s : State} {is : List Nat} (h : ∀ i ∈ is, (s.nodeAt i).isSome = true) : ∃ es, weigh s is = some es := by
  induction is with
  | nil => exact ⟨[], rfl⟩
  | cons i is ih =>
    obtain ⟨es, hes⟩ := ih (fun j hj => h j (by simp [hj]))
    obtain ⟨r, hr⟩ := Option.isSome_iff_exists.mp (h i (by simp))
    exact ⟨⟨i, r.weight⟩ :: es, by simp [weigh, hr, hes]⟩

/-- Weighing looks at the records only through `nodeAt`. -/
theorem weigh_congr {s t : State} (h : ∀ i, t.nodeAt i = s.nodeAt i) (is : List Nat) : weigh t is = weigh s is := by
  induction is with
  | nil => rfl
  | cons i is ih => simp only [weigh, h, ih]

/-! ### Keys -/

/-- In a list whose indices differ, an entry is known by its index. -/
theorem Entry.eq_of_idx {es : List Entry} (hd : (es.map (·.idx)).Nodup) {x y : Entry} (hx : x ∈ es) (hy : y ∈ es)
    (h : x.idx = y.idx) : x = y := by
  induction es with
  | nil => cases hx
  | cons e es ih =>
    have hd' := List.nodup_cons.mp hd
    rcases List.mem_cons.mp hx with hxe | hx'
    · rcases List.mem_cons.mp hy with hye | hy'
      · rw [hxe, hye]
      · exact absurd (List.mem_map.mpr ⟨y, hy', by rw [← h, hxe]⟩) hd'.1
    · rcases List.mem_cons.mp hy with hye | hy'
      · exact absurd (List.mem_map.mpr ⟨x, hx', by rw [h, hye]⟩) hd'.1
      · exact ih hd'.2 hx' hy'

theorem keyLt_iff (x y : Entry) :
    keyLt x y = true ↔ x.weight.toNat < y.weight.toNat ∨ (x.weight.toNat = y.weight.toNat ∧ x.idx < y.idx) := by
  unfold keyLt
  simp only [Bool.or_eq_true, Bool.and_eq_true, decide_eq_true_iff, BitVec.lt_def, BitVec.toNat_inj]

/-- `SelectMin` answers a member whose key is smaller than that of every member with another index. -/
theorem selectMin_spec {es : List Entry} {a : Entry} (h : selectMin es = some a)
    (hd : (es.map (·.idx)).Nodup) : a ∈ es ∧ ∀ x ∈ es, x.idx ≠ a.idx → keyLt a x = true := by
  induction es generalizing a with
  | nil => cases h
  | cons e es ih =>
    have hd' := List.nodup_cons.mp hd
    unfold selectMin at h
    split at h
    · rename_i hn
      have hes : es = [] := by
        cases es with
        | nil => rfl
        | cons y ys => unfold selectMin at hn; split at hn <;> (try split at hn) <;> cases hn
      cases Option.some.inj h
      subst hes
      exact ⟨by simp, fun x hx hne => absurd (by simpa using congrArg Entry.idx (List.mem_singleton.mp hx)) hne⟩
    · rename_i y hy
      obtain ⟨hmem, hmin⟩ := ih hy hd'.2
      have hne : e.idx ≠ y.idx := fun he => hd'.1 (List.mem_map.mpr ⟨y, hmem, he.symm⟩)
      split at h
      · rename_i hk
        cases Option.some.inj h
        refine ⟨by simp, fun x hx hxe => ?_⟩
        rcases List.mem_cons.mp hx with rfl | hx
        · exact absurd rfl hxe
        · by_cases hxy : x.idx = y.idx
          · rw [Entry.eq_of_idx hd'.2 hx hmem hxy]; exact hk
          · have := hmin x hx hxy
            rw [keyLt_iff] at *
            omega
      · rename_i hk
        cases Option.some.inj h
        refine ⟨by simp [hmem], fun x hx hxe => ?_⟩
        rcases List.mem_cons.mp hx with rfl | hx
        · rw [keyLt_iff] at *
          omega
        · exact hmin x hx hxe

theorem selectMin_isSome {es : List Entry} (h : es ≠ []) : ∃ a, selectMin es = some a := by
  cases es with
  | nil => exact absurd rfl h
  | cons e es =>
    unfold selectMin
    cases selectMin es with
    | none => exact ⟨e, rfl⟩
    | some y => exact ⟨if keyLt e y then e else y, by by_cases hk : keyLt e y = true <;> simp [hk]⟩

theorem mem_minWeightEntries {es : List Entry} {e : Entry} :
    e ∈ minWeightEntries es ↔ e ∈ es ∧ ∀ x ∈ es, e.weight.toNat ≤ x.weight.toNat := by
  simp only [minWeightEntries, List.mem_filter, List.all_eq_true, decide_eq_true_iff, BitVec.le_def]

theorem minWeightEntries_ne_nil {es : List Entry} (h : es ≠ []) : minWeightEntries es ≠ [] := by
  have : ∃ e ∈ es, ∀ x ∈ es, e.weight.toNat ≤ x.weight.toNat := by
    induction es with
    | nil => exact absurd rfl h
    | cons e es ih =>
      by_cases hes : es = []
      · subst hes; exact ⟨e, by simp, by simp⟩
      · obtain ⟨m, hm, hmin⟩ := ih hes
        by_cases hle : e.weight.toNat ≤ m.weight.toNat
        · refine ⟨e, by simp, fun x hx => ?_⟩
          rcases List.mem_cons.mp hx with rfl | hx
          · exact Nat.le_refl _
          · exact Nat.le_trans hle (hmin x hx)
        · refine ⟨m, by simp [hm], fun x hx => ?_⟩
          rcases List.mem_cons.mp hx with rfl | hx
          · omega
          · exact hmin x hx
  obtain ⟨e, he, hmin⟩ := this
  exact List.ne_nil_of_mem (mem_minWeightEntries.mpr ⟨he, hmin⟩)

/-- The free pick answers exactly the entries of minimum weight, each for some free number. -/
theorem pickMin_iff {es : List Entry} {a : Entry} :
    (∃ k, pickMin k es = some a) ↔ a ∈ es ∧ ∀ x ∈ es, a.weight.toNat ≤ x.weight.toNat := by
  rw [← mem_minWeightEntries]
  unfold pickMin
  constructor
  · rintro ⟨k, hk⟩; exact List.mem_of_getElem? hk
  · intro ha
    obtain ⟨k, hk, rfl⟩ := List.mem_iff_getElem.mp ha
    exact ⟨k, by rw [Nat.mod_eq_of_lt hk, List.getElem?_eq_getElem hk]⟩

theorem pickMin_isSome {es : List Entry} (h : es ≠ []) (k : Nat) : ∃ a, pickMin k es = some a := by
  have hpos := List.length_pos_iff.mpr (minWeightEntries_ne_nil h)
  have hlt := Nat.mod_lt k hpos
  exact ⟨_, by unfold pickMin; exact List.getElem?_eq_getElem hlt⟩

theorem mem_without {a e : Entry} {es : List Entry} : e ∈ without a es ↔ e ∈ es ∧ e.idx ≠ a.idx := by
  simp [without]

/-- What any selection answers: two different members, one of least weight, the other of least weight among the rest;
the children are these two in one of the two orders. -/
theorem selectPair_spec {p : TiePolicy} {pick : TiePick} {es : List Entry} {l r : Entry}
    (h : selectPair p pick es = some (l, r)) (hd : (es.map (·.idx)).Nodup) :
    ∃ a b, ((l = a ∧ r = b) ∨ (p = .anyMin ∧ l = b ∧ r = a)) ∧ a ∈ es ∧ b ∈ es ∧ a.idx ≠ b.idx ∧
      (∀ x ∈ es, a.weight.toNat ≤ x.weight.toNat) ∧ (∀ x ∈ es, x.idx ≠ a.idx → b.weight.toNat ≤ x.weight.toNat) := by
  have le_of_key : ∀ {x y : Entry}, keyLt x y = true → x.weight.toNat ≤ y.weight.toNat := by
    intro x y hk; rw [keyLt_iff] at hk; omega
  cases p with
  | indexOrder =>
    simp only [selectPair] at h
    split at h
    · cases h
    · rename_i a ha
      split at h
      · cases h
      · rename_i b hb
        cases Option.some.inj h
        obtain ⟨ham, hamin⟩ := selectMin_spec ha hd
        have hd2 : ((without l es).map (·.idx)).Nodup :=
          hd.sublist (List.Sublist.map _ (List.filter_sublist))
        obtain ⟨hbm, hbmin⟩ := selectMin_spec hb hd2
        have hbm' := mem_without.mp hbm
        refine ⟨l, r, .inl ⟨rfl, rfl⟩, ham, hbm'.1, fun e => hbm'.2 e.symm, fun x hx => ?_, fun x hx hxa => ?_⟩
        · by_cases hx' : x.idx = l.idx
          · exact Nat.le_of_eq (by rw [Entry.eq_of_idx hd hx ham hx'])
          · exact le_of_key (hamin x hx hx')
        · by_cases hx' : x.idx = r.idx
          · exact Nat.le_of_eq (by rw [Entry.eq_of_idx hd hx hbm'.1 hx'])
          · exact le_of_key (hbmin x (mem_without.mpr ⟨hx, hxa⟩) hx')
  | anyMin =>
    simp only [selectPair] at h
    split at h
    · cases h
    · rename_i a ha
      split at h
      · cases h
      · rename_i b hb
        obtain ⟨ham, hamin⟩ := pickMin_iff.mp ⟨_, ha⟩
        obtain ⟨hbm, hbmin⟩ := pickMin_iff.mp ⟨_, hb⟩
        have hbm' := mem_without.mp hbm
        refine ⟨a, b, ?_, ham, hbm'.1, fun e => hbm'.2 e.symm, hamin,
          fun x hx hxa => hbmin x (mem_without.mpr ⟨hx, hxa⟩)⟩
        split at h
        · cases Option.some.inj h; exact .inr ⟨rfl, rfl, rfl⟩
        · cases Option.some.inj h; exact .inl ⟨rfl, rfl⟩

theorem without_ne_nil {es : List Entry} (h : 2 ≤ es.length) (hd : (es.map (·.idx)).Nodup) (a : Entry) :
    without a es ≠ [] := by
  match es, h with
  | x :: y :: es, _ =>
    have hxy : x.idx ≠ y.idx := by
      intro e
      have := (List.nodup_cons.mp hd).1
      exact this (by simp [e])
    by_cases hx : x.idx = a.idx
    · exact List.ne_nil_of_mem (mem_without.mpr ⟨by simp, fun e => hxy (hx.trans e.symm)⟩ : y ∈ _)
    · exact List.ne_nil_of_mem (mem_without.mpr ⟨by simp, hx⟩ : x ∈ _)

/-- With two entries or more, every selection finds a pair. -/
theorem selectPair_isSome (p : TiePolicy) (pick : TiePick) {es : List Entry} (h : 2 ≤ es.length)
    (hd : (es.map (·.idx)).Nodup) : ∃ l r, selectPair p pick es = some (l, r) := by
  have hne : es ≠ [] := by rintro rfl; simp at h
  cases p with
  | indexOrder =>
    obtain ⟨a, ha⟩ := selectMin_isSome hne
    obtain ⟨b, hb⟩ := selectMin_isSome (without_ne_nil h hd a)
    exact ⟨a, b, by simp [selectPair, ha, hb]⟩
  | anyMin =>
    obtain ⟨a, ha⟩ := pickMin_isSome hne pick.first
    obtain ⟨b, hb⟩ := pickMin_isSome (without_ne_nil h hd a) pick.second
    cases hs : pick.swap with
    | true => exact ⟨b, a, by simp [selectPair, ha, hb, hs]⟩
    | false => exact ⟨a, b, by simp [selectPair, ha, hb, hs]⟩

/-! ### The writes of a MERGE -/

/-- What a MERGE leaves alone. -/
theorem joinPair_frame (l r : Entry) (s : State) :
    joinPair l r s = { s with
      node := (joinPair l r s).node, inq := (joinPair l r s).inq, nodeCount := s.nodeCount + 1#9,
      qCount := s.qCount - 1#9,
      root := if s.qCount - 1#9 = 1#9 then s.nodeCount else s.root,
      phase := if s.qCount - 1#9 = 1#9 then .done else s.phase } := by
  apply State.eq_of_fields <;> (try rfl) <;> by_cases h : s.qCount - 1#9 = 1#9 <;> simp [joinPair, h]

theorem joinPair_node (l r : Entry) (s : State) :
    (joinPair l r s).node =
      Memory.write none s.node s.nodeCount.toNat (some (branchRec l.idx r.idx l.weight r.weight)) := by
  by_cases h : s.qCount - 1#9 = 1#9 <;> simp [joinPair, h]

theorem joinPair_inq (l r : Entry) (s : State) :
    (joinPair l r s).inq =
      Memory.write false (Memory.write false (Memory.write false s.inq l.idx false) r.idx false) s.nodeCount.toNat true := by
  by_cases h : s.qCount - 1#9 = 1#9 <;> simp [joinPair, h]

@[simp] theorem joinPair_nodeCount (l r : Entry) (s : State) : (joinPair l r s).nodeCount = s.nodeCount + 1#9 := by
  rw [joinPair_frame]

@[simp] theorem joinPair_qCount (l r : Entry) (s : State) : (joinPair l r s).qCount = s.qCount - 1#9 := by
  rw [joinPair_frame]

@[simp] theorem joinPair_leafCount (l r : Entry) (s : State) : (joinPair l r s).leafCount = s.leafCount := by
  rw [joinPair_frame]

@[simp] theorem joinPair_freqAt (l r : Entry) (s : State) (v : Nat) : (joinPair l r s).freqAt v = s.freqAt v := by
  rw [joinPair_frame]; rfl

/-- The records after a MERGE: the new Branch at NODE_COUNT, every older record as before. -/
theorem joinPair_nodeAt (l r : Entry) (s : State) (hn : s.nodeCount ≠ 511#9) (i : Nat) :
    (joinPair l r s).nodeAt i =
      if i = s.nodeCount.toNat then some (branchRec l.idx r.idx l.weight r.weight) else s.nodeAt i := by
  have hc : (s.nodeCount + 1#9).toNat = s.nodeCount.toNat + 1 := by
    have := s.nodeCount.isLt
    have : s.nodeCount.toNat ≠ 511 := fun h => hn (BitVec.eq_of_toNat_eq h)
    rw [BitVec.toNat_add]
    simp only [BitVec.toNat_ofNat]
    omega
  unfold State.nodeAt
  rw [joinPair_node, joinPair_nodeCount, hc, Memory.read_write]
  by_cases hi : i = s.nodeCount.toNat
  · subst hi; simp
  · rw [if_neg (Ne.symm hi), if_neg hi]
    by_cases hlt : i < s.nodeCount.toNat
    · rw [if_pos (show i < s.nodeCount.toNat + 1 by omega), if_pos hlt]
    · rw [if_neg (show ¬ i < s.nodeCount.toNat + 1 by omega), if_neg hlt]

/-- The queue bits after a MERGE. -/
theorem joinPair_inqAt (l r : Entry) (s : State) (i : Nat) :
    (joinPair l r s).inqAt i =
      if i = s.nodeCount.toNat then true else if i = l.idx ∨ i = r.idx then false else s.inqAt i := by
  unfold State.inqAt
  rw [joinPair_inq, Memory.read_write, Memory.read_write, Memory.read_write]
  by_cases h1 : s.nodeCount.toNat = i
  · simp [h1]
  · by_cases h2 : r.idx = i
    · simp [h1, h2]; intro h; exact absurd h.symm h1
    · by_cases h3 : l.idx = i
      · simp [h1, h2, h3]; intro h; exact absurd h.symm h1
      · rw [if_neg h1, if_neg h2, if_neg h3, if_neg (fun h => h1 h.symm), if_neg]
        rintro (h | h)
        · exact h3 h.symm
        · exact h2 h.symm

/-- When a MERGE answers a next state, and which. -/
theorem mergeWith_next {p : TiePolicy} {pick : TiePick} {s t : State} (h : mergeWith p pick s = .next t) :
    ∃ es l r, weigh s s.queue = some es ∧ selectPair p pick es = some (l, r) ∧ s.nodeCount ≠ 511#9 ∧ t = joinPair l r s := by
  unfold mergeWith at h
  split at h
  · cases h
  · rename_i es hes
    split at h
    · cases h
    · rename_i l r hlr
      split at h
      · cases h
      · rename_i hn
        exact ⟨es, l, r, hes, hlr, hn, (Host.Outcome.next.inj h).symm⟩

theorem mergeWith_eq {p : TiePolicy} {pick : TiePick} {s : State} {es : List Entry} {l r : Entry}
    (h1 : weigh s s.queue = some es) (h2 : selectPair p pick es = some (l, r)) (h3 : s.nodeCount ≠ 511#9) :
    mergeWith p pick s = .next (joinPair l r s) := by
  simp [mergeWith, h1, h2, h3]

/-- What an engine turn can do. -/
theorem engineStep_cases {p : TiePolicy} {s t : State} (h : engineStep p s = .next t) :
    (s.phase ≠ .busy ∧ t = s) ∨
    (s.phase = .busy ∧ p = .indexOrder ∧ mergeWith .indexOrder default s = .next t) ∨
    (s.phase = .busy ∧ p = .anyMin ∧ mergeWith .anyMin (Config.tiePick s.draws) s.countDraw = .next t) := by
  unfold engineStep at h
  split at h
  · rename_i hp; exact .inl ⟨hp, (Host.Outcome.next.inj h).symm⟩
  · rename_i hp
    have hp := Decidable.not_not.mp hp
    cases p with
    | indexOrder => exact .inr (.inl ⟨hp, rfl, h⟩)
    | anyMin => exact .inr (.inr ⟨hp, rfl, h⟩)

end Sys2Proof.Machine
end

