-- ==== Sys2Proof/Laws/HostSide.lean ====
section
/-! SUPPORT. Runs, host scripts and what shows outside: one lemma per move, and runs one step at a time. -/

namespace Sys2Proof.Machine

/-! ### Scripts -/

@[simp] theorem hostScript_nil : hostScript [] = [] := rfl

@[simp] theorem hostScript_cons (w : CmdWord) (ws : List CmdWord) :
    hostScript (w :: ws) = .sendCmd w :: .takeRsp :: hostScript ws := rfl

@[simp] theorem commandScript_cons (i : Instr) (is : List Instr) :
    commandScript (i :: is) = .sendCmd (encode i) :: .takeRsp :: commandScript is := rfl

/-! ### Runs -/

theorem runWith_succ {p : TiePolicy} {k : Nat} {s t : State} (h : stepWith p s = .next t) :
    runWith p (k + 1) s = runWith p k t := by
  simp [runWith, h]

theorem runWith_add {p : TiePolicy} {j k : Nat} {s t : State} (h : runWith p j s = .next t) :
    runWith p (j + k) s = runWith p k t := by
  induction j generalizing s with
  | zero => cases h; rw [Nat.zero_add]
  | succ j ih =>
    cases hs : stepWith p s with
    | next u =>
      rw [runWith_succ hs] at h
      rw [show j + 1 + k = (j + k) + 1 by omega, runWith_succ hs]
      exact ih h
    | fault r => simp [runWith, hs] at h
    | refused r => simp [runWith, hs] at h

theorem traceWith_succ {p : TiePolicy} {k : Nat} {sent : Option CmdWord} {s t : State} (h : stepWith p s = .next t) :
    traceWith p (k + 1) sent s = observe sent s t ++ traceWith p k (outstanding sent s) t := by
  simp [traceWith, h]

/-! ### What shows -/

@[simp] theorem triples_nil : triples [] = [] := rfl

@[simp] theorem triples_append (es fs : List Event) : triples (es ++ fs) = triples es ++ triples fs := by
  simp [triples]

@[simp] theorem doneAfter_append (level : Bool) (es fs : List Event) :
    doneAfter level (es ++ fs) = doneAfter (doneAfter level es) fs := by
  simp [doneAfter]

/-- The triple a step shows is the transferred response with the outstanding command. -/
theorem triples_observe (sent : Option CmdWord) (s t : State) :
    triples (observe sent s t) =
      match sent, transferred s with
      | some w, some r => [⟨w, r.rc, r.data⟩]
      | some _, none   => []
      | none, _        => [] := by
  unfold observe triples
  by_cases hd : t.doneOut = s.doneOut <;> cases sent <;> cases transferred s <;> simp [hd]

/-- After a step the level of `done` is the one that shows. -/
@[simp] theorem doneAfter_observe (sent : Option CmdWord) (s t : State) :
    doneAfter s.doneOut (observe sent s t) = t.doneOut := by
  unfold observe doneAfter
  by_cases hd : t.doneOut = s.doneOut <;> cases sent <;> cases transferred s <;> simp [hd]

theorem transferred_send {s : State} {w : CmdWord} {ms : List Move} (h : s.schedule = .sendCmd w :: ms) :
    transferred s = s.rsp := by
  simp [transferred, h]

theorem transferred_take {s : State} {ms : List Move} (h : s.schedule = .takeRsp :: ms) : transferred s = s.rsp := by
  simp [transferred, h]

theorem transferred_rst {s : State} {ms : List Move} (h : s.schedule = .assertRst :: ms) : transferred s = none := by
  simp [transferred, h]

theorem transferred_engine {s : State} {ms : List Move} (h : s.schedule = .engineTurn :: ms) : transferred s = none := by
  simp [transferred, h]

theorem outstanding_send {sent : Option CmdWord} {s : State} {w : CmdWord} {ms : List Move}
    (h : s.schedule = .sendCmd w :: ms) (hr : s.rsp = none) : outstanding sent s = some w := by
  simp [outstanding, h, State.cmdReady, hr]

theorem outstanding_take {sent : Option CmdWord} {s : State} {ms : List Move} (h : s.schedule = .takeRsp :: ms) :
    outstanding sent s = none := by
  simp [outstanding, h]

theorem outstanding_rst {sent : Option CmdWord} {s : State} {ms : List Move} (h : s.schedule = .assertRst :: ms) :
    outstanding sent s = none := by
  simp [outstanding, h]

theorem outstanding_engine {sent : Option CmdWord} {s : State} {ms : List Move} (h : s.schedule = .engineTurn :: ms) :
    outstanding sent s = sent := by
  simp [outstanding, h]

/-- An engine turn leaves both channels alone. -/
theorem engineStep_channels {p : TiePolicy} {s t : State} (h : engineStep p s = .next t) :
    t.schedule = s.schedule ∧ t.rsp = s.rsp := by
  rcases engineStep_cases h with ⟨-, rfl⟩ | ⟨-, -, hm⟩ | ⟨-, -, hm⟩
  · exact ⟨rfl, rfl⟩
  · obtain ⟨es, l, r, -, -, -, rfl⟩ := mergeWith_next hm
    constructor <;> rw [joinPair_frame]
  · obtain ⟨es, l, r, -, -, -, rfl⟩ := mergeWith_next hm
    constructor <;> rw [joinPair_frame] <;> rfl

end Sys2Proof.Machine
end

