-- ==== Sys2Proof/Laws/PerInstr.lean ====
section
/-! SUPPORT. Statements about every command of the set, one lemma per constructor of `Instr`. -/

namespace Sys2Proof.Laws.FieldsRoundTrip

/-- Decoding the fields of a command gives the command back, whatever its operands (30_encoding.md rules R73 to R75). -/
def Statement (i : Instr) : Prop := decodeFields i.fields = .ok i

theorem nop : Statement .nop := rfl
theorem clear : Statement .clear := rfl
theorem freqWr (sym : Idx) (value : Freq) : Statement (.freqWr sym value) := rfl
theorem freqInc (sym : Idx) : Statement (.freqInc sym) := rfl
theorem freqRd (sym : Idx) : Statement (.freqRd sym) := rfl
theorem build : Statement .build := rfl
theorem nodeRd (idx : Idx) : Statement (.nodeRd idx) := rfl
theorem statusRd : Statement .statusRd := rfl

end Sys2Proof.Laws.FieldsRoundTrip
end

