-- ==== Sys2Proof/Tests/Slice0.lean ====
section
/-! SUPPORT. Tests and witnesses. Every expected value of a test is the spec's own: the words of 30_encoding.md rule R74,
the examples of the command rules, and 95_test_vectors.md (V1 is its first build vector). A theorem `witness_X` shows
concrete states and operands that meet the hypotheses of the statement `Obligations.X`, clause by clause where it has
several. -/

set_option maxRecDepth 8000

namespace Sys2Proof.Tests
open Sys2Proof Sys2Proof.Machine

/-! ### Small states -/

def leafAt (i sym : Nat) (w : Nat) : Nat × Option NodeRec :=
  (i, some ⟨.leaf, BitVec.ofNat 8 sym, 0#9, 0#9, BitVec.ofNat 40 w⟩)

def branchAt (i l r : Nat) (w : Nat) : Nat × Option NodeRec :=
  (i, some ⟨.branch, 0#8, BitVec.ofNat 9 l, BitVec.ofNat 9 r, BitVec.ofNat 40 w⟩)

/-- The frequencies of V1. -/
def v1Freq : Memory Freq := [(0x41, 5#32), (0x42, 2#32), (0x43, 1#32)]

/-- V1 before BUILD, after BUILD, after the first MERGE and finished. -/
def sLoad : State := { State.reset with freq := v1Freq }

def sBusy : State :=
  { sLoad with
    phase := .busy, leafCount := 3#9, nodeCount := 3#9, qCount := 3#9
    node := [leafAt 0 0x41 5, leafAt 1 0x42 2, leafAt 2 0x43 1]
    inq := [(0, true), (1, true), (2, true)] }

def sBusy2 : State :=
  { sBusy with
    nodeCount := 4#9, qCount := 2#9
    node := sBusy.node ++ [branchAt 3 2 1 3]
    inq := [(0, true), (3, true)] }

def sDone : State :=
  { sBusy2 with
    phase := .done, nodeCount := 5#9, qCount := 1#9, root := 4#9
    node := sBusy2.node ++ [branchAt 4 3 0 8]
    inq := [(4, true)] }

/-- V5 after BUILD: one symbol, a single Leaf, DONE at once. -/
def sOne : State :=
  { State.reset with
    phase := .done, leafCount := 1#9, nodeCount := 1#9, qCount := 1#9
    freq := [(0x41, 1000#32)]
    node := [leafAt 0 0x41 1000]
    inq := [(0, true)] }

/-- After BUILD with no symbol present (95_test_vectors.md section 1.3). -/
def sFail : State := { State.reset with phase := .fail, buildErr := 1#3 }

/-- One symbol present at the largest count, in LOAD. -/
def sFull : State := { State.reset with freq := [(0, 0xFFFFFFFF#32)] }

/-- V3 after its first MERGE: leaf 2 and branch 3 tie at weight 2. -/
def sTie : State :=
  { State.reset with
    phase := .busy, leafCount := 3#9, nodeCount := 4#9, qCount := 2#9
    freq := [(0x41, 1#32), (0x42, 1#32), (0x43, 2#32)]
    node := [leafAt 0 0x41 1, leafAt 1 0x42 1, leafAt 2 0x43 2, branchAt 3 0 1 2]
    inq := [(2, true), (3, true)] }

def after (o : Host.Outcome State Fault Refusal) (f : State → Bool) : Bool :=
  match o with
  | .next t => f t
  | _ => false

def answers (o : Host.Outcome State Fault Refusal) (rc : ResultCode) (d : RData) : Bool :=
  after o (fun t => t.rsp = some ⟨rc, d⟩)

/-! ### Well-formed words -/

theorem test_wellFormed_accepts : wellFormedWord 0x0000000520000041#64 = true ∧ wellFormedWord 0#64 = true := by decide
theorem test_wellFormed_reserved_opcode : wellFormedWord 0x0000000080000000#64 = false := by decide
theorem test_wellFormed_reserved_bits : wellFormedWord 0x0000000010000200#64 = false := by decide
theorem test_wellFormed_unused_arg : wellFormedWord 0x0000000000000001#64 = false := by decide
theorem test_wellFormed_unused_data : wellFormedWord 0x0000000170000000#64 = false := by decide
theorem test_wellFormed_inc_data : wellFormedWord 0x0000000130000041#64 = false := by decide
theorem test_tableMnemonic : tableMnemonic 0x00000000600001FF#64 = some "NODE_RD" := by decide

/-! ### Decoding: DATA, OP, RSV and ARG written out bit by bit -/

theorem test_decode_nop : decode 0x0000000000000000#64 = .ok .nop := rfl
theorem test_decode_clear : decode 0x0000000010000000#64 = .ok .clear := rfl
theorem test_decode_freqWr :
    decode 0b0000000000000000000000111110100000100000000000000000000001000001#64 = .ok (.freqWr 0x41#9 1000#32) := rfl
theorem test_decode_freqWr_full : decode 0xFFFFFFFF200001FF#64 = .ok (.freqWr 511#9 0xFFFFFFFF#32) := rfl
theorem test_decode_freqInc : decode 0x0000000030000041#64 = .ok (.freqInc 0x41#9) := rfl
theorem test_decode_freqRd : decode 0x000000004000012C#64 = .ok (.freqRd 300#9) := rfl
theorem test_decode_build : decode 0x0000000050000000#64 = .ok .build := rfl
theorem test_decode_nodeRd :
    decode 0b0000000000000000000000000000000001100000000000000000000111111111#64 = .ok (.nodeRd 511#9) := rfl
theorem test_decode_statusRd : decode 0x0000000070000000#64 = .ok .statusRd := rfl
theorem test_decode_reserved : decode 0x00000000F0000000#64 = .error .reservedOpcode := rfl
theorem test_encode_freqWr : encode (.freqWr 0x41#9 5#32) = 0x0000000520000041#64 := by decide
theorem test_decodeBytes :
    decodeBytes .bigEndian [0x00#8, 0x00#8, 0x00#8, 0x05#8, 0x20#8, 0x00#8, 0x00#8, 0x41#8] = .ok (.freqWr 0x41#9 5#32) ∧
    decodeBytes .littleEndian [0x41#8, 0x00#8, 0x00#8, 0x20#8, 0x05#8, 0x00#8, 0x00#8, 0x00#8] = .ok (.freqWr 0x41#9 5#32) :=
  ⟨rfl, rfl⟩
theorem test_decodeTableWord : decodeTableWord 64 0x0000000060000004 = some (.nodeRd 4#9) := rfl

/-! ### Commands -/

theorem test_nop : answers (exec .nop sBusy) .ok 0#64 = true := by decide
theorem test_clear : answers (exec .clear sDone) .ok 0#64 = true ∧
    after (exec .clear sDone) (fun t => answers (exec .statusRd t) .ok 0#64) = true := by decide
theorem test_freqWr : after (exec (.freqWr 0x41#9 5#32) State.reset) (fun t => t.freq = [(0x41, 5#32)]) = true := by decide
theorem test_freqWr_phase_before_index : answers (exec (.freqWr 300#9 1#32) sBusy) .badPhase 0#64 = true := by decide
theorem test_freqInc : after (exec (.freqInc 7#9) { State.reset with freq := [(7, 10#32)] })
    (fun t => t.freqAt 7 = 11#32) = true := by decide
theorem test_freqInc_overflow : answers (exec (.freqInc 0#9) sFull) .freqOverflow 0#64 = true ∧
    after (exec (.freqInc 0#9) sFull) (fun t => t.freqAt 0 = 0xFFFFFFFF#32) = true := by decide
theorem test_freqRd : answers (exec (.freqRd 0#9) sFull) .ok 0x00000000FFFFFFFF#64 = true := by decide
theorem test_freqRd_index : answers (exec (.freqRd 300#9) sBusy) .badIndex 0#64 = true := by decide
theorem test_build : exec .build sLoad = .next { sBusy with rsp := some ⟨.ok, 0#64⟩ } := by rfl
theorem test_build_empty : answers (exec .build State.reset) .emptyInput 0#64 = true ∧
    after (exec .build State.reset) (fun t => t.statusWord = 0x0000000000000007#64 && t.doneOut) = true := by decide
theorem test_nodeRd : answers (exec (.nodeRd 4#9) sDone) .ok 0x0000030000000008#64 = true ∧
    answers (exec (.nodeRd 0#9) sDone) .ok 0x8000410000000005#64 = true := by decide
theorem test_nodeRd_errors : answers (exec (.nodeRd 5#9) sDone) .badIndex 0#64 = true ∧
    answers (exec (.nodeRd 511#9) sBusy) .badPhase 0#64 = true := by decide
theorem test_statusRd_done : answers (exec .statusRd sDone) .ok 0x00000008100A0302#64 = true := by decide
theorem test_statusRd_busy : answers (exec .statusRd sBusy2) .ok 0x0000001000080301#64 = true := by decide

/-! ### The engine (41_build.md rule R126, its example; V3; 95_test_vectors.md section 2.6) -/

theorem test_merge_first : engineStep .indexOrder sBusy = .next sBusy2 := by rfl
theorem test_merge_last : engineStep .indexOrder sBusy2 = .next sDone := by rfl
theorem test_merge_tie : after (engineStep .indexOrder sTie)
    (fun t => t.nodeAt 4 = some ⟨.branch, 0#8, 2#9, 3#9, 4#40⟩) = true := by decide
theorem test_merge_any_min_other_order : after (mergeWith .anyMin ⟨0, 0, true⟩ sTie)
    (fun t => t.nodeAt 4 = some ⟨.branch, 0#8, 3#9, 2#9, 4#40⟩) = true := by decide

/-! ### Steps -/

/-- P1's first command, as the first step after reset. -/
theorem test_step_after_reset :
    after (step (State.reset.withFetchWord 64 0x0000000520000041)) (fun t => t.freqAt 0x41 = 5#32) = true := by decide

/-- cmd_ready = 0 while a response waits (30_encoding.md rule R81): the word stays offered, FREQ is not written. -/
theorem test_step_word_waits :
    after (step { State.reset with rsp := some ⟨.ok, 0#64⟩, schedule := [.sendCmd 0x0000000520000041#64] })
      (fun t => t.freq = [] && t.rsp = none && t.schedule = [.sendCmd 0x0000000520000041#64]) = true := by decide

/-- A word that does not decode: (BAD_CMD, 0) in BUSY (95_test_vectors.md section 2.5). -/
theorem test_step_bad_cmd : answers (step (sBusy.withFetchWord 64 0x0000000090000000)) .badCmd 0#64 = true := by decide

theorem test_step_reset : after (step { sDone with schedule := [.assertRst] }) (fun t => t = State.reset) = true := by decide

/-! ### Host side -/

/-- The end of P3: NODE_RD 1 answers (BAD_INDEX, 0), code 5, in the single-Leaf tree, and the triple shows when the response is
taken. -/
theorem test_trace_at_transfer :
    traceWith .indexOrder 1 none (sOne.setSchedule [.sendCmd 0x0000000060000001#64, .takeRsp]) = [] ∧
    traceWith .indexOrder 2 none (sOne.setSchedule [.sendCmd 0x0000000060000001#64, .takeRsp])
      = [.response ⟨0x0000000060000001#64, .badIndex, 0#64⟩] := by decide

/-- 70_reset_and_hazards.md rule R200: no response for a command that `rst` meets; `done` falls. -/
theorem test_trace_reset :
    traceWith .indexOrder 2 none (sOne.setSchedule [.sendCmd 0x0000000060000000#64, .assertRst]) = [.doneLevel false] := by
  decide

theorem test_rsp_codes :
    after (exec (.nodeRd 1#9) sOne) (fun t => t.rspRc = some 5#3 && t.rspData = some 0#64) = true ∧
    after (exec .build State.reset) (fun t => t.rspRc = some 1#3) = true ∧
    after (exec (.freqInc 0#9) sFull) (fun t => t.rspRc = some 2#3) = true ∧
    after (exec .build sOne) (fun t => t.rspRc = some 4#3) = true ∧
    after (performWord 0x0000000080000000#64 sFail) (fun t => t.rspRc = some 3#3) = true ∧
    after (exec (.nodeRd 0#9) sOne) (fun t => t.rspRc = some 0#3 && t.rspData = some 0x80004100000003E8#64) = true := by
  decide

theorem test_assemble_symbol :
    assembleLine ['F', 'R', 'E', 'Q', '_', 'I', 'N', 'C', ' ', '\'', 'A', '\'', ' ', ';', ' ', 'x']
      = .ok [.command (.freqInc 0x41#9)] := by rfl
theorem test_assemble_omitted : assembleLine ['F', 'R', 'E', 'Q', '_', 'W', 'R'] = .ok [.command (.freqWr 0#9 0#32)] := by rfl
theorem test_readTree : readTree 0x0000000800020102#64 = [.statusRd, .nodeRd 0#9] := by rfl

/-! ### Witnesses: invariants -/

theorem inv_load : Inv sLoad :=
  ⟨⟨by decide, by decide, by decide, by decide, by decide, by decide, by decide⟩,
   ⟨by decide, by decide, by decide, by decide⟩⟩
theorem inv_busy : Inv sBusy :=
  ⟨⟨by decide, by decide, by decide, by decide, by decide, by decide, by decide⟩,
   ⟨by decide, by decide, by decide, by decide⟩⟩
theorem inv_busy2 : Inv sBusy2 :=
  ⟨⟨by decide, by decide, by decide, by decide, by decide, by decide, by decide⟩,
   ⟨by decide, by decide, by decide, by decide⟩⟩
theorem inv_done : Inv sDone :=
  ⟨⟨by decide, by decide, by decide, by decide, by decide, by decide, by decide⟩,
   ⟨by decide, by decide, by decide, by decide⟩⟩
theorem inv_fail : Inv sFail :=
  ⟨⟨by decide, by decide, by decide, by decide, by decide, by decide, by decide⟩,
   ⟨by decide, by decide, by decide, by decide⟩⟩
theorem inv_tie : Inv sTie :=
  ⟨⟨by decide, by decide, by decide, by decide, by decide, by decide, by decide⟩,
   ⟨by decide, by decide, by decide, by decide⟩⟩
theorem inv_one : Inv sOne :=
  ⟨⟨by decide, by decide, by decide, by decide, by decide, by decide, by decide⟩,
   ⟨by decide, by decide, by decide, by decide⟩⟩
theorem tree_one : TreeInv sOne := ⟨by decide, by decide, by decide, by decide, by decide⟩
theorem tree_load : TreeInv sLoad := ⟨by decide, by decide, by decide, by decide, by decide⟩
theorem tree_busy : TreeInv sBusy := ⟨by decide, by decide, by decide, by decide, by decide⟩
theorem tree_busy2 : TreeInv sBusy2 := ⟨by decide, by decide, by decide, by decide, by decide⟩
theorem tree_done : TreeInv sDone := ⟨by decide, by decide, by decide, by decide, by decide⟩
theorem order_load : MergeOrder sLoad :=
  ⟨fun n h => absurd h (by simp [sLoad, State.reset]), fun h => nomatch h⟩
theorem order_busy2 : MergeOrder sBusy2 :=
  ⟨fun n h hn => by
    have h3 : (3 : Nat) ≤ n := hn
    have h4 : n + 1 < 4 := h
    omega,
   by decide⟩

/-- The schedule and the response channel play no part in the invariant. -/
theorem inv_schedule {s : State} (h : Inv s) (ms : List Move) : Inv (s.setSchedule ms) :=
  ⟨⟨h.stored.freqForm, h.stored.freqBelow, h.stored.nodeForm, h.stored.nodeBelow, h.stored.nodeHeld, h.stored.inqForm,
    h.stored.inqBelow⟩, ⟨h.phases.load, h.phases.busy, h.phases.done, h.phases.fail⟩⟩

/-! ### Witnesses: encoding -/

theorem witness_EncodeOfDecodeIsIdentity :
    decode 0x0000000060000000#64 = .ok (.nodeRd 0#9) ∧ decode 0xFFFFFFFF200001FF#64 = .ok (.freqWr 511#9 0xFFFFFFFF#32) :=
  ⟨rfl, rfl⟩

theorem witness_DecodeAgreesWithMatchAndMask :
    decode 0x0000000170000000#64 = .error .dataNotZero ∧ wellFormedWord 0x0000000170000000#64 = false ∧
    decode 0x0000000070000000#64 = .ok .statusRd ∧ wellFormedWord 0x0000000070000000#64 = true :=
  ⟨rfl, by decide, rfl, by decide⟩

theorem witness_OpcodeRowsNeverOverlap :
    ∃ r ∈ opcodeRows, ∃ q ∈ opcodeRows, r.matches 0x00000000600001FF#64 = true ∧ q.matches 0x00000000600001FF#64 = true := by
  decide

/-- Each range at its boundary, for one operand, a pair and a list. -/
theorem witness_AssemblerExampleAndRange :
    (511 < 512 ∧ 2 ^ 32 - 1 < 2 ^ 32) ∧ (512 ≤ 512 ∨ 2 ^ 32 ≤ 0) ∧ (512 ≤ 0 ∨ 2 ^ 32 ≤ 2 ^ 32) ∧
    (∀ a ∈ [0, 511], a < 512) ∧ (∃ a ∈ [0, 512], 512 ≤ a) ∧
    ([0, 2 ^ 32 - 1].length ≤ 256 ∧ ∀ d ∈ [0, 2 ^ 32 - 1], d < 2 ^ 32) ∧
    ([0, 2 ^ 32].length ≤ 256 ∧ ∃ d ∈ [0, 2 ^ 32], 2 ^ 32 ≤ d) := by decide

/-! ### Witnesses: the command channel -/

theorem witness_StepPerformsTheDecodedCommand :
    ∃ s : State, s.schedule = .sendCmd 0x0000000050000000#64 :: [.engineTurn] ∧ s.rsp = none ∧
      decode 0x0000000050000000#64 = .ok .build :=
  ⟨sLoad.setSchedule [.sendCmd 0x0000000050000000#64, .engineTurn], rfl, rfl, rfl⟩

theorem witness_OfferedWordWaitsForTheResponse :
    (∃ s : State, s.rsp = some ⟨.ok, 0#64⟩ ∧ s.schedule = .sendCmd 0x0000000050000000#64 :: [.engineTurn]) ∧
    (∃ s : State, s.rsp = some ⟨.ok, 0#64⟩ ∧ s.schedule = .takeRsp :: [.engineTurn]) :=
  ⟨⟨{ sBusy with rsp := some ⟨.ok, 0#64⟩, schedule := [.sendCmd 0x0000000050000000#64, .engineTurn] }, rfl, rfl⟩,
   ⟨{ sBusy with rsp := some ⟨.ok, 0#64⟩, schedule := [.takeRsp, .engineTurn] }, rfl, rfl⟩⟩

/-- Engine turns before, between and after the host's moves; the second word decodes to no command. -/
theorem witness_OneResponsePerCommandInOrder :
    ∃ (moves : List Move) (s : State), Inv s ∧ s.rsp = none ∧
      moves.filter (fun m => m ≠ .engineTurn) = hostScript [encode .build, 0x0000000080000000#64] ∧ s.schedule = moves ++ [.assertRst] :=
  ⟨[.engineTurn, .sendCmd (encode .build), .engineTurn, .takeRsp, .sendCmd 0x0000000080000000#64, .takeRsp, .engineTurn],
   _, inv_schedule inv_load _, rfl, by decide, rfl⟩

theorem witness_ResponseChannelShowsCodeAndData :
    [ResultCode.ok, .emptyInput, .freqOverflow, .badCmd, .badPhase, .badIndex].all (fun rc =>
      decide (({ sBusy with rsp := some ⟨rc, 0#64⟩ } : State).rsp = some ⟨rc, 0#64⟩)) = true := by decide

/-- BUILD with two engine turns and the response taken, and BUILD met by `rst`. -/
theorem witness_TripleShowsAtTransferAndNeverAfterReset :
    (∃ s : State, Inv s ∧ s.rsp = none ∧
      s.schedule = .sendCmd (encode .build) :: (List.replicate 2 .engineTurn ++ .takeRsp :: [.engineTurn])) ∧
    (∃ s : State, Inv s ∧ s.rsp = none ∧
      s.schedule = .sendCmd (encode .build) :: (List.replicate 0 .engineTurn ++ .assertRst :: [.engineTurn])) :=
  ⟨⟨_, inv_schedule inv_load _, rfl, rfl⟩, ⟨_, inv_schedule inv_load _, rfl, rfl⟩⟩

/-- `done` rises with the last MERGE. -/
theorem witness_TraceFollowsTheLevelOfDone :
    ∃ t, runWith .indexOrder 1 sBusy2 = .next t ∧ t.doneOut = true ∧ t.doneOut ≠ sBusy2.doneOut := ⟨_, rfl, by decide⟩

/-! ### Witnesses: the commands, each clause at a boundary of its range -/

theorem witness_NopAnswersOkAndWritesNothing :
    (0x0000000000000001#64).extractLsb' 28 4 = 0#4 ∧ 0x0000000000000001#64 ≠ 0#64 ∧
    (0xFFFFFFFF00000000#64).extractLsb' 28 4 = 0#4 ∧ 0xFFFFFFFF00000000#64 ≠ 0#64 := by decide

theorem witness_FreqWrWritesOneEntry :
    sDone.phase ≠ .load ∧ sLoad.phase = .load ∧ 255 < (256#9).toNat ∧ (255#9).toNat ≤ 255 := by decide

theorem witness_FreqIncCountsOneOccurrence :
    sFail.phase ≠ .load ∧ sFull.phase = .load ∧ 255 < (256#9).toNat ∧ (0#9).toNat ≤ 255 ∧
    sFull.freqAt 0 = 0xFFFFFFFF#32 ∧ (255#9).toNat ≤ 255 ∧ sFull.freqAt 255 ≠ 0xFFFFFFFF#32 := by decide

theorem witness_FreqRdAnswersTheEntry : 255 < (256#9).toNat ∧ (255#9).toNat ≤ 255 := by decide

/-- BUILD away from LOAD, with no symbol, with one and with three. -/
theorem witness_BuildPlacesTheLeaves :
    (∃ S : List Nat, S.Pairwise (· < ·) ∧ (∀ v, v ∈ S ↔ v < 256 ∧ sDone.freqAt v ≠ 0#32) ∧ sDone.phase ≠ .load) ∧
    (∃ S : List Nat, S.Pairwise (· < ·) ∧ (∀ v, v ∈ S ↔ v < 256 ∧ State.reset.freqAt v ≠ 0#32) ∧
      State.reset.phase = .load ∧ S = []) ∧
    (∃ S : List Nat, S.Pairwise (· < ·) ∧ (∀ v, v ∈ S ↔ v < 256 ∧ sFull.freqAt v ≠ 0#32) ∧ sFull.phase = .load ∧ S = [0]) ∧
    (∃ S : List Nat, S.Pairwise (· < ·) ∧ (∀ v, v ∈ S ↔ v < 256 ∧ sLoad.freqAt v ≠ 0#32) ∧ sLoad.phase = .load ∧
      S = [0x41, 0x42, 0x43]) :=
  ⟨⟨_, sDone.symbols_sorted, sDone.mem_symbols, by decide⟩,
   ⟨_, State.reset.symbols_sorted, State.reset.mem_symbols, by decide, by decide⟩,
   ⟨_, sFull.symbols_sorted, sFull.mem_symbols, by decide, by decide⟩,
   ⟨_, sLoad.symbols_sorted, sLoad.mem_symbols, by decide, by decide⟩⟩

theorem witness_NodeRdAnswersTheRecord :
    sBusy.phase ≠ .done ∧ sDone.phase = .done ∧ sDone.nodeCount.toNat ≤ (5#9).toNat ∧ (511#9).toNat = 511 ∧
    sDone.nodeAt (4#9).toNat = some ⟨.branch, 0#8, 3#9, 0#9, 8#40⟩ ∧
    sDone.nodeAt (0#9).toNat = some ⟨.leaf, 0x41#8, 0#9, 0#9, 5#40⟩ := by decide

theorem witness_StatusRdAnswersTheStatusWord :
    sLoad.phase = .load ∧ sBusy.phase = .busy ∧ sDone.phase = .done ∧ sFail.phase = .fail := by decide

/-! ### Witnesses: errors, phases, reset -/

theorem witness_ErrorsWriteNoState :
    (∃ t, performWord 0x0000000080000000#64 sBusy = .next t ∧ t.rsp = some ⟨.badCmd, 0#64⟩) ∧
    (∃ t, performWord 0x0000000050000000#64 State.reset = .next t ∧ t.rsp = some ⟨.emptyInput, 0#64⟩) :=
  ⟨⟨_, rfl, rfl⟩, ⟨_, rfl, rfl⟩⟩

/-- Each of the five errors, one word and state. -/
theorem witness_ResultCodesNameTheirCause :
    (∃ t, performWord 0x0000000010000200#64 sLoad = .next t ∧ t.rsp = some ⟨.badCmd, 0#64⟩) ∧
    (∃ t, performWord 0x000000012000012C#64 sBusy = .next t ∧ t.rsp = some ⟨.badPhase, 0#64⟩) ∧
    (∃ t, performWord 0x0000000060000005#64 sDone = .next t ∧ t.rsp = some ⟨.badIndex, 0#64⟩) ∧
    (∃ t, performWord 0x0000000030000000#64 sFull = .next t ∧ t.rsp = some ⟨.freqOverflow, 0#64⟩) ∧
    (∃ t, performWord 0x0000000050000000#64 State.reset = .next t ∧ t.rsp = some ⟨.emptyInput, 0#64⟩) :=
  ⟨⟨_, rfl, rfl⟩, ⟨_, rfl, rfl⟩, ⟨_, rfl, rfl⟩, ⟨_, rfl, rfl⟩, ⟨_, rfl, rfl⟩⟩

/-- A refused command; a performed one; and the three kinds of transition: CLEAR, BUILD, the last MERGE. -/
theorem witness_PhasesFollowThePermissionTable :
    permitted (.nodeRd 0#9) sBusy.phase = false ∧
    (permitted (.freqRd 0#9) sBusy.phase = true ∧ ∃ t, exec (.freqRd 0#9) sBusy = .next t) ∧
    (∃ t, stepWith .indexOrder (sBusy.offerWord (encode .clear)) = .next t ∧ t.phase ≠ .busy) ∧
    (∃ t, stepWith .indexOrder (sLoad.offerWord (encode .build)) = .next t ∧ t.phase ≠ .load) ∧
    (∃ t, stepWith .indexOrder sBusy2 = .next t ∧ t.phase ≠ .busy) :=
  ⟨by decide, ⟨by decide, _, rfl⟩, ⟨_, rfl, by decide⟩, ⟨_, rfl, by decide⟩, ⟨_, rfl, by decide⟩⟩

theorem witness_FailIsEnteredOnlyByEmptyBuild :
    ∃ s t, Inv s ∧ stepWith .indexOrder s = .next t ∧ s.phase ≠ .fail ∧ t.phase = .fail :=
  ⟨State.reset.setSchedule [.sendCmd (encode .build)], _,
   ⟨⟨by decide, by decide, by decide, by decide, by decide, by decide, by decide⟩, ⟨by decide, by decide, by decide, by decide⟩⟩,
   rfl, by decide, by decide⟩

/-- In FAIL: reset, CLEAR, and a command that is no abort. -/
theorem witness_FailIsLeftOnlyByClearOrReset :
    sFail.phase = .fail ∧
    (∃ t, stepWith .indexOrder (sFail.setSchedule [.assertRst]) = .next t) ∧
    (∃ t, stepWith .indexOrder (sFail.offerWord (encode .clear)) = .next t ∧ abortsNext (sFail.offerWord (encode .clear)) = true) ∧
    (∃ t, stepWith .indexOrder (sFail.offerWord (encode .build)) = .next t ∧ abortsNext (sFail.offerWord (encode .build)) = false) :=
  ⟨rfl, ⟨_, rfl⟩, ⟨_, rfl, by decide⟩, ⟨_, rfl, by decide⟩⟩

theorem witness_DoneFallsOnlyOnClearOrReset :
    ∃ t, stepWith .indexOrder (sDone.setSchedule [.assertRst]) = .next t ∧ sDone.doneOut = true ∧ t.doneOut = false :=
  ⟨_, rfl, by decide, by decide⟩

theorem witness_ResetAndClearValues : ∃ t, exec .clear sDone = .next t := ⟨_, rfl⟩

/-- `rst` in the middle of a build, with a response waiting. -/
theorem witness_ResetDropsEverything :
    ∃ s : State, s.schedule = .assertRst :: [.engineTurn] ∧ s.phase = .busy ∧ s.rsp = some ⟨.ok, 0#64⟩ :=
  ⟨{ sBusy with rsp := some ⟨.ok, 0#64⟩, schedule := [.assertRst, .engineTurn] }, rfl, rfl, rfl⟩

/-! ### Witnesses: the merge engine -/

/-- Under any_min the engine's turn answers a next state too, whatever the free choice is. -/
theorem anyMin_turn : ∃ t, engineStep .anyMin sTie = .next t := by
  obtain ⟨l, r, h⟩ := selectPair_isSome .anyMin (Config.tiePick 0) (es := [⟨2, 2#40⟩, ⟨3, 2#40⟩]) (by decide) (by decide)
  exact ⟨_, mergeWith_eq (s := sTie.countDraw) (es := [⟨2, 2#40⟩, ⟨3, 2#40⟩]) (by decide) h (by decide)⟩

/-- Not BUSY; BUSY with the last MERGE next; BUSY with more to come. -/
theorem witness_MergeJoinsTheTwoSmallestKeys :
    sDone.phase ≠ .busy ∧ (Inv sBusy2 ∧ sBusy2.phase = .busy ∧ sBusy2.qCount = 2#9) ∧
    (Inv sBusy ∧ sBusy.phase = .busy ∧ sBusy.qCount ≠ 2#9) :=
  ⟨by decide, ⟨inv_busy2, rfl, rfl⟩, ⟨inv_busy, rfl, by decide⟩⟩

theorem witness_AnyMinAdmitsExactlyTheEnvelope :
    Inv sTie ∧ sTie.phase = .busy ∧ (∃ t, mergeWith .anyMin ⟨1, 0, true⟩ sTie = .next t) ∧
    (∃ t, engineStep .anyMin sTie = .next t) ∧ ∃ t, engineStep .indexOrder sTie = .next t :=
  ⟨inv_tie, rfl, ⟨_, rfl⟩, anyMin_turn, ⟨_, rfl⟩⟩

/-- Node 3 is the newest Branch, and node 0 and node 3 are in the queue. -/
theorem witness_NoWeightOverflows :
    Inv sBusy2 ∧ TreeInv sBusy2 ∧ 3 < sBusy2.nodeCount.toNat ∧ 0 ∈ sBusy2.queue ∧ 3 ∈ sBusy2.queue :=
  ⟨inv_busy2, tree_busy2, by decide⟩

theorem witness_BuildEndsAfterLMinusOneMerges :
    ∃ s : State, Inv s ∧ s.phase = .load ∧ s.rsp = none ∧ s.schedule = [.sendCmd (encode .build)] ∧ 2 ≤ s.symbols.length ∧
      1 + 1 < s.symbols.length :=
  ⟨sLoad.setSchedule [.sendCmd (encode .build)], inv_schedule inv_load _, rfl, rfl, rfl, by decide, by decide⟩

theorem witness_FairEngineReachesDone :
    Inv sBusy ∧ sBusy.phase = .busy ∧ WeaklyFair (fun n => if n % 2 = 0 then .takeRsp else .engineTurn) ∧
    ∀ n : Nat, isAbort (if n % 2 = 0 then .takeRsp else .engineTurn) = false :=
  ⟨inv_busy, rfl, fun n => ⟨2 * n + 1, by omega, by simp⟩, fun n => by split <;> rfl⟩

theorem witness_CommandsLeaveARunningBuildAlone :
    (∃ t, sBusy.phase = .busy ∧ exec (.freqWr 0#9 1#32) sBusy = .next t ∧ Instr.freqWr 0#9 1#32 ≠ .clear) ∧
    (∃ t d, sBusy.phase = .busy ∧ exec (.freqRd 0x41#9) sBusy = .next t ∧ Instr.freqRd 0x41#9 ≠ .clear ∧
      t.rsp = some ⟨.ok, d⟩) :=
  ⟨⟨_, rfl, rfl, by decide⟩, ⟨_, _, rfl, rfl, by decide, rfl⟩⟩

/-- The two schedules differ: engine turns alone, and a refused FREQ_WR between them. -/
theorem witness_FinalTreeIgnoresTheInterleaving :
    ∃ j k s t s' t', s.phase = .busy ∧ SameBlock s t ∧ (∀ m ∈ s.schedule, isAbort m = false) ∧
      (∀ m ∈ t.schedule, isAbort m = false) ∧ core.run j s = .next s' ∧ core.run k t = .next t' ∧
      s'.phase = .done ∧ t'.phase = .done :=
  ⟨1, 2, sBusy2, sBusy2.setSchedule [.sendCmd (encode (.freqWr 0#9 1#32))], _, _, rfl,
   ⟨rfl, rfl, rfl, rfl, rfl, rfl, rfl, rfl, rfl⟩, by decide, by decide, rfl, rfl, by decide, by decide⟩

/-! ### Witnesses: invariants -/

theorem witness_StepKeepsTheInvariant : ∃ t, Inv sBusy ∧ stepWith .indexOrder sBusy = .next t := ⟨_, inv_busy, rfl⟩

theorem witness_NoStepStops : Inv sBusy := inv_busy

theorem witness_StepKeepsTheTree : ∃ t, Inv sBusy ∧ TreeInv sBusy ∧ stepWith .indexOrder sBusy = .next t :=
  ⟨_, inv_busy, tree_busy, rfl⟩

theorem witness_StepKeepsBranchWeightsRising :
    ∃ t, Inv sBusy2 ∧ TreeInv sBusy2 ∧ MergeOrder sBusy2 ∧ stepWith .indexOrder sBusy2 = .next t :=
  ⟨_, inv_busy2, tree_busy2, order_busy2, rfl⟩

/-- Two symbols, BUILD and a MERGE from reset; and a step in DONE that is no abort. -/
theorem witness_ReachableStatesMeetThePhaseInvariant :
    (∃ t, runWith .indexOrder 6
      (State.reset.setSchedule (commandScript [.freqWr 0#9 7#32, .freqWr 255#9 3#32] ++ [.sendCmd (encode .build)])) = .next t) ∧
    (∃ t, stepWith .indexOrder sDone = .next t ∧ sDone.phase ≠ .load ∧ abortsNext sDone = false) :=
  ⟨⟨_, rfl⟩, ⟨_, rfl, by decide, by decide⟩⟩

/-- V7: two symbols and one MERGE; node 2, the root, is the Branch. V5: one symbol, so that the tree is a single Leaf. -/
theorem witness_FinishedTreeIsStrictBinary :
    (∃ s, runWith .indexOrder 3
      (State.reset.setSchedule (commandScript [.freqWr 0x41#9 1000#32] ++ [.sendCmd (encode .build)])) = .next s ∧
      s.phase = .done ∧ s.nodeCount = 1#9 ∧ s.leafCount = 1#9 ∧ s.root = 0#9) ∧
    ∃ s, runWith .indexOrder 6
      (State.reset.setSchedule (commandScript [.freqWr 0#9 7#32, .freqWr 255#9 3#32] ++ [.sendCmd (encode .build)])) = .next s ∧
      s.phase = .done ∧ s.nodeCount = 3#9 ∧ s.leafCount = 2#9 ∧ s.root = 2#9 :=
  ⟨⟨_, rfl, by decide⟩, ⟨_, rfl, by decide⟩⟩

/-- V1: three symbols, so that one Branch follows another, nodes 3 and 4. -/
theorem witness_ReachableTreeWeights :
    ∃ s, runWith .indexOrder 9
      (State.reset.setSchedule (commandScript [.freqWr 0x41#9 5#32, .freqWr 0x42#9 2#32, .freqWr 0x43#9 1#32] ++
        [.sendCmd (encode .build)])) = .next s ∧
      s.phase = .done ∧ s.leafCount.toNat ≤ 3 ∧ 3 + 1 < s.nodeCount.toNat :=
  ⟨_, rfl, by decide⟩

/-- A leaf two Branches down, and the single Leaf of the degenerate tree. -/
theorem witness_LeafDepthIsBounded :
    (Inv sOne ∧ TreeInv sOne ∧ sOne.phase = .done ∧ 0 < sOne.leafCount.toNat ∧ sOne.leafCount.toNat = 1 ∧
      HasPath sOne sOne.root.toNat [] 0) ∧
    Inv sDone ∧ TreeInv sDone ∧ sDone.phase = .done ∧ 2 < sDone.leafCount.toNat ∧
    HasPath sDone sDone.root.toNat [false, false] 2 :=
  ⟨⟨inv_one, tree_one, rfl, by decide, by decide, .here 0⟩,
   inv_done, tree_done, rfl, by decide, .left _ _ _ (by decide) (.left _ _ _ (by decide) (.here 2))⟩

theorem witness_EveryNodeHasExactlyOnePath :
    (Inv sOne ∧ TreeInv sOne ∧ sOne.phase = .done ∧ 0 < sOne.nodeCount.toNat) ∧
    Inv sDone ∧ TreeInv sDone ∧ sDone.phase = .done ∧ 4 < sDone.nodeCount.toNat :=
  ⟨⟨inv_one, tree_one, rfl, by decide⟩, inv_done, tree_done, rfl, by decide⟩

/-! ### Witnesses: whole-machine rules -/

theorem witness_ReadsRepeatAndWritesAreIdempotent :
    (∃ t u, exec (.nodeRd 4#9) sDone = .next t ∧ exec (.nodeRd 4#9) t = .next u) ∧
    (∃ t u, exec (.freqWr 255#9 1#32) sLoad = .next t ∧ exec (.freqWr 255#9 1#32) t = .next u) ∧
    (∃ t, exec (.freqInc 0x41#9) sLoad = .next t ∧ t.rsp = some ⟨.ok, 0#64⟩) :=
  ⟨⟨_, _, rfl, rfl⟩, ⟨_, _, rfl, rfl⟩, ⟨_, rfl, rfl⟩⟩

/-- A step that is no abort, and one that is. -/
theorem witness_FreqIsFrozenUntilClear :
    (∃ t, sDone.phase ≠ .load ∧ stepWith .indexOrder sDone = .next t ∧ abortsNext sDone = false) ∧
    (∃ t, (sDone.offerWord (encode .clear)).phase ≠ .load ∧ stepWith .indexOrder (sDone.offerWord (encode .clear)) = .next t ∧
      abortsNext (sDone.offerWord (encode .clear)) = true) :=
  ⟨⟨_, by decide, rfl, by decide⟩, ⟨_, by decide, rfl, by decide⟩⟩

/-- In DONE a second BUILD, in FAIL a FREQ_WR, each refused and followed by an engine turn. -/
theorem witness_NothingChangesAfterTheBuildEnds :
    (∃ t, sFail.phase = .fail ∧
      (∀ m ∈ (sFail.setSchedule [.sendCmd 0x0000000120000041#64, .engineTurn]).schedule, isAbort m = false) ∧
      runWith .indexOrder 2 (sFail.setSchedule [.sendCmd 0x0000000120000041#64, .engineTurn]) = .next t) ∧
    ∃ t, (∀ m ∈ (sDone.offerWord (encode .build)).schedule, isAbort m = false) ∧
      runWith .indexOrder 2 (sDone.offerWord (encode .build)) = .next t ∧ sDone.phase = .done :=
  ⟨⟨_, rfl, by decide, rfl⟩, ⟨_, by decide, rfl, rfl⟩⟩

theorem witness_TallyCountsTheBuffer :
    ∃ s : State, s.phase = .load ∧ (∀ v, s.freqAt v = 0#32) ∧ s.rsp = none ∧
      s.schedule = commandScript (freqCount ([0x41#8, 0xFF#8, 0x41#8].map (fun b => b.setWidth 9))) ++ [.engineTurn] ∧
      ∀ b : Sym, [0x41#8, 0xFF#8, 0x41#8].count b ≤ 2 ^ 32 - 1 :=
  ⟨State.reset.setSchedule _, rfl, fun _ => rfl, rfl, rfl, fun b => Nat.le_trans List.count_le_length (by decide)⟩

theorem witness_LoadFreqsLoadsTheMapping :
    ∃ s : State, s.phase = .load ∧ s.rsp = none ∧ s.schedule = commandScript (loadFreqs [1#32, 2#32]) ++ [.engineTurn] :=
  ⟨State.reset.setSchedule _, rfl, rfl, rfl⟩

theorem witness_WaitDoneThenReadTreeReadsEveryNode : Inv sDone ∧ sDone.phase = .done := ⟨inv_done, rfl⟩

/-- Two states that differ in a record above NODE_COUNT only. -/
theorem witness_AbsentRecordsCannotBeObserved :
    ∃ s', SameVisible sLoad { sLoad with node := [leafAt 5 0x41 1] } ∧ stepWith .indexOrder sLoad = .next s' :=
  ⟨_, ⟨rfl, fun i => by simp [State.nodeAt, sLoad, State.reset]⟩, rfl⟩

end Sys2Proof.Tests
end

section
/-! PROOF. The invariant of 10_state.md rule R36 under the operations of a step: what leaves the block alone, each effect
a command can have on it, and a MERGE. A state that satisfies it stops neither a command nor an engine turn. -/

namespace Sys2Proof.Machine

/-! ### The queue as a list -/

/-- The queue is the rising list of the indices whose bit is 1. -/
theorem State.queue_eq {s : State} (h : Memory.wf false s.inq) {q : List Nat} (hq : q.Pairwise (· < ·))
    (hm : ∀ i, i ∈ q ↔ s.inqAt i = true) : s.queue = q :=
  (State.queue_sorted h).eq_of_mem_iff hq (fun i => (State.mem_queue h i).trans (hm i).symm)

/-- Taking two different members out of a list without repetition leaves two fewer. -/
theorem length_filter_ne_and_ne {q : List Nat} {a b : Nat} (hq : q.Nodup) (ha : a ∈ q) (hb : b ∈ q) (hab : a ≠ b) :
    (q.filter (fun i => i ≠ a ∧ i ≠ b)).length + 2 = q.length := by
  have hperm : (a :: b :: q.filter (fun i => i ≠ a ∧ i ≠ b)).Perm q := by
    refine (List.perm_ext_iff_of_nodup ?_ hq).mpr (fun i => ?_)
    · simpa [hab] using hq.filter _
    · by_cases hia : i = a
      · simp [hia, ha]
      · by_cases hib : i = b <;> simp [hia, hib, hb]
  simpa using hperm.length_eq

/-! ### Effects on the block other than a MERGE -/

/-- The invariant speaks of the block alone, not of the channels, the schedule or the free choices. -/
theorem inv_of_sameBlock {s t : State} (h : Inv s) (hb : SameBlock s t) : Inv t := by
  have ht : t = { s with rsp := t.rsp, schedule := t.schedule, draws := t.draws } :=
    State.eq_of_fields hb.phase hb.buildErr hb.leafCount hb.nodeCount hb.root hb.qCount hb.freq hb.node hb.inq rfl rfl rfl
  rw [ht]
  obtain ⟨⟨freqForm, freqBelow, nodeForm, nodeBelow, nodeHeld, inqForm, inqBelow⟩, load, busy, done, fail⟩ := h
  exact ⟨⟨freqForm, freqBelow, nodeForm, nodeBelow, nodeHeld, inqForm, inqBelow⟩, load, busy, done, fail⟩

theorem inv_respond {s : State} (h : Inv s) (rc : ResultCode) (d : RData) : Inv (s.respond rc d) :=
  inv_of_sameBlock h ⟨rfl, rfl, rfl, rfl, rfl, rfl, rfl, rfl, rfl⟩

theorem inv_setSchedule {s : State} (h : Inv s) (ms : List Move) : Inv (s.setSchedule ms) :=
  inv_of_sameBlock h ⟨rfl, rfl, rfl, rfl, rfl, rfl, rfl, rfl, rfl⟩

theorem inv_countDraw {s : State} (h : Inv s) : Inv s.countDraw :=
  inv_of_sameBlock h ⟨rfl, rfl, rfl, rfl, rfl, rfl, rfl, rfl, rfl⟩

/-- CLEAR and reset lead into the invariant from any state. -/
theorem inv_clearBlock (s : State) : Inv s.clearBlock where
  stored := by constructor <;> simp [Memory.wf]
  phases := by constructor <;> simp

/-- Writing one FREQ entry in LOAD. -/
theorem inv_writeFreq {s : State} (h : Inv s) (hp : s.phase = .load) {sym : Nat} (hsym : sym < 256) (v : Freq) :
    Inv (s.writeFreq sym v) where
  stored := { h.stored with
    freqForm := Memory.write_wf h.stored.freqForm sym v
    freqBelow := Memory.write_below (d := 0#32) h.stored.freqBelow hsym v }
  phases := { load := h.phases.load, busy := h.phases.busy, done := h.phases.done, fail := by simp [hp] }

/-- BUILD with no symbol present. -/
theorem inv_enterFail {s : State} (h : Inv s) (hp : s.phase = .load) (hs : s.symbols = []) :
    Inv ((s.setPhase .fail).setBuildErr 1#3) where
  stored := { h.stored with }
  phases := by
    obtain ⟨hleaf, hnode, hq, hroot, -, hqueue⟩ := h.phases.load hp
    have hfreq : ∀ v, v < 256 → s.freqAt v = 0#32 := fun v hv => by
      have : v ∉ s.symbols := by simp [hs]
      rw [State.mem_symbols] at this
      exact Decidable.not_not.mp (fun hne => this ⟨hv, hne⟩)
    exact ⟨by simp, by simp, by simp, fun _ => by simpa [*] using hfreq⟩

/-! ### BUILD -/

/-- After BUILD's loop over a block in LOAD the queue holds the leaves. -/
theorem placeLeaves_queue {s : State} (h : Inv s) (hp : s.phase = .load) (vs : List Nat)
    (hform : Memory.wf false (placeLeaves s 0 vs).inq) : (placeLeaves s 0 vs).queue = List.range vs.length := by
  obtain ⟨-, -, -, -, -, hqueue⟩ := h.phases.load hp
  refine State.queue_eq hform List.pairwise_lt_range (fun i => ?_)
  have hi : s.inqAt i ≠ true := by simp [← State.mem_queue h.stored.inqForm, hqueue]
  rw [List.mem_range, placeLeaves_inqAt]
  by_cases hlt : i < vs.length <;> simp [hlt, hi]

/-- The registers BUILD writes, as one update. -/
theorem startBuild_frame (count : Idx) (s : State) :
    startBuild count s = { s with
      leafCount := count, nodeCount := count, qCount := count, root := 0#9,
      phase := if count = 1#9 then .done else .busy } := rfl

@[simp] theorem placeLeaves_buildErr (s : State) (k : Nat) (vs : List Nat) :
    (placeLeaves s k vs).buildErr = s.buildErr := by
  rw [placeLeaves_frame]

@[simp] theorem placeLeaves_freq (s : State) (k : Nat) (vs : List Nat) : (placeLeaves s k vs).freq = s.freq := by
  rw [placeLeaves_frame]

/-- BUILD with a symbol present. -/
theorem inv_startBuild {s : State} (h : Inv s) (hp : s.phase = .load) (hs : s.symbols ≠ []) :
    Inv (startBuild (BitVec.ofNat 9 s.symbols.length) (placeLeaves s 0 s.symbols)) := by
  obtain ⟨-, hnode, -, -, herr, -⟩ := h.phases.load hp
  have hpos := List.length_pos_iff.mpr hs
  have hle := s.symbols_length_le
  have hcount : (BitVec.ofNat 9 s.symbols.length).toNat = s.symbols.length := by
    rw [BitVec.toNat_ofNat]; omega
  obtain ⟨hnodeForm, hnodeBelow, hinqForm, hinqBelow⟩ :=
    placeLeaves_stored (n := s.symbols.length) (m := 511) s 0 s.symbols (by omega) (by omega) h.stored.nodeForm
      (fun e he => absurd (h.stored.nodeBelow e he) (by omega)) h.stored.inqForm h.stored.inqBelow
  have hqueue := placeLeaves_queue h hp s.symbols hinqForm
  have hdone : BitVec.ofNat 9 s.symbols.length = 1#9 ↔ s.symbols.length = 1 := by
    rw [← BitVec.toNat_inj, hcount]; rfl
  refine ⟨⟨?_, ?_, hnodeForm, ?_, ?_, hinqForm, hinqBelow⟩, ?_⟩
  · simpa [startBuild] using h.stored.freqForm
  · simpa [startBuild] using h.stored.freqBelow
  · simpa [startBuild, hcount] using hnodeBelow
  · intro i hi
    have hi' : i < s.symbols.length := by simpa [startBuild, hcount] using hi
    rw [State.nodeAt_of_lt hi, startBuild_frame, placeLeaves_node, dif_pos (by omega)]
    rfl
  · by_cases h1 : s.symbols.length = 1
    · constructor <;> simp [startBuild, hqueue, h1, herr]
    · have h2 : 2 ≤ s.symbols.length := by omega
      have hnodes : s.symbols.length + 2 ≤ 2 * s.symbols.length := by omega
      constructor <;> simp [startBuild, hcount, hdone, hqueue, h1, herr, hle, h2, hnodes, ← two_mul]

/-! ### MERGE -/

/-- The queue after a MERGE: without the two children, with the new Branch at its end. -/
theorem joinPair_queue {s : State} (hform : Memory.wf false s.inq) (hbelow : ∀ i ∈ s.queue, i < s.nodeCount.toNat)
    (l r : Entry) :
    (joinPair l r s).queue = s.queue.filter (fun i => i ≠ l.idx ∧ i ≠ r.idx) ++ [s.nodeCount.toNat] := by
  have hform' : Memory.wf false (joinPair l r s).inq := by
    rw [joinPair_inq]
    exact Memory.write_wf (Memory.write_wf (Memory.write_wf hform _ _) _ _) _ _
  refine State.queue_eq hform' ?_ (fun i => ?_)
  · refine List.pairwise_append.mpr ⟨(State.queue_sorted hform).filter _, List.pairwise_singleton _ _, ?_⟩
    intro i hi j hj
    rw [List.mem_singleton.mp hj]
    exact hbelow i (List.mem_filter.mp hi).1
  · rw [joinPair_inqAt]
    by_cases hn : i = s.nodeCount.toNat
    · simp [hn]
    · by_cases hc : i = l.idx ∨ i = r.idx
      · rcases hc with rfl | rfl <;> simp [hn]
      · rw [not_or] at hc
        simp [hn, hc, State.mem_queue hform]

@[simp] theorem joinPair_phase (l r : Entry) (s : State) :
    (joinPair l r s).phase = if s.qCount - 1#9 = 1#9 then .done else s.phase := by
  rw [joinPair_frame]

@[simp] theorem joinPair_root (l r : Entry) (s : State) :
    (joinPair l r s).root = if s.qCount - 1#9 = 1#9 then s.nodeCount else s.root := by
  rw [joinPair_frame]

@[simp] theorem joinPair_buildErr (l r : Entry) (s : State) : (joinPair l r s).buildErr = s.buildErr := by
  rw [joinPair_frame]

@[simp] theorem joinPair_freq (l r : Entry) (s : State) : (joinPair l r s).freq = s.freq := by
  rw [joinPair_frame]

/-- A MERGE keeps the arrays in form while a record is free. -/
theorem joinPair_stored {s : State} (h : WellStored s) (hn : s.nodeCount.toNat < 511) {l r : Entry} (hl : l.idx < 511)
    (hr : r.idx < 511) : WellStored (joinPair l r s) := by
  have hne : s.nodeCount ≠ 511#9 := by bv_omega
  have hcount : (s.nodeCount + 1#9).toNat = s.nodeCount.toNat + 1 := by bv_omega
  refine ⟨?_, ?_, ?_, ?_, ?_, ?_, ?_⟩
  · rw [joinPair_freq]; exact h.freqForm
  · rw [joinPair_freq]; exact h.freqBelow
  · rw [joinPair_node]; exact Memory.write_wf h.nodeForm _ _
  · rw [joinPair_node, joinPair_nodeCount, hcount]
    exact Memory.write_below (d := none) (fun e he => Nat.lt_succ_of_lt (h.nodeBelow e he)) (Nat.lt_succ_self _) _
  · intro i hi
    rw [joinPair_nodeCount, hcount] at hi
    rw [joinPair_nodeAt l r s hne]
    by_cases hin : i = s.nodeCount.toNat
    · simp [hin]
    · rw [if_neg hin]
      exact h.nodeHeld i (by omega)
  · rw [joinPair_inq]
    exact Memory.write_wf (Memory.write_wf (Memory.write_wf h.inqForm _ _) _ _) _ _
  · rw [joinPair_inq]
    exact Memory.write_below (d := false)
      (Memory.write_below (d := false) (Memory.write_below (d := false) h.inqBelow hl _) hr _) hn _

/-- A MERGE of two different queue entries. -/
theorem inv_joinPair {s : State} (h : Inv s) (hp : s.phase = .busy) {l r : Entry} (hl : l.idx ∈ s.queue)
    (hr : r.idx ∈ s.queue) (hlr : l.idx ≠ r.idx) : Inv (joinPair l r s) := by
  obtain ⟨hL2, hL256, hLn, hnL, hsum, hq2, hlen, hbelow, hroot, herr⟩ := h.phases.busy hp
  have hqueue := joinPair_queue h.stored.inqForm hbelow l r
  have hfilter := length_filter_ne_and_ne (State.queue_sorted h.stored.inqForm).nodup hl hr hlr
  have hnode : (s.nodeCount + 1#9).toNat = s.nodeCount.toNat + 1 := by bv_omega
  have hqCount : (s.qCount - 1#9).toNat + 1 = s.qCount.toNat := by bv_omega
  have hl' := hbelow _ hl
  have hr' := hbelow _ hr
  refine ⟨joinPair_stored h.stored (by omega) (by omega) (by omega), ?_⟩
  by_cases hlast : s.qCount - 1#9 = 1#9
  · have hq : s.qCount.toNat = 2 := by rw [hlast] at hqCount; exact hqCount.symm
    have hnil : s.queue.filter (fun i => i ≠ l.idx ∧ i ≠ r.idx) = [] := List.eq_nil_of_length_eq_zero (by omega)
    rw [hnil] at hqueue
    constructor <;> simp only [joinPair_phase, if_pos hlast, reduceCtorEq, false_imp_iff, true_imp_iff]
    simp only [joinPair_leafCount, joinPair_nodeCount, joinPair_qCount, joinPair_root, joinPair_buildErr, if_pos hlast,
      hqueue, List.nil_append, herr, and_true, hnode]
    omega
  · have hq : s.qCount.toNat ≠ 2 := by bv_omega
    constructor <;> simp only [joinPair_phase, if_neg hlast, hp, reduceCtorEq, false_imp_iff, true_imp_iff]
    simp only [joinPair_leafCount, joinPair_nodeCount, joinPair_qCount, joinPair_root, joinPair_buildErr, if_neg hlast,
      hqueue, List.length_append, List.length_singleton, herr, and_true, hnode]
    refine ⟨by omega, by omega, by omega, by omega, by omega, by omega, by omega, ?_, hroot⟩
    intro i hi
    rcases List.mem_append.mp hi with hi | hi
    · have := hbelow i (List.mem_filter.mp hi).1
      omega
    · rw [List.mem_singleton.mp hi]
      omega

/-- In BUSY a MERGE finds its pair, whatever the tie choice, and keeps the invariant. -/
theorem mergeWith_next_of_inv {s : State} (h : Inv s) (hp : s.phase = .busy) (p : TiePolicy) (pick : TiePick) :
    ∃ t, mergeWith p pick s = .next t ∧ Inv t := by
  obtain ⟨hL2, hL256, hLn, hnL, hsum, hq2, hlen, hbelow, -, -⟩ := h.phases.busy hp
  obtain ⟨es, hes⟩ := weigh_isSome (fun i hi => h.stored.nodeHeld i (hbelow i hi))
  obtain ⟨hidx, -⟩ := weigh_eq_some hes
  have hnodup : (es.map (·.idx)).Nodup := hidx ▸ (State.queue_sorted h.stored.inqForm).nodup
  have hlength : 2 ≤ es.length := by rw [← List.length_map (·.idx), hidx]; omega
  obtain ⟨l, r, hpair⟩ := selectPair_isSome p pick hlength hnodup
  have hmem : ∀ e ∈ es, e.idx ∈ s.queue := fun e he => hidx ▸ List.mem_map_of_mem he
  refine ⟨_, mergeWith_eq hes hpair (by bv_omega), ?_⟩
  obtain ⟨a, b, ⟨rfl, rfl⟩ | ⟨-, rfl, rfl⟩, ha, hb, hab, -, -⟩ := selectPair_spec hpair hnodup
  · exact inv_joinPair h hp (hmem l ha) (hmem r hb) hab
  · exact inv_joinPair h hp (hmem l hb) (hmem r ha) hab.symm

/-! ### No command and no engine turn stops -/

/-- An engine turn answers a next state that satisfies the invariant. -/
theorem engineStep_next_of_inv {s : State} (h : Inv s) (p : TiePolicy) : ∃ t, engineStep p s = .next t ∧ Inv t := by
  by_cases hp : s.phase = .busy
  · cases p with
    | indexOrder => simpa [engineStep, hp] using mergeWith_next_of_inv h hp .indexOrder default
    | anyMin => simpa [engineStep, hp] using mergeWith_next_of_inv (inv_countDraw h) hp .anyMin (Config.tiePick s.draws)
  · exact ⟨s, if_pos hp, h⟩

/-- Every command keeps the invariant. -/
theorem inv_exec {i : Instr} {s t : State} (h : Inv s) (ht : exec i s = .next t) : Inv t := by
  obtain ⟨rc, d, rfl | ⟨hp, -, -, sym, v, hsym, rfl⟩ | ⟨-, hp, hs, -, -, rfl⟩ | ⟨-, hp, hs, -, -, rfl⟩ |
    ⟨-, -, -, rfl⟩⟩ := exec_cases ht
  · exact inv_respond h rc d
  · exact inv_respond (inv_writeFreq h hp hsym v) rc d
  · exact inv_respond (inv_enterFail h hp hs) rc d
  · exact inv_respond (inv_startBuild h hp hs) rc d
  · exact inv_respond (inv_clearBlock s) rc d

/-- A command answers a next state: NODE_RD below NODE_COUNT finds its record. -/
theorem exec_next_of_inv {s : State} (h : Inv s) (i : Instr) : ∃ t, exec i s = .next t := by
  rcases exec_total i s with ht | ⟨idx, -, -, hlt, habsent, -⟩
  · exact ht
  · have := h.stored.nodeHeld idx.toNat hlt
    simp [habsent] at this

/-- A command offers a response and takes no move of the schedule. -/
theorem exec_channels {i : Instr} {s t : State} (ht : exec i s = .next t) :
    (∃ r, t.rsp = some r) ∧ t.schedule = s.schedule := by
  obtain ⟨rc, d, rfl | ⟨-, -, -, sym, v, -, rfl⟩ | ⟨-, -, -, -, -, rfl⟩ | ⟨-, -, -, -, -, rfl⟩ | ⟨-, -, -, rfl⟩⟩ :=
    exec_cases ht
  · exact ⟨⟨_, rfl⟩, rfl⟩
  · exact ⟨⟨_, rfl⟩, rfl⟩
  · exact ⟨⟨_, rfl⟩, rfl⟩
  · exact ⟨⟨_, rfl⟩, by rw [State.respond_schedule, startBuild_frame, placeLeaves_frame]⟩
  · exact ⟨⟨_, rfl⟩, rfl⟩

/-- Any word, a command or not, is answered: one response is offered, no other move is taken, the invariant stays. -/
theorem performWord_next_of_inv {s : State} (h : Inv s) (w : CmdWord) :
    ∃ t r, performWord w s = .next t ∧ t.rsp = some r ∧ t.schedule = s.schedule ∧ Inv t := by
  unfold performWord
  split
  · rename_i i _
    obtain ⟨t, ht⟩ := exec_next_of_inv h i
    obtain ⟨⟨r, hr⟩, hsched⟩ := exec_channels ht
    exact ⟨t, r, ht, hr, hsched, inv_exec h ht⟩
  · exact ⟨_, _, rfl, rfl, rfl, inv_respond h .badCmd 0#64⟩

/-! ### One move of the schedule -/

theorem stepWith_engine (p : TiePolicy) {s : State} {ms : List Move} (h : s.schedule = .engineTurn :: ms) :
    stepWith p s = engineStep p (s.setSchedule ms) := by
  simp [stepWith, h]

theorem stepWith_take (p : TiePolicy) {s : State} {ms : List Move} (h : s.schedule = .takeRsp :: ms) :
    stepWith p s = .next (s.setSchedule ms).dropRsp := by
  simp [stepWith, h]

theorem stepWith_rst (p : TiePolicy) {s : State} {ms : List Move} (h : s.schedule = .assertRst :: ms) :
    stepWith p s = .next (s.setSchedule ms).resetBlock := by
  simp [stepWith, h]

theorem stepWith_send (p : TiePolicy) {s : State} {w : CmdWord} {ms : List Move} (h : s.schedule = .sendCmd w :: ms)
    (hr : s.rsp = none) : stepWith p s = performWord w (s.setSchedule ms) := by
  simp [stepWith, h, State.cmdReady, hr]

theorem sameBlock_resetBlock (s : State) : SameBlock State.reset s.resetBlock :=
  ⟨rfl, rfl, rfl, rfl, rfl, rfl, rfl, rfl, rfl⟩

/-! ### What shows in a run -/

theorem runWith_succ_inv {p : TiePolicy} {k : Nat} {s t : State} (h : runWith p (k + 1) s = .next t) :
    ∃ u, stepWith p s = .next u ∧ runWith p k u = .next t := by
  cases hs : stepWith p s with
  | next u => exact ⟨u, rfl, runWith_succ hs ▸ h⟩
  | fault r => simp [runWith, hs] at h
  | refused r => simp [runWith, hs] at h

/-- The level of `done` after a run is the one that shows. -/
theorem doneAfter_traceWith {p : TiePolicy} {k : Nat} {sent : Option CmdWord} {s t : State} (h : runWith p k s = .next t) :
    doneAfter s.doneOut (traceWith p k sent s) = t.doneOut := by
  induction k generalizing sent s with
  | zero => cases h; rfl
  | succ k ih =>
    obtain ⟨u, hstep, hrun⟩ := runWith_succ_inv h
    rw [traceWith_succ hstep, doneAfter_append, doneAfter_observe, ih hrun]

/-- A step shows a level exactly when it changes it. -/
theorem doneLevel_mem_observe {sent : Option CmdWord} {s t : State} {level : Bool} :
    .doneLevel level ∈ observe sent s t ↔ level = t.doneOut ∧ t.doneOut ≠ s.doneOut := by
  unfold observe
  rw [List.mem_append, or_iff_right (by split <;> simp)]
  by_cases hd : t.doneOut = s.doneOut <;> simp [hd]

/-- Engine turns run to their end, leave the response waiting and show no triple. -/
theorem engineTurns_run (p : TiePolicy) {n : Nat} {ms : List Move} {s : State} (h : Inv s)
    (hs : s.schedule = List.replicate n .engineTurn ++ ms) :
    ∃ t, runWith p n s = .next t ∧ t.rsp = s.rsp ∧ t.schedule = ms ∧
      ∀ k sent, triples (traceWith p (n + k) sent s) = triples (traceWith p k sent t) := by
  induction n generalizing s with
  | zero => exact ⟨s, rfl, rfl, hs, fun k sent => by rw [Nat.zero_add]⟩
  | succ n ih =>
    rw [List.replicate_succ, List.cons_append] at hs
    obtain ⟨u, hu, hinv⟩ := engineStep_next_of_inv (inv_setSchedule h _) p
    obtain ⟨hsched, hrsp⟩ := engineStep_channels hu
    have hstep := (stepWith_engine p hs).trans hu
    obtain ⟨t, hrun, hrsp', hms, htriples⟩ := ih hinv hsched
    refine ⟨t, (runWith_succ hstep).trans hrun, hrsp'.trans hrsp, hms, fun k sent => ?_⟩
    rw [Nat.add_right_comm, traceWith_succ hstep, triples_append, triples_observe, transferred_engine hs,
      outstanding_engine hs, htriples]
    cases sent <;> rfl

/-- A word sent and any number of engine turns: the word's response waits, and no triple has shown. -/
theorem sendThenEngineTurns_run (p : TiePolicy) {n : Nat} {w : CmdWord} {ms : List Move} {s : State} (h : Inv s)
    (hr : s.rsp = none) (hs : s.schedule = .sendCmd w :: (List.replicate n .engineTurn ++ ms)) :
    ∃ t u r, performWord w (s.setSchedule (List.replicate n .engineTurn ++ ms)) = .next t ∧ t.rsp = some r ∧
      runWith p (n + 1) s = .next u ∧ u.rsp = some r ∧ u.schedule = ms ∧
      ∀ k, triples (traceWith p (n + 1 + k) none s) = triples (traceWith p k (some w) u) := by
  obtain ⟨t, r, ht, hrsp, hsched, hinv⟩ := performWord_next_of_inv (inv_setSchedule h _) w
  have hstep := (stepWith_send p hs hr).trans ht
  obtain ⟨u, hrun, hrsp', hms, htriples⟩ := engineTurns_run p hinv hsched
  refine ⟨t, u, r, ht, hrsp, (runWith_succ hstep).trans hrun, hrsp'.trans hrsp, hms, fun k => ?_⟩
  rw [Nat.add_right_comm, traceWith_succ hstep, triples_append, triples_observe, outstanding_send hs hr, htriples]
  rfl

/-! ### The obligations of 00_scope.md -/

/-- Settles O51: the word's response waits through the engine turns (`sendThenEngineTurns_run`); the last move either
transfers it or is `rst`, which discards it. -/
theorem tripleShowsAtTransferAndNeverAfterReset : Obligations.TripleShowsAtTransferAndNeverAfterReset := by
  unfold Obligations.TripleShowsAtTransferAndNeverAfterReset
  intro p w n ms s hinv hr
  constructor
  · intro hs
    obtain ⟨t, u, r, ht, hrsp, -, hrspu, hsched, htriples⟩ := sendThenEngineTurns_run p hinv hr hs
    refine ⟨t, r, ht, hrsp, (htriples 1).trans ?_⟩
    rw [traceWith_succ (stepWith_take p hsched), triples_append, triples_observe, transferred_take hsched, hrspu]
    rfl
  · intro hs
    obtain ⟨-, u, -, -, -, hrun, -, hsched, htriples⟩ := sendThenEngineTurns_run p hinv hr hs
    have hrst := stepWith_rst p hsched
    refine ⟨(htriples 1).trans ?_, (u.setSchedule ms).resetBlock, (runWith_add hrun).trans (runWith_succ (k := 0) hrst), rfl,
      sameBlock_resetBlock _, rfl⟩
    rw [traceWith_succ hrst, triples_append, triples_observe, transferred_rst hsched]
    rfl

/-- Settles O52, by induction on the number of steps and by the cases of what one step shows. -/
theorem traceFollowsTheLevelOfDone : Obligations.TraceFollowsTheLevelOfDone := by
  unfold Obligations.TraceFollowsTheLevelOfDone
  exact ⟨fun _ _ _ _ _ => doneAfter_traceWith, fun _ _ _ _ => doneLevel_mem_observe⟩

end Sys2Proof.Machine
end

section
/-! PROOF. The obligations of 10_state.md: every step keeps the invariant (R36), what a step outside LOAD can do to the
block (R31, R36), the values after CLEAR and reset (R37), and that records at or above NODE_COUNT show nowhere (R35). -/

namespace Sys2Proof.Machine

/-! ### Every step keeps the invariant -/

theorem inv_performWord {w : CmdWord} {s t : State} (h : Inv s) (ht : performWord w s = .next t) : Inv t := by
  obtain ⟨u, -, hu, -, -, hinv⟩ := performWord_next_of_inv h w
  cases hu.symm.trans ht
  exact hinv

theorem inv_engineStep {p : TiePolicy} {s t : State} (h : Inv s) (ht : engineStep p s = .next t) : Inv t := by
  obtain ⟨u, hu, hinv⟩ := engineStep_next_of_inv h p
  cases hu.symm.trans ht
  exact hinv

theorem inv_dropRsp {s : State} (h : Inv s) : Inv s.dropRsp :=
  inv_of_sameBlock h ⟨rfl, rfl, rfl, rfl, rfl, rfl, rfl, rfl, rfl⟩

/-- Settles O34, by the move at the head of the schedule. -/
theorem stepKeepsTheInvariant : Obligations.StepKeepsTheInvariant := by
  unfold Obligations.StepKeepsTheInvariant
  intro p s t h ht
  obtain ⟨-, he⟩ | ⟨ms, -, he⟩ | ⟨ms, -, he⟩ | ⟨ms, -, he⟩ | ⟨w, ms, -, -, he⟩ | ⟨w, ms, r, -, -, he⟩ :=
    stepWith_cases p s <;> rw [he] at ht
  · exact inv_engineStep h ht
  · exact inv_engineStep (inv_setSchedule h ms) ht
  · cases ht; exact inv_dropRsp (inv_setSchedule h ms)
  · cases ht; exact inv_dropRsp (inv_clearBlock _)
  · exact inv_performWord (inv_setSchedule h ms) ht
  · cases ht; exact inv_dropRsp h

/-! ### Runs from reset -/

/-- What every step keeps, every run keeps. -/
theorem runWith_keeps {p : TiePolicy} {P : State → Prop} (hstep : ∀ s t, P s → stepWith p s = .next t → P t)
    {k : Nat} {s t : State} (h : P s) (ht : runWith p k s = .next t) : P t := by
  induction k generalizing s with
  | zero => cases ht; exact h
  | succ k ih =>
    obtain ⟨u, hu, hrun⟩ := runWith_succ_inv ht
    exact ih (hstep s u h hu) hrun

theorem inv_reset (ms : List Move) : Inv (State.reset.setSchedule ms) := inv_setSchedule (inv_clearBlock State.reset) ms

theorem inv_of_runWith_reset {p : TiePolicy} {ms : List Move} {k : Nat} {t : State}
    (ht : runWith p k (State.reset.setSchedule ms) = .next t) : Inv t :=
  runWith_keeps (stepKeepsTheInvariant p) (inv_reset ms) ht

/-- QCOUNT is at most LEAF_COUNT, which is at most 256. -/
theorem PhaseInv.qCount_le {s : State} (h : PhaseInv s) : s.qCount.toNat ≤ 256 := by
  cases hp : s.phase with
  | load => obtain ⟨-, -, hq, -⟩ := h.load hp; omega
  | busy => obtain ⟨-, hL, hLn, -, hsum, -⟩ := h.busy hp; omega
  | done => obtain ⟨-, -, -, hq, -⟩ := h.done hp; omega
  | fail => obtain ⟨-, -, hq, -⟩ := h.fail hp; omega

theorem counts_of_load_or_fail {s : State} (h : Inv s) (hp : s.phase = .load ∨ s.phase = .fail) :
    s.leafCount.toNat = 0 ∧ s.nodeCount.toNat = 0 := by
  rcases hp with hp | hp
  · obtain ⟨hL, hn, -⟩ := h.phases.load hp
    exact ⟨hL, hn⟩
  · obtain ⟨hL, hn, -⟩ := h.phases.fail hp
    exact ⟨hL, hn⟩

/-- Before BUILD and after an empty one there is no node to speak of. -/
theorem treeInv_of_load_or_fail {s : State} (h : Inv s) (hp : s.phase = .load ∨ s.phase = .fail) : TreeInv s := by
  obtain ⟨hL, hn⟩ := counts_of_load_or_fail h hp
  have hphase : ¬ (s.phase = .busy ∨ s.phase = .done) := by rcases hp with hp | hp <;> simp [hp]
  exact ⟨fun hb => absurd hb hphase, by simp [hL], by simp [hn], by simp [hn], fun hb => absurd hb hphase⟩

theorem mergeOrder_of_load_or_fail {s : State} (h : Inv s) (hp : s.phase = .load ∨ s.phase = .fail) : MergeOrder s := by
  obtain ⟨-, hn⟩ := counts_of_load_or_fail h hp
  exact ⟨by simp [hn], by simp [hn]⟩

/-- Settles O26: the reset state is in LOAD, where there is no tree. -/
theorem resetMeetsTheInvariants : Obligations.ResetMeetsTheInvariants := by
  unfold Obligations.ResetMeetsTheInvariants
  exact fun ms => ⟨inv_reset ms, treeInv_of_load_or_fail (inv_reset ms) (.inl rfl),
    mergeOrder_of_load_or_fail (inv_reset ms) (.inl rfl)⟩

/-! ### The word of a command -/

/-- The four fields hold all 64 bits of the word. -/
theorem joinFields_splitWord (w : CmdWord) : joinFields (splitWord w) = w := by
  refine BitVec.eq_of_getLsbD_eq (fun i hi => ?_)
  simp only [joinFields, splitWord, BitVec.getLsbD_append, BitVec.getLsbD_extractLsb']
  by_cases h1 : i < 9
  · simp [h1]
  · by_cases h2 : i < 28
    · simp [h1, show i - 9 < 19 by omega, show 9 + (i - 9) = i by omega]
    · by_cases h3 : i < 32
      · simp [h1, show ¬ i - 9 < 19 by omega, show i - 9 - 19 < 4 by omega, show 28 + (i - 9 - 19) = i by omega]
      · simp [h1, show ¬ i - 9 < 19 by omega, show ¬ i - 9 - 19 < 4 by omega, show i - 9 - 19 - 4 < 32 by omega,
          show 32 + (i - 9 - 19 - 4) = i by omega]

/-- The fields of a command are those it was made from, the unused ones 0 (30_encoding.md rules R73 and R74). -/
theorem fields_of_commandOf {op : BitVec 4} {arg : Idx} {data : Freq} {i : Instr} (h : commandOf op arg data = some i) :
    i.fields = ⟨if usesData op then data else 0#32, op, 0#19, if usesArg op then arg else 0#9⟩ := by
  unfold commandOf at h
  split_ifs at h with hop hop hop hop hop hop hop hop <;> (rw [hop]; cases h; rfl)

/-- `Decode` accepts a command only where its unused fields are 0 (30_encoding.md rule R75). -/
theorem fields_of_decodeFields {f : Fields} {i : Instr} (h : decodeFields f = .ok i) : i.fields = f := by
  unfold decodeFields at h
  split at h
  · cases h
  · rename_i j hj
    split_ifs at h with hrsv harg hdata
    cases h
    have hdata0 : usesData f.op = false → f.data = 0#32 := by simpa using hdata
    have harg0 : usesArg f.op = false → f.arg = 0#9 := by simpa using harg
    have hrsv0 : f.rsv = 0#19 := Decidable.not_not.mp hrsv
    rw [fields_of_commandOf hj, ← hrsv0]
    congr 1
    · cases hu : usesData f.op <;> simp [hu, hdata0]
    · cases hu : usesArg f.op <;> simp [hu, harg0]

theorem encode_of_decode {w : CmdWord} {i : Instr} (h : decode w = .ok i) : encode i = w := by
  rw [encode, fields_of_decodeFields h, joinFields_splitWord]

/-! ### What a step does to the block outside LOAD -/

theorem SameBlock.refl (s : State) : SameBlock s s := ⟨rfl, rfl, rfl, rfl, rfl, rfl, rfl, rfl, rfl⟩

theorem SameBlock.trans {s t u : State} (h : SameBlock s t) (h' : SameBlock t u) : SameBlock s u :=
  ⟨h'.phase.trans h.phase, h'.buildErr.trans h.buildErr, h'.leafCount.trans h.leafCount, h'.nodeCount.trans h.nodeCount,
    h'.root.trans h.root, h'.qCount.trans h.qCount, h'.freq.trans h.freq, h'.node.trans h.node, h'.inq.trans h.inq⟩

theorem sameBlock_respond (s : State) (rc : ResultCode) (d : RData) : SameBlock s (s.respond rc d) :=
  ⟨rfl, rfl, rfl, rfl, rfl, rfl, rfl, rfl, rfl⟩

theorem sameBlock_dropRsp (s : State) : SameBlock s s.dropRsp := ⟨rfl, rfl, rfl, rfl, rfl, rfl, rfl, rfl, rfl⟩

theorem sameBlock_setSchedule (s : State) (ms : List Move) : SameBlock s (s.setSchedule ms) :=
  ⟨rfl, rfl, rfl, rfl, rfl, rfl, rfl, rfl, rfl⟩

theorem sameBlock_countDraw (s : State) : SameBlock s s.countDraw := ⟨rfl, rfl, rfl, rfl, rfl, rfl, rfl, rfl, rfl⟩

/-- What a MERGE writes depends on the block alone. -/
theorem joinPair_sameBlock {s t : State} (h : SameBlock s t) (l r : Entry) : SameBlock (joinPair l r s) (joinPair l r t) := by
  obtain ⟨hphase, hbuildErr, hleafCount, hnodeCount, hroot, hqCount, hfreq, hnode, hinq⟩ := h
  constructor <;> simp [joinPair_node, joinPair_inq, *]

/-- An engine turn is a MERGE or changes nothing. -/
theorem engineStep_sameBlock {p : TiePolicy} {s t : State} (ht : engineStep p s = .next t) :
    SameBlock s t ∨ (s.phase = .busy ∧ ∃ l r, SameBlock (joinPair l r s) t) := by
  obtain ⟨-, rfl⟩ | ⟨hp, -, hm⟩ | ⟨hp, -, hm⟩ := engineStep_cases ht
  · exact .inl (.refl t)
  · obtain ⟨-, l, r, -, -, -, rfl⟩ := mergeWith_next hm
    exact .inr ⟨hp, l, r, .refl _⟩
  · obtain ⟨-, l, r, -, -, -, rfl⟩ := mergeWith_next hm
    exact .inr ⟨hp, l, r, joinPair_sameBlock (sameBlock_countDraw s) l r⟩

/-- Outside LOAD no command but CLEAR changes the block. -/
theorem exec_sameBlock {i : Instr} {s t : State} (ht : exec i s = .next t) (hp : s.phase ≠ .load) (hi : i ≠ .clear) :
    SameBlock s t := by
  obtain ⟨rc, d, rfl | ⟨hload, -⟩ | ⟨-, hload, -⟩ | ⟨-, hload, -⟩ | ⟨hclear, -⟩⟩ := exec_cases ht
  · exact sameBlock_respond s rc d
  · exact absurd hload hp
  · exact absurd hload hp
  · exact absurd hload hp
  · exact absurd hclear hi

/-- Outside LOAD no word but that of CLEAR changes the block. -/
theorem performWord_sameBlock {w : CmdWord} {s t : State} (ht : performWord w s = .next t) (hp : s.phase ≠ .load)
    (hw : encode .clear ≠ w) : SameBlock s t := by
  unfold performWord at ht
  split at ht
  · rename_i i hi
    exact exec_sameBlock ht hp (fun hclear => hw (encode_of_decode (hclear ▸ hi)))
  · cases ht
    exact sameBlock_respond s .badCmd 0#64

/-- Outside LOAD a step that is no abort leaves the block as it is or is a MERGE. -/
theorem stepWith_sameBlock {p : TiePolicy} {s t : State} (ht : stepWith p s = .next t) (hp : s.phase ≠ .load)
    (ha : abortsNext s = false) : SameBlock s t ∨ (s.phase = .busy ∧ ∃ l r, SameBlock (joinPair l r s) t) := by
  obtain ⟨-, he⟩ | ⟨ms, -, he⟩ | ⟨ms, -, he⟩ | ⟨ms, hs, -⟩ | ⟨w, ms, hs, hr, he⟩ | ⟨w, ms, r, -, -, he⟩ :=
    stepWith_cases p s
  · exact engineStep_sameBlock (he.symm.trans ht)
  · have hms := sameBlock_setSchedule s ms
    obtain hsame | ⟨hb, l, r, hjoin⟩ := engineStep_sameBlock (he.symm.trans ht)
    · exact .inl (hms.trans hsame)
    · exact .inr ⟨hb, l, r, (joinPair_sameBlock hms l r).trans hjoin⟩
  · cases he.symm.trans ht
    exact .inl ((sameBlock_setSchedule s ms).trans (sameBlock_dropRsp _))
  · simp [abortsNext, hs] at ha
  · have hw : encode .clear ≠ w := by simpa [abortsNext, hs, State.cmdReady, hr] using ha
    exact .inl ((sameBlock_setSchedule s ms).trans (performWord_sameBlock (he.symm.trans ht) hp hw))
  · cases he.symm.trans ht
    exact .inl (sameBlock_dropRsp s)

/-- Settles O38: the invariant holds along the run (`inv_of_runWith_reset`), and a MERGE does not write FREQ. -/
theorem reachableStatesMeetThePhaseInvariant : Obligations.ReachableStatesMeetThePhaseInvariant := by
  unfold Obligations.ReachableStatesMeetThePhaseInvariant
  constructor
  · intro p ms k t ht
    have hphases := (inv_of_runWith_reset ht).phases
    exact ⟨hphases, Nat.le_of_lt_succ t.nodeCount.isLt, hphases.qCount_le⟩
  · intro p s t ht hp ha v
    have hfreq : t.freq = s.freq := by
      obtain hsame | ⟨-, l, r, hjoin⟩ := stepWith_sameBlock ht hp ha
      · exact hsame.freq
      · rw [hjoin.freq, joinPair_freq]
    rw [State.freqAt, State.freqAt, hfreq]

/-! ### CLEAR and reset -/

theorem sameBlock_clear {s t : State} (ht : exec .clear s = .next t) : SameBlock State.reset t := by
  cases ht
  exact ⟨rfl, rfl, rfl, rfl, rfl, rfl, rfl, rfl, rfl⟩

/-- An abort gives the reset state of the block. -/
theorem stepWith_abort {p : TiePolicy} {s t : State} (ht : stepWith p s = .next t) (ha : abortsNext s = true) :
    SameBlock State.reset t := by
  obtain ⟨hs, -⟩ | ⟨ms, hs, -⟩ | ⟨ms, hs, -⟩ | ⟨ms, -, he⟩ | ⟨w, ms, hs, -, he⟩ | ⟨w, ms, r, hs, hr, -⟩ :=
    stepWith_cases p s
  · simp [abortsNext, hs] at ha
  · simp [abortsNext, hs] at ha
  · simp [abortsNext, hs] at ha
  · cases he.symm.trans ht
    exact sameBlock_resetBlock _
  · simp only [abortsNext, hs, Bool.and_eq_true, decide_eq_true_iff] at ha
    obtain ⟨-, rfl⟩ := ha
    exact sameBlock_clear (he.symm.trans ht)
  · simp [abortsNext, hs, State.cmdReady, hr] at ha

theorem State.doneOut_iff (s : State) : s.doneOut = true ↔ s.phase = .done ∨ s.phase = .fail := by
  simp [State.doneOut]

/-- Settles O23: in DONE and FAIL a step that is no abort leaves the block as it is. -/
theorem doneFallsOnlyOnClearOrReset : Obligations.DoneFallsOnlyOnClearOrReset := by
  unfold Obligations.DoneFallsOnlyOnClearOrReset
  refine ⟨State.doneOut_iff, fun p s t ht hs hfall => ?_⟩
  have hphase := s.doneOut_iff.mp hs
  cases ha : abortsNext s with
  | true => exact ⟨(stepWith_abort ht ha).phase, rfl⟩
  | false =>
    have hload : s.phase ≠ .load := by rcases hphase with hp | hp <;> simp [hp]
    obtain hsame | ⟨hbusy, -⟩ := stepWith_sameBlock ht hload ha
    · have hkeep : t.doneOut = s.doneOut := by rw [State.doneOut, State.doneOut, hsame.phase]
      simp [hkeep, hs] at hfall
    · simp [hbusy] at hphase

/-- Settles O24: both give the block of the reset state. -/
theorem resetAndClearValues : Obligations.ResetAndClearValues := by
  unfold Obligations.ResetAndClearValues
  intro t ht
  have hblock : SameBlock State.reset t := by
    obtain rfl | ⟨s, hs⟩ := ht
    · exact .refl _
    · exact sameBlock_clear hs
  obtain ⟨hphase, hbuildErr, hleafCount, hnodeCount, hroot, hqCount, hfreq, hnode, hinq⟩ := hblock
  refine ⟨hphase, hbuildErr, hleafCount, hnodeCount, hroot, hqCount, fun v => ?_, fun i => ?_, fun i => ?_, ?_⟩
  · rw [State.freqAt, hfreq]; rfl
  · rw [State.inqAt, hinq]; rfl
  · rw [State.nodeAt, hnodeCount, hnode]; rfl
  · rw [State.doneOut, hphase]; rfl

/-! ### Records at or above NODE_COUNT -/

/-- The queue bits after BUILD's loop depend on those before it alone. -/
theorem placeLeaves_inq_congr {s t : State} (k : Nat) (vs : List Nat) (h : t.inq = s.inq) :
    (placeLeaves t k vs).inq = (placeLeaves s k vs).inq := by
  induction vs generalizing s t k with
  | nil => exact h
  | cons v vs ih =>
    unfold placeLeaves
    exact ih (k + 1) (by simp [h])

section
variable {s t : State} (h : SameVisible s t)
include h

/-- What does not look at NODE is the same in both states. -/
theorem SameVisible.congr {α : Type} (f : State → α) (hf : ∀ u m, f { u with node := m } = f u) : f t = f s :=
  (congrArg f h.others).trans (hf s t.node)

/-- An update that neither looks at NODE nor changes a record keeps the two states alike. -/
theorem SameVisible.map (f : State → State) (hf : ∀ u m, f { u with node := m } = { f u with node := m })
    (hnodes : ∀ u i, (f u).nodeAt i = u.nodeAt i) : SameVisible (f s) (f t) where
  others := by
    have heq : f t = { f s with node := t.node } := (congrArg f h.others).trans (hf s t.node)
    rw [heq]
  nodes i := by rw [hnodes, hnodes, h.nodes]

theorem SameVisible.phase : t.phase = s.phase := h.congr State.phase (fun _ _ => rfl)
theorem SameVisible.nodeCount : t.nodeCount = s.nodeCount := h.congr State.nodeCount (fun _ _ => rfl)
theorem SameVisible.rsp : t.rsp = s.rsp := h.congr State.rsp (fun _ _ => rfl)
theorem SameVisible.schedule : t.schedule = s.schedule := h.congr State.schedule (fun _ _ => rfl)
theorem SameVisible.draws : t.draws = s.draws := h.congr State.draws (fun _ _ => rfl)
theorem SameVisible.freqAt (v : Nat) : t.freqAt v = s.freqAt v := h.congr (State.freqAt · v) (fun _ _ => rfl)
theorem SameVisible.symbols : t.symbols = s.symbols := h.congr State.symbols (fun _ _ => rfl)
theorem SameVisible.queue : t.queue = s.queue := h.congr State.queue (fun _ _ => rfl)
theorem SameVisible.statusWord : t.statusWord = s.statusWord := h.congr State.statusWord (fun _ _ => rfl)
theorem SameVisible.idxOutOfRange (idx : Idx) : idxOutOfRange t idx = idxOutOfRange s idx :=
  h.congr (Machine.idxOutOfRange · idx) (fun _ _ => rfl)

theorem SameVisible.doneOut : t.doneOut = s.doneOut := h.congr State.doneOut (fun _ _ => rfl)

theorem SameVisible.respond (rc : ResultCode) (d : RData) : SameVisible (s.respond rc d) (t.respond rc d) :=
  h.map (State.respond · rc d) (fun _ _ => rfl) (fun _ _ => rfl)

theorem SameVisible.dropRsp : SameVisible s.dropRsp t.dropRsp :=
  h.map State.dropRsp (fun _ _ => rfl) (fun _ _ => rfl)

theorem SameVisible.setSchedule (ms : List Move) : SameVisible (s.setSchedule ms) (t.setSchedule ms) :=
  h.map (State.setSchedule · ms) (fun _ _ => rfl) (fun _ _ => rfl)

theorem SameVisible.countDraw : SameVisible s.countDraw t.countDraw :=
  h.map State.countDraw (fun _ _ => rfl) (fun _ _ => rfl)

theorem SameVisible.writeFreq (sym : Nat) (v : Freq) : SameVisible (s.writeFreq sym v) (t.writeFreq sym v) :=
  h.map (State.writeFreq · sym v) (fun _ _ => rfl) (fun _ _ => rfl)

theorem SameVisible.setPhase (v : Phase) : SameVisible (s.setPhase v) (t.setPhase v) :=
  h.map (State.setPhase · v) (fun _ _ => rfl) (fun _ _ => rfl)

theorem SameVisible.setBuildErr (v : BitVec 3) : SameVisible (s.setBuildErr v) (t.setBuildErr v) :=
  h.map (State.setBuildErr · v) (fun _ _ => rfl) (fun _ _ => rfl)

/-- CLEAR drops every record. -/
theorem SameVisible.clearBlock : SameVisible s.clearBlock t.clearBlock :=
  ⟨h.congr State.clearBlock (fun _ _ => rfl), fun _ => rfl⟩

theorem SameVisible.resetBlock : SameVisible s.resetBlock t.resetBlock := h.clearBlock.dropRsp

/-- BUILD writes every record below the NODE_COUNT it sets. -/
theorem SameVisible.startBuild {vs : List Nat} (hvs : vs.length < 512) :
    SameVisible (startBuild (BitVec.ofNat 9 vs.length) (placeLeaves s 0 vs))
      (startBuild (BitVec.ofNat 9 vs.length) (placeLeaves t 0 vs)) where
  others := by
    have hinq : (placeLeaves t 0 vs).inq = (placeLeaves s 0 vs).inq :=
      h.congr (fun u => (placeLeaves u 0 vs).inq) (fun u m => placeLeaves_inq_congr 0 vs rfl)
    rw [startBuild_frame, startBuild_frame, placeLeaves_frame t, hinq, placeLeaves_frame s, h.others]
  nodes i := by
    have hcount : (BitVec.ofNat 9 vs.length).toNat = vs.length := by
      rw [BitVec.toNat_ofNat]; exact Nat.mod_eq_of_lt hvs
    simp only [startBuild_frame, State.nodeAt, hcount, placeLeaves_node, Nat.zero_le, true_and, Nat.zero_add, h.freqAt]
    by_cases hi : i < vs.length <;> simp [hi]

/-- MERGE reads visible records and writes the record that becomes visible. -/
theorem SameVisible.joinPair (l r : Entry) (hn : s.nodeCount ≠ 511#9) : SameVisible (joinPair l r s) (joinPair l r t) where
  others := by
    have hinq : (Machine.joinPair l r t).inq = (Machine.joinPair l r s).inq := by
      rw [joinPair_inq, joinPair_inq, h.congr State.inq (fun _ _ => rfl), h.nodeCount]
    rw [joinPair_frame l r t, joinPair_frame l r s, hinq, h.others]
  nodes i := by
    rw [joinPair_nodeAt l r t (h.nodeCount ▸ hn), joinPair_nodeAt l r s hn, h.nodeCount, h.nodes]

end

/-- Where the first outcome is a next state, so is the second, and the two states differ in no visible record. -/
def NextSameVisible (o o' : Host.Outcome State Fault Refusal) : Prop :=
  ∀ s', o = .next s' → ∃ t', o' = .next t' ∧ SameVisible s' t'

theorem nextSameVisible_next {s t : State} (h : SameVisible s t) : NextSameVisible (.next s) (.next t) := by
  intro s' hs
  cases hs
  exact ⟨t, rfl, h⟩

theorem nextSameVisible_raise {s t : State} (h : SameVisible s t) (code : ResultCode) :
    NextSameVisible (raise code s) (raise code t) := nextSameVisible_next (h.respond code 0#64)

/-- Every command answers the two states alike: its checks look at no record but NODE_RD's, which is a visible one. -/
theorem exec_nextSameVisible {s t : State} (h : SameVisible s t) (i : Instr) : NextSameVisible (exec i s) (exec i t) := by
  cases i with
  | nop => exact nextSameVisible_next (h.respond _ _)
  | clear => exact nextSameVisible_next (h.clearBlock.respond _ _)
  | statusRd =>
    simp only [exec, execStatusRd, h.statusWord]
    exact nextSameVisible_next (h.respond _ _)
  | freqWr sym value =>
    simp only [exec, execFreqWr, h.phase]
    split
    · exact nextSameVisible_raise h _
    · split
      · exact nextSameVisible_raise h _
      · exact nextSameVisible_next ((h.writeFreq _ _).respond _ _)
  | freqInc sym =>
    simp only [exec, execFreqInc, h.phase, h.freqAt]
    split
    · exact nextSameVisible_raise h _
    · split
      · exact nextSameVisible_raise h _
      · split
        · exact nextSameVisible_raise h _
        · exact nextSameVisible_next ((h.writeFreq _ _).respond _ _)
  | freqRd sym =>
    simp only [exec, execFreqRd, h.freqAt]
    split
    · exact nextSameVisible_raise h _
    · exact nextSameVisible_next (h.respond _ _)
  | build =>
    simp only [exec, execBuild, h.phase, h.symbols]
    split
    · exact nextSameVisible_raise h _
    · split
      · exact nextSameVisible_next (((h.setPhase _).setBuildErr _).respond _ _)
      · exact nextSameVisible_next ((h.startBuild (Nat.lt_of_le_of_lt s.symbols_length_le (by decide))).respond _ _)
  | nodeRd idx =>
    simp only [exec, execNodeRd, h.phase, h.idxOutOfRange, h.nodes]
    split
    · exact nextSameVisible_raise h _
    · split
      · exact nextSameVisible_raise h _
      · split
        · exact fun _ hs => nomatch hs
        · exact nextSameVisible_next (h.respond _ _)

theorem performWord_nextSameVisible {s t : State} (h : SameVisible s t) (w : CmdWord) :
    NextSameVisible (performWord w s) (performWord w t) := by
  unfold performWord
  split
  · exact exec_nextSameVisible h _
  · exact nextSameVisible_raise h _

theorem mergeWith_nextSameVisible {s t : State} (h : SameVisible s t) (p : TiePolicy) (pick : TiePick) :
    NextSameVisible (mergeWith p pick s) (mergeWith p pick t) := by
  intro s' hs
  obtain ⟨es, l, r, hes, hpair, hn, rfl⟩ := mergeWith_next hs
  have hes' : weigh t t.queue = some es := by rw [h.queue, weigh_congr h.nodes, hes]
  exact ⟨_, mergeWith_eq hes' hpair (h.nodeCount ▸ hn), h.joinPair l r hn⟩

theorem engineStep_nextSameVisible {s t : State} (h : SameVisible s t) (p : TiePolicy) :
    NextSameVisible (engineStep p s) (engineStep p t) := by
  unfold engineStep
  rw [h.phase]
  split
  · exact nextSameVisible_next h
  · cases p with
    | indexOrder => exact mergeWith_nextSameVisible h _ _
    | anyMin =>
      rw [h.draws]
      exact mergeWith_nextSameVisible h.countDraw _ _

theorem stepWith_nextSameVisible {s t : State} (h : SameVisible s t) (p : TiePolicy) :
    NextSameVisible (stepWith p s) (stepWith p t) := by
  unfold stepWith State.cmdReady
  rw [h.schedule, h.rsp]
  split
  · exact engineStep_nextSameVisible h p
  · exact engineStep_nextSameVisible (h.setSchedule _) p
  · exact nextSameVisible_next (h.setSchedule _).dropRsp
  · exact nextSameVisible_next (h.setSchedule _).resetBlock
  · split
    · exact performWord_nextSameVisible (h.setSchedule _) _
    · exact nextSameVisible_next h.dropRsp

/-- What a step shows depends on the channels and the level of `done` before and after it. -/
theorem observe_of_sameVisible {s t s' t' : State} (h : SameVisible s t) (h' : SameVisible s' t') (sent : Option CmdWord) :
    observe sent t t' = observe sent s s' := by
  have htransferred : transferred t = transferred s := by rw [transferred, transferred, h.schedule, h.rsp]
  simp only [observe, htransferred, h.doneOut, h'.doneOut]

theorem outstanding_of_sameVisible {s t : State} (h : SameVisible s t) (sent : Option CmdWord) :
    outstanding sent t = outstanding sent s := by
  rw [outstanding, outstanding, State.cmdReady, State.cmdReady, h.schedule, h.rsp]

/-- Settles O49: the step is the same (`stepWith_nextSameVisible`), and what shows looks at no record. -/
theorem absentRecordsCannotBeObserved : Obligations.AbsentRecordsCannotBeObserved := by
  unfold Obligations.AbsentRecordsCannotBeObserved
  intro p s t s' h hs
  obtain ⟨t', ht, h'⟩ := stepWith_nextSameVisible h p s' hs
  exact ⟨t', ht, h', h'.doneOut, fun sent => ⟨observe_of_sameVisible h h' sent, outstanding_of_sameVisible h sent⟩⟩

end Sys2Proof.Machine
end

section
/-! PROOF. The obligation of 20_memory.md rule R56: a read writes no state, so that repeated it answers the same; FREQ_WR
is idempotent; and each FREQ_INC that is accepted adds 1. The common ground is that no command looks at the response
channel (`exec_respond`): after an answer that wrote nothing else, the same command does the same again. -/

namespace Sys2Proof.Machine

/-! ### Overwriting an array entry -/

theorem Memory.filter_ne_insert {α : Type} (m : Memory α) (i : Nat) (v : α) :
    (Memory.insert i v m).filter (fun e => e.1 ≠ i) = m.filter (fun e => e.1 ≠ i) := by
  induction m with
  | nil => simp [Memory.insert]
  | cons e m ih =>
    obtain ⟨k, w⟩ := e
    unfold Memory.insert
    split
    · simp
    · rw [List.filter_cons, List.filter_cons, ih]

/-- Of two writes to one index the second alone counts, on every list of pairs. -/
@[simp] theorem Memory.write_write {α : Type} [DecidableEq α] (d : α) (m : Memory α) (i : Nat) (v w : α) :
    Memory.write d (Memory.write d m i v) i w = Memory.write d m i w := by
  have hrest : (Memory.write d m i v).filter (fun e => e.1 ≠ i) = m.filter (fun e => e.1 ≠ i) := by
    unfold Memory.write
    by_cases hv : v = d
    · simp only [if_pos hv, List.filter_filter, Bool.and_self]
    · simp only [if_neg hv, Memory.filter_ne_insert, List.filter_filter, Bool.and_self]
  exact congrArg (fun rest => if w = d then rest else Memory.insert i w rest) hrest

@[simp] theorem State.writeFreq_writeFreq (s : State) (sym : Nat) (v w : Freq) :
    (s.writeFreq sym v).writeFreq sym w = s.writeFreq sym w :=
  congrArg (fun m => { s with freq := m }) (Memory.write_write 0#32 s.freq sym v w)

/-! ### No command looks at the response channel -/

theorem placeLeaves_respond (s : State) (k : Nat) (vs : List Nat) (rc : ResultCode) (d : RData) :
    placeLeaves (s.respond rc d) k vs = (placeLeaves s k vs).respond rc d := by
  induction vs generalizing s k with
  | nil => rfl
  | cons v vs ih => exact ih ((s.writeNode k (leafRec v (s.freqAt v))).writeInq k true) (k + 1)

/-- What a command does is the same whatever response stood in the channel before. -/
theorem exec_respond (i : Instr) (s : State) (rc : ResultCode) (d : RData) : exec i (s.respond rc d) = exec i s := by
  cases i with
  | build =>
    change execBuild (s.respond rc d) = execBuild s
    have hsymbols : (s.respond rc d).symbols = s.symbols := rfl
    unfold execBuild
    rw [hsymbols, placeLeaves_respond]
    rfl
  | nop | clear | freqWr _ _ | freqInc _ | freqRd _ | nodeRd _ | statusRd => rfl

/-- A command whose answer is all it wrote does the same again. -/
theorem exec_repeats_of_respond {i : Instr} {s u : State} {rc : ResultCode} {d : RData}
    (ht : exec i s = .next (s.respond rc d)) (hu : exec i (s.respond rc d) = .next u) : u = s.respond rc d := by
  rw [exec_respond, ht] at hu
  exact (Host.Outcome.next.inj hu).symm

/-! ### What each command of rule R56 can do -/

/-- STATUS_RD, FREQ_RD and NODE_RD write the response channel only. -/
theorem read_next {i : Instr} {s t : State} (hi : i = .statusRd ∨ (∃ sym, i = .freqRd sym) ∨ ∃ idx, i = .nodeRd idx)
    (ht : exec i s = .next t) : ∃ rc d, t = s.respond rc d := by
  obtain rfl | ⟨sym, rfl⟩ | ⟨idx, rfl⟩ := hi
  · exact ⟨_, _, (Host.Outcome.next.inj ht).symm⟩
  · change execFreqRd sym s = _ at ht
    unfold execFreqRd raise at ht
    split at ht <;> exact ⟨_, _, (Host.Outcome.next.inj ht).symm⟩
  · change execNodeRd idx s = _ at ht
    unfold execNodeRd raise at ht
    split at ht
    · exact ⟨_, _, (Host.Outcome.next.inj ht).symm⟩
    · split at ht
      · exact ⟨_, _, (Host.Outcome.next.inj ht).symm⟩
      · split at ht
        · cases ht
        · exact ⟨_, _, (Host.Outcome.next.inj ht).symm⟩

/-- FREQ_WR on a symbol in range, in LOAD (40_frequency.md rule R100). -/
theorem exec_freqWr_of_load {sym : Idx} {s : State} (hp : s.phase = .load) (hsym : symOutOfRange sym = false) (v : Freq) :
    exec (.freqWr sym v) s = .next ((s.writeFreq sym.toNat v).respond .ok 0#64) := by
  simp [exec, execFreqWr, hp, hsym]

/-- FREQ_WR writes the entry and answers OK, or it answers an error and writes nothing else. -/
theorem freqWr_next {sym : Idx} {v : Freq} {s t : State} (ht : exec (.freqWr sym v) s = .next t) :
    (∃ rc, rc ≠ .ok ∧ t = s.respond rc 0#64) ∨
    (s.phase = .load ∧ symOutOfRange sym = false ∧ t = (s.writeFreq sym.toNat v).respond .ok 0#64) := by
  change execFreqWr sym v s = _ at ht
  unfold execFreqWr raise at ht
  split at ht
  · exact .inl ⟨.badPhase, by decide, (Host.Outcome.next.inj ht).symm⟩
  · rename_i hp
    split at ht
    · exact .inl ⟨.badIndex, by decide, (Host.Outcome.next.inj ht).symm⟩
    · rename_i hsym
      exact .inr ⟨Decidable.not_not.mp hp, Bool.eq_false_of_not_eq_true hsym, (Host.Outcome.next.inj ht).symm⟩

/-- FREQ_INC adds 1 to an entry that is not full and answers OK, or it answers an error and writes nothing else. -/
theorem freqInc_next {sym : Idx} {s t : State} (ht : exec (.freqInc sym) s = .next t) :
    (∃ rc, rc ≠ .ok ∧ t = s.respond rc 0#64) ∨
    (s.phase = .load ∧ symOutOfRange sym = false ∧ s.freqAt sym.toNat ≠ 0xFFFFFFFF#32 ∧
      t = (s.writeFreq sym.toNat (s.freqAt sym.toNat + 1#32)).respond .ok 0#64) := by
  change execFreqInc sym s = _ at ht
  unfold execFreqInc raise at ht
  split at ht
  · exact .inl ⟨.badPhase, by decide, (Host.Outcome.next.inj ht).symm⟩
  · rename_i hp
    split at ht
    · exact .inl ⟨.badIndex, by decide, (Host.Outcome.next.inj ht).symm⟩
    · rename_i hsym
      split at ht
      · exact .inl ⟨.freqOverflow, by decide, (Host.Outcome.next.inj ht).symm⟩
      · rename_i hfull
        exact .inr ⟨Decidable.not_not.mp hp, Bool.eq_false_of_not_eq_true hsym, hfull, (Host.Outcome.next.inj ht).symm⟩

/-- Adding 1 to a count that is not full does not wrap. -/
theorem freq_add_one_toNat {v : Freq} (hv : v ≠ 0xFFFFFFFF#32) : (v + 1#32).toNat = v.toNat + 1 := by bv_omega

/-! ### Rule R56 -/

theorem read_repeats {i : Instr} {s t u : State}
    (hi : i = .statusRd ∨ (∃ sym, i = .freqRd sym) ∨ ∃ idx, i = .nodeRd idx)
    (ht : exec i s = .next t) (hu : exec i t = .next u) : t = { s with rsp := t.rsp } ∧ u = t := by
  obtain ⟨rc, d, rfl⟩ := read_next hi ht
  exact ⟨rfl, exec_repeats_of_respond ht hu⟩

theorem freqWr_idempotent {sym : Idx} {v : Freq} {s t u : State} (ht : exec (.freqWr sym v) s = .next t)
    (hu : exec (.freqWr sym v) t = .next u) : u = t := by
  obtain ⟨rc, -, rfl⟩ | ⟨hp, hsym, rfl⟩ := freqWr_next ht
  · exact exec_repeats_of_respond ht hu
  · have hp' : (s.writeFreq sym.toNat v).phase = .load := hp
    rw [exec_respond, exec_freqWr_of_load hp' hsym, State.writeFreq_writeFreq] at hu
    exact (Host.Outcome.next.inj hu).symm

theorem freqInc_adds_one {sym : Idx} {s t : State} (ht : exec (.freqInc sym) s = .next t)
    (hok : t.rsp = some ⟨.ok, 0#64⟩) : (t.freqAt sym.toNat).toNat = (s.freqAt sym.toNat).toNat + 1 := by
  obtain ⟨rc, hrc, rfl⟩ | ⟨-, -, hfull, rfl⟩ := freqInc_next ht
  · exact absurd (by simpa using hok) hrc
  · rw [State.respond_freqAt, State.writeFreq_freqAt, if_pos rfl]
    exact freq_add_one_toNat hfull

/-- Settles O43: the channel is all a read writes (`read_repeats`), a second write of the same value finds it there
(`freqWr_idempotent`), and an accepted increment does not wrap (`freqInc_adds_one`). -/
theorem readsRepeatAndWritesAreIdempotent : Obligations.ReadsRepeatAndWritesAreIdempotent := by
  unfold Obligations.ReadsRepeatAndWritesAreIdempotent
  exact ⟨fun _ _ _ _ hi ht hu => read_repeats hi ht hu, fun _ _ _ _ _ ht hu => freqWr_idempotent ht hu,
    fun _ _ _ ht hok => freqInc_adds_one ht hok⟩

end Sys2Proof.Machine
end

section
/-! PROOF. The obligations of 30_encoding.md about words: encoding and decoding are inverse to each other (rules R72 to R75),
the match and mask table is the decoder (R74, R75), and the sample words. The key fact is `row_matches_iff`: a row of the
table matches exactly the words that decode to its mnemonic. -/

namespace Sys2Proof.Machine

/-! ### The word of a command gives the command back -/

/-- The fields a word was made from are those it splits into (30_encoding.md rule R72). -/
theorem splitWord_joinFields (f : Fields) : splitWord (joinFields f) = f := by
  obtain ⟨data, op, rsv, arg⟩ := f
  simp only [splitWord, joinFields, Fields.mk.injEq]
  -- the widths stay sums, so that the lemmas about `++` find the parts
  simp [BitVec.extractLsb'_append_eq_of_le, BitVec.extractLsb'_append_eq_right, -Nat.reduceAdd]

theorem decodeFields_fields (i : Instr) : decodeFields i.fields = .ok i := by
  cases i with
  | nop => exact Laws.FieldsRoundTrip.nop
  | clear => exact Laws.FieldsRoundTrip.clear
  | freqWr sym value => exact Laws.FieldsRoundTrip.freqWr sym value
  | freqInc sym => exact Laws.FieldsRoundTrip.freqInc sym
  | freqRd sym => exact Laws.FieldsRoundTrip.freqRd sym
  | build => exact Laws.FieldsRoundTrip.build
  | nodeRd idx => exact Laws.FieldsRoundTrip.nodeRd idx
  | statusRd => exact Laws.FieldsRoundTrip.statusRd

@[simp] theorem decode_encode (i : Instr) : decode (encode i) = .ok i := by
  rw [decode, encode, splitWord_joinFields, decodeFields_fields]

/-- Settles O1: the fields survive being joined to a word, and decoding the fields gives the command back. -/
theorem decodeOfEncodeIsIdentity : Obligations.DecodeOfEncodeIsIdentity := by
  unfold Obligations.DecodeOfEncodeIsIdentity
  exact decode_encode

/-- Settles O2: a command is decoded only where its unused fields are 0, and the fields hold all 64 bits of the word. -/
theorem encodeOfDecodeIsIdentity : Obligations.EncodeOfDecodeIsIdentity := by
  unfold Obligations.EncodeOfDecodeIsIdentity
  exact fun _ _ => encode_of_decode

/-! ### The match and mask table -/

/-- The opcode of a row, the OP field of its match. -/
def rowOpcode (r : OpcodeRow) : BitVec 4 := (splitWord r.matchBits).op

/-- MNEMONIC[op] of 30_encoding.md rule R75, as the decoder has it. -/
def mnemonicOf (op : BitVec 4) : Option String := (commandOf op 0#9 0#32).map Instr.mnemonic

/-- The mnemonic does not depend on the operands. -/
theorem mnemonicOf_of_commandOf {op : BitVec 4} {arg : Idx} {data : Freq} :
    (commandOf op arg data).map Instr.mnemonic = mnemonicOf op := by
  unfold mnemonicOf commandOf
  split_ifs <;> rfl

/-- Every row demands its opcode, 0 in the reserved field and 0 in the operand fields its command does not use. -/
theorem opcodeRows_fields : ∀ r ∈ opcodeRows,
    splitWord r.matchBits = ⟨0#32, rowOpcode r, 0#19, 0#9⟩ ∧
    splitWord r.maskBits = ⟨if usesData (rowOpcode r) then 0#32 else BitVec.allOnes 32, BitVec.allOnes 4, BitVec.allOnes 19,
      if usesArg (rowOpcode r) then 0#9 else BitVec.allOnes 9⟩ := by
  decide

/-- The decoder names the opcode of a row as the row does, and no other opcode. -/
theorem mnemonicOf_eq_iff : ∀ r ∈ opcodeRows, ∀ op, mnemonicOf op = some r.mnemonic ↔ op = rowOpcode r := by
  decide

theorem opcodeRows_eq_of_mnemonic : ∀ r ∈ opcodeRows, ∀ q ∈ opcodeRows, r.mnemonic = q.mnemonic → r = q := by
  decide

theorem splitWord_and (w v : CmdWord) :
    splitWord (w &&& v) = ⟨(splitWord w).data &&& (splitWord v).data, (splitWord w).op &&& (splitWord v).op,
      (splitWord w).rsv &&& (splitWord v).rsv, (splitWord w).arg &&& (splitWord v).arg⟩ := by
  simp [splitWord, BitVec.extractLsb'_and]

theorem splitWord_inj {w v : CmdWord} : splitWord w = splitWord v ↔ w = v :=
  ⟨fun h => by rw [← joinFields_splitWord w, h, joinFields_splitWord], fun h => h ▸ rfl⟩

/-- Under a mask that is 0 where the field is used and all ones where it is not, only an unused field must be 0. -/
theorem and_mask_eq_zero_iff {n : Nat} (used : Bool) (x : BitVec n) :
    x &&& (if used then 0#n else BitVec.allOnes n) = 0#n ↔ (used = false → x = 0#n) := by
  cases used <;> simp

/-- What a row demands of a word, field by field. -/
theorem row_matches_iff_fields {r : OpcodeRow} (hr : r ∈ opcodeRows) (w : CmdWord) :
    r.matches w = true ↔
      (splitWord w).op = rowOpcode r ∧ (splitWord w).rsv = 0#19 ∧
      (usesArg (rowOpcode r) = false → (splitWord w).arg = 0#9) ∧
      (usesData (rowOpcode r) = false → (splitWord w).data = 0#32) := by
  obtain ⟨hmatch, hmask⟩ := opcodeRows_fields r hr
  rw [OpcodeRow.matches, beq_iff_eq, ← splitWord_inj, splitWord_and, hmatch, hmask]
  simp only [Fields.mk.injEq, and_mask_eq_zero_iff, BitVec.and_allOnes]
  tauto

/-- The check of `Decode` on an operand field fails where the field is unused and not 0. -/
theorem unused_check_iff {n : Nat} (used : Bool) (x : BitVec n) :
    (!used && x != 0#n) = true ↔ ¬ (used = false → x = 0#n) := by
  cases used <;> simp

/-- What `Decode` demands of the fields (30_encoding.md rule R75). -/
theorem decodeFields_eq_ok_iff (f : Fields) (i : Instr) :
    decodeFields f = .ok i ↔
      commandOf f.op f.arg f.data = some i ∧ f.rsv = 0#19 ∧
      (usesArg f.op = false → f.arg = 0#9) ∧ (usesData f.op = false → f.data = 0#32) := by
  unfold decodeFields
  cases commandOf f.op f.arg f.data with
  | none => simp
  | some j =>
    simp only [unused_check_iff, ne_eq, ite_not]
    split_ifs with hrsv harg hdata
    · simp [hrsv, iff_true_intro harg, iff_true_intro hdata]
    · simp [hdata]
    · simp [harg]
    · simp [hrsv]

/-- `Decode(w)` = m exactly when `w & mask(m) = match(m)` (30_encoding.md rule R75, last paragraph). -/
theorem row_matches_iff {r : OpcodeRow} (hr : r ∈ opcodeRows) (w : CmdWord) :
    r.matches w = true ↔ ∃ i, decode w = .ok i ∧ i.mnemonic = r.mnemonic := by
  have hname := mnemonicOf_eq_iff r hr (splitWord w).op
  rw [← mnemonicOf_of_commandOf (arg := (splitWord w).arg) (data := (splitWord w).data), Option.map_eq_some_iff] at hname
  simp only [row_matches_iff_fields hr, decode, decodeFields_eq_ok_iff]
  constructor
  · rintro ⟨hop, hunused⟩
    obtain ⟨i, hi, hm⟩ := hname.mpr hop
    exact ⟨i, ⟨hi, hop ▸ hunused⟩, hm⟩
  · rintro ⟨i, ⟨hi, hunused⟩, hm⟩
    have hop := hname.mp ⟨i, hi, hm⟩
    exact ⟨hop, hop ▸ hunused⟩

/-- Every command has its row. -/
theorem exists_row_of_mnemonic (i : Instr) : ∃ r ∈ opcodeRows, i.mnemonic = r.mnemonic := by
  cases i <;> simp [opcodeRows, Instr.mnemonic]

theorem wellFormedWord_iff (w : CmdWord) : wellFormedWord w = true ↔ ∃ i, decode w = .ok i := by
  rw [wellFormedWord, List.any_eq_true]
  constructor
  · rintro ⟨r, hr, hm⟩
    obtain ⟨i, hi, -⟩ := (row_matches_iff hr w).mp hm
    exact ⟨i, hi⟩
  · rintro ⟨i, hi⟩
    obtain ⟨r, hr, hm⟩ := exists_row_of_mnemonic i
    exact ⟨r, hr, (row_matches_iff hr w).mpr ⟨i, hi, hm⟩⟩

theorem tableMnemonic_of_decode {w : CmdWord} {i : Instr} (h : decode w = .ok i) : tableMnemonic w = some i.mnemonic := by
  obtain ⟨r, hr⟩ : ∃ r, opcodeRows.find? (fun r => r.matches w) = some r := by
    rw [← Option.isSome_iff_exists, List.find?_isSome]
    exact List.any_eq_true.mp ((wellFormedWord_iff w).mpr ⟨i, h⟩)
  have hmatch : r.matches w = true := List.find?_some (p := fun q : OpcodeRow => q.matches w) hr
  obtain ⟨j, hj, hm⟩ := (row_matches_iff (List.mem_of_find?_eq_some hr) w).mp hmatch
  cases h.symm.trans hj
  rw [tableMnemonic, hr, hm]
  rfl

theorem performWord_of_decode {w : CmdWord} {i : Instr} (h : decode w = .ok i) (s : State) :
    performWord w s = exec i s := by
  rw [performWord, h]

/-- A word that decodes to no command is answered BAD_CMD (30_encoding.md rule R75). -/
theorem performWord_of_not_decode {w : CmdWord} (h : ¬ ∃ i, decode w = .ok i) (s : State) :
    performWord w s = raise .badCmd s := by
  cases hw : decode w with
  | ok i => exact absurd ⟨i, hw⟩ h
  | error e => rw [performWord, hw]

/-- Settles O3: each row matches the words that decode to its mnemonic (`row_matches_iff`), and every command has a row. -/
theorem decodeAgreesWithMatchAndMask : Obligations.DecodeAgreesWithMatchAndMask := by
  unfold Obligations.DecodeAgreesWithMatchAndMask
  refine fun w s => ⟨wellFormedWord_iff w, fun i => tableMnemonic_of_decode, fun hw => ?_⟩
  have hnone : ¬ ∃ i, decode w = .ok i := by rw [← wellFormedWord_iff, hw]; decide
  exact ⟨_, performWord_of_not_decode hnone s, rfl, rfl⟩

/-- Settles O4: both rows bear the mnemonic of the one command the word decodes to. -/
theorem opcodeRowsNeverOverlap : Obligations.OpcodeRowsNeverOverlap := by
  unfold Obligations.OpcodeRowsNeverOverlap
  intro w r q hr hq hrw hqw
  obtain ⟨i, hi, hir⟩ := (row_matches_iff hr w).mp hrw
  obtain ⟨j, hj, hjq⟩ := (row_matches_iff hq w).mp hqw
  cases hi.symm.trans hj
  exact opcodeRows_eq_of_mnemonic r hr q hq (hir.symm.trans hjq)

/-- Settles O5: the words are closed, so decoding computes. -/
theorem sampleWordsDecode : Obligations.SampleWordsDecode := by
  unfold Obligations.SampleWordsDecode
  exact ⟨rfl, rfl, rfl, rfl, rfl, rfl, rfl, rfl, rfl, rfl, rfl, rfl, rfl⟩

end Sys2Proof.Machine
end

section
/-! PROOF. The obligations of 30_encoding.md rules R79 and R80 about assembler text: each mnemonic with operands leads to one
check of its operands, and the two list commands apply that check to every operand. -/

namespace Sys2Proof.Machine

/-! ### Operand checks -/

theorem argOperand_ok {a : Nat} (h : a < 512) : argOperand a = .ok (BitVec.ofNat 9 a) := if_pos h

theorem argOperand_outOfRange {a : Nat} (h : 512 ≤ a) : argOperand a = .error .outOfRange := if_neg (Nat.not_lt.mpr h)

theorem dataOperand_ok {d : Nat} (h : d < 2 ^ 32) : dataOperand d = .ok (BitVec.ofNat 32 d) := if_pos h

theorem dataOperand_outOfRange {d : Nat} (h : 2 ^ 32 ≤ d) : dataOperand d = .error .outOfRange := if_neg (Nat.not_lt.mpr h)

theorem allOperands_ok {α : Type} {f : Nat → Except AsmError α} {g : Nat → α} {ops : List Nat}
    (h : ∀ n ∈ ops, f n = .ok (g n)) : allOperands f ops = .ok (ops.map g) := by
  induction ops with
  | nil => rfl
  | cons n ns ih =>
    rw [List.forall_mem_cons] at h
    obtain ⟨hn, hns⟩ := h
    rw [allOperands, hn, ih hns, List.map_cons]

/-- If the check can fail in one way only, one operand that fails it makes the list fail that way. -/
theorem allOperands_error {α : Type} {f : Nat → Except AsmError α} {e : AsmError} {ops : List Nat}
    (hf : ∀ n, (∃ a, f n = .ok a) ∨ f n = .error e) (h : ∃ n ∈ ops, f n = .error e) :
    allOperands f ops = .error e := by
  induction ops with
  | nil => simp at h
  | cons n ns ih =>
    rw [allOperands]
    obtain ⟨a, ha⟩ | he := hf n
    · have hns : ∃ n ∈ ns, f n = .error e := by simpa [ha] using h
      rw [ha, ih hns]
    · rw [he]

theorem argOperand_cases (a : Nat) : (∃ v, argOperand a = .ok v) ∨ argOperand a = .error .outOfRange :=
  (Nat.lt_or_ge a 512).imp (fun h => ⟨_, argOperand_ok h⟩) argOperand_outOfRange

theorem dataOperand_cases (d : Nat) : (∃ v, dataOperand d = .ok v) ∨ dataOperand d = .error .outOfRange :=
  (Nat.lt_or_ge d (2 ^ 32)).imp (fun h => ⟨_, dataOperand_ok h⟩) dataOperand_outOfRange

/-! ### Commands with operands -/

theorem argCommand_ok (f : Idx → Instr) {a : Nat} (h : a < 512) :
    argCommand f [a] = .ok [.command (f (BitVec.ofNat 9 a))] := by
  simp [argCommand, argOperand_ok h]

theorem argCommand_outOfRange (f : Idx → Instr) {a : Nat} (h : 512 ≤ a) : argCommand f [a] = .error .outOfRange := by
  simp [argCommand, argOperand_outOfRange h]

theorem writeCommand_ok {a d : Nat} (ha : a < 512) (hd : d < 2 ^ 32) :
    writeCommand [a, d] = .ok [.command (.freqWr (BitVec.ofNat 9 a) (BitVec.ofNat 32 d))] := by
  simp [writeCommand, argOperand_ok ha, dataOperand_ok hd]

theorem writeCommand_outOfRange {a d : Nat} (h : 512 ≤ a ∨ 2 ^ 32 ≤ d) : writeCommand [a, d] = .error .outOfRange := by
  obtain ⟨v, ha⟩ | ha := argOperand_cases a
  · have hd : 2 ^ 32 ≤ d := h.resolve_left (fun hlarge => by rw [argOperand_outOfRange hlarge] at ha; cases ha)
    simp [writeCommand, ha, dataOperand_outOfRange hd]
  · simp [writeCommand, ha]

/-- An omitted DATA operand is 0 (30_encoding.md rule R79). -/
theorem writeCommand_omitted (a : Nat) : writeCommand [a] = writeCommand [a, 0] := rfl

theorem countCommand_ok {ops : List Nat} (h : ∀ a ∈ ops, a < 512) :
    countCommand ops = .ok (ops.map (fun a => .command (.freqInc (BitVec.ofNat 9 a)))) := by
  rw [countCommand, allOperands_ok (fun a ha => argOperand_ok (h a ha))]
  simp [freqCount]

theorem countCommand_outOfRange {ops : List Nat} (h : ∃ a ∈ ops, 512 ≤ a) : countCommand ops = .error .outOfRange := by
  obtain ⟨a, ha, hlarge⟩ := h
  rw [countCommand, allOperands_error argOperand_cases ⟨a, ha, argOperand_outOfRange hlarge⟩]

theorem loadCommand_ok {ops : List Nat} (hlen : ops.length ≤ 256) (h : ∀ d ∈ ops, d < 2 ^ 32) :
    loadCommand ops = .ok ((loadFreqs (ops.map (BitVec.ofNat 32))).map .command) := by
  rw [loadCommand, if_neg (Nat.not_lt.mpr hlen), allOperands_ok (fun d hd => dataOperand_ok (h d hd))]

theorem loadCommand_outOfRange {ops : List Nat} (hlen : ops.length ≤ 256) (h : ∃ d ∈ ops, 2 ^ 32 ≤ d) :
    loadCommand ops = .error .outOfRange := by
  obtain ⟨d, hd, hlarge⟩ := h
  rw [loadCommand, if_neg (Nat.not_lt.mpr hlen),
    allOperands_error dataOperand_cases ⟨d, hd, dataOperand_outOfRange hlarge⟩]

/-! ### Mnemonics with operands -/

theorem assembleParts_freqWr (ops : List Nat) : assembleParts ['F', 'R', 'E', 'Q', '_', 'W', 'R'] ops = writeCommand ops := rfl

theorem assembleParts_freqInc (ops : List Nat) :
    assembleParts ['F', 'R', 'E', 'Q', '_', 'I', 'N', 'C'] ops = argCommand .freqInc ops := rfl

theorem assembleParts_freqRd (ops : List Nat) :
    assembleParts ['F', 'R', 'E', 'Q', '_', 'R', 'D'] ops = argCommand .freqRd ops := rfl

theorem assembleParts_nodeRd (ops : List Nat) :
    assembleParts ['N', 'O', 'D', 'E', '_', 'R', 'D'] ops = argCommand .nodeRd ops := rfl

theorem assembleParts_freqCount (ops : List Nat) :
    assembleParts ['F', 'R', 'E', 'Q', '_', 'C', 'O', 'U', 'N', 'T'] ops = countCommand ops := rfl

theorem assembleParts_loadFreqs (ops : List Nat) :
    assembleParts ['L', 'O', 'A', 'D', '_', 'F', 'R', 'E', 'Q', 'S'] ops = loadCommand ops := rfl

/-- Settles O6: the mnemonic leads to the check of its operands, which the command's own lemma answers; the example line
computes. -/
theorem assemblerExampleAndRange : Obligations.AssemblerExampleAndRange := by
  unfold Obligations.AssemblerExampleAndRange
  simp only [assembleParts_freqWr, assembleParts_freqInc, assembleParts_freqRd, assembleParts_nodeRd, assembleParts_freqCount,
    assembleParts_loadFreqs, writeCommand_omitted]
  refine ⟨rfl, rfl, fun a d => ⟨writeCommand_ok, writeCommand_outOfRange⟩, fun a => ⟨fun ha => ?_, fun ha => ?_⟩,
    fun ops => ⟨countCommand_ok, countCommand_outOfRange, loadCommand_ok, loadCommand_outOfRange⟩⟩
  · exact ⟨writeCommand_ok ha (by decide), argCommand_ok .freqInc ha, argCommand_ok .freqRd ha, argCommand_ok .nodeRd ha⟩
  · exact ⟨writeCommand_outOfRange (.inl ha), argCommand_outOfRange .freqInc ha, argCommand_outOfRange .freqRd ha,
      argCommand_outOfRange .nodeRd ha⟩

end Sys2Proof.Machine
end

section
/-! PROOF. The obligations of 30_encoding.md about the command and response channels (rules R70, R77, R80 and R81): what a
step makes of an offered word, one response per word in order, and the pseudo-commands LOAD_FREQS, WAIT_DONE and READ_TREE. -/

namespace Sys2Proof.Machine

/-! ### An offered word -/

theorem stepWith_send_of_decode (p : TiePolicy) {s : State} {w : CmdWord} {ms : List Move} {i : Instr}
    (h : s.schedule = .sendCmd w :: ms) (hr : s.rsp = none) (hw : decode w = .ok i) :
    stepWith p s = exec i (s.setSchedule ms) :=
  (stepWith_send p h hr).trans (performWord_of_decode hw _)

/-- While a response waits, a step on an offered word only takes the response. -/
theorem stepWith_send_waiting (p : TiePolicy) {s : State} {w : CmdWord} {ms : List Move} {r : Response}
    (h : s.schedule = .sendCmd w :: ms) (hr : s.rsp = some r) : stepWith p s = .next s.dropRsp := by
  simp [stepWith, h, State.cmdReady, hr]

/-- The table's numbering of all 64 bits is the word itself. -/
theorem tableWord_toNat (w : CmdWord) : tableWord 64 w.toNat = w := by
  rw [tableWord, Nat.mod_eq_of_lt w.isLt, BitVec.ofNat_toNat, BitVec.setWidth_eq]

/-- Settles O7: the step accepts the word, and the word decodes. -/
theorem stepPerformsTheDecodedCommand : Obligations.StepPerformsTheDecodedCommand := by
  unfold Obligations.StepPerformsTheDecodedCommand
  refine ⟨fun s w ms i hs hr hw => stepWith_send_of_decode _ hs hr hw, fun s w i hw => ?_⟩
  rw [State.withFetchWord, tableWord_toNat]
  exact stepWith_send_of_decode _ (s := s.offerWord w) rfl rfl hw

/-- Settles O8: the word is not accepted, and taking the response is all that either move does. -/
theorem offeredWordWaitsForTheResponse : Obligations.OfferedWordWaitsForTheResponse := by
  unfold Obligations.OfferedWordWaitsForTheResponse
  intro p s ms r hr
  exact ⟨by simp [State.cmdReady, hr], by simp [State.rspValid, hr], fun w hs => stepWith_send_waiting p hs hr,
    fun hs => stepWith_take p hs⟩

/-! ### The response lines -/

theorem response_shown {s : State} {rc : ResultCode} {d : RData} (h : s.rsp = some ⟨rc, d⟩) :
    s.rspRc = some rc.bits ∧ s.rspData = some d := by
  simp [State.rspRc, State.rspData, h]

/-- The codes 6 and 7 belong to no result (30_encoding.md rule R77). -/
theorem ResultCode.bits_lt (rc : ResultCode) : rc.bits < 6#3 := by
  cases rc <;> decide

theorem rspRc_ne_of_ge {s : State} {c : BitVec 3} (hc : 6#3 ≤ c) : s.rspRc ≠ some c := by
  intro h
  obtain ⟨r, -, rfl⟩ := Option.map_eq_some_iff.mp h
  exact BitVec.not_lt.mpr hc r.rc.bits_lt

/-- Settles O50: the lines show the offered response through the encoding of its code, which is below 6. -/
theorem responseChannelShowsCodeAndData : Obligations.ResponseChannelShowsCodeAndData := by
  unfold Obligations.ResponseChannelShowsCodeAndData
  exact fun s d => ⟨response_shown, response_shown, response_shown, response_shown, response_shown, response_shown,
    rspRc_ne_of_ge (by decide), rspRc_ne_of_ge (by decide)⟩

/-! ### One response per word -/

/-- What is left of the host's script: while a command is outstanding, its response is taken first. -/
def remainingScript (sent : Option CmdWord) (ws : List CmdWord) : List Move :=
  match sent with
  | none => hostScript ws
  | some _ => .takeRsp :: hostScript ws

/-- `n` steps show exactly one triple per word, in order, and end with no response waiting and the moves `ms` to come. -/
def AnswersInOrder (p : TiePolicy) (n : Nat) (sent : Option CmdWord) (s : State) (ms : List Move) (ws : List CmdWord) : Prop :=
  (triples (traceWith p n sent s)).map (·.word) = ws ∧ ∃ t, runWith p n s = .next t ∧ t.rsp = none ∧ t.schedule = ms

/-- One step more shows what that step shows, and then the rest. -/
theorem AnswersInOrder.step {p : TiePolicy} {n : Nat} {sent sent' : Option CmdWord} {s u : State} {ms : List Move}
    {ws shown : List CmdWord} (hstep : stepWith p s = .next u) (hsent : outstanding sent s = sent')
    (hshown : (triples (observe sent s u)).map (·.word) = shown) (h : AnswersInOrder p n sent' u ms ws) :
    AnswersInOrder p (n + 1) sent s ms (shown ++ ws) := by
  obtain ⟨hwords, t, hrun, hend⟩ := h
  exact ⟨by rw [traceWith_succ hstep, triples_append, List.map_append, hshown, hsent, hwords], t,
    (runWith_succ hstep).trans hrun, hend⟩

theorem triples_observe_of_not_transferred {sent : Option CmdWord} {s t : State} (h : transferred s = none) :
    triples (observe sent s t) = [] := by
  rw [triples_observe, h]
  cases sent <;> rfl

theorem triples_observe_of_transferred {w : CmdWord} {s t : State} {r : Response} (h : transferred s = some r) :
    triples (observe (some w) s t) = [⟨w, r.rc, r.data⟩] := by
  rw [triples_observe, h]

theorem remainingScript_eq_nil {sent : Option CmdWord} {ws : List CmdWord} (h : [] = remainingScript sent ws) :
    sent = none ∧ ws = [] := by
  cases sent with
  | none => cases ws with
    | nil => exact ⟨rfl, rfl⟩
    | cons w ws => cases h
  | some w => cases h

theorem remainingScript_eq_send {sent : Option CmdWord} {w : CmdWord} {ws : List CmdWord} {rest : List Move}
    (h : .sendCmd w :: rest = remainingScript sent ws) :
    sent = none ∧ ∃ ws', ws = w :: ws' ∧ rest = remainingScript (some w) ws' := by
  cases sent with
  | none => cases ws with
    | nil => cases h
    | cons v ws => cases h; exact ⟨rfl, ws, rfl, rfl⟩
  | some v => cases h

theorem remainingScript_eq_take {sent : Option CmdWord} {ws : List CmdWord} {rest : List Move}
    (h : .takeRsp :: rest = remainingScript sent ws) : (∃ w, sent = some w) ∧ rest = remainingScript none ws := by
  cases sent with
  | none => cases ws <;> cases h
  | some v => cases h; exact ⟨⟨v, rfl⟩, rfl⟩

theorem remainingScript_ne_rst {sent : Option CmdWord} {ws : List CmdWord} {rest : List Move} :
    .assertRst :: rest ≠ remainingScript sent ws := by
  intro h
  cases sent with
  | none => cases ws <;> cases h
  | some v => cases h

/-- The host's script from any point of it, with engine turns anywhere: the outstanding command and every word still to come
are answered in order. A response waits exactly while a command is outstanding. -/
theorem answersInOrder_of_script (p : TiePolicy) {moves ms : List Move} {sent : Option CmdWord} {ws : List CmdWord} {s : State}
    (h : Inv s) (hrsp : s.rsp.isSome = sent.isSome)
    (hmoves : moves.filter (fun m => m ≠ .engineTurn) = remainingScript sent ws) (hs : s.schedule = moves ++ ms) :
    AnswersInOrder p moves.length sent s ms (sent.toList ++ ws) := by
  induction moves generalizing sent ws s with
  | nil =>
    obtain ⟨rfl, rfl⟩ := remainingScript_eq_nil hmoves
    exact ⟨rfl, s, rfl, by simpa using hrsp, hs⟩
  | cons m moves ih =>
    cases m with
    | engineTurn =>
      obtain ⟨u, hu, hinv⟩ := engineStep_next_of_inv (inv_setSchedule h _) p
      obtain ⟨hsched, hrsp'⟩ := engineStep_channels hu
      exact .step (shown := []) ((stepWith_engine p hs).trans hu) (outstanding_engine hs)
        (congrArg _ (triples_observe_of_not_transferred (transferred_engine hs)))
        (ih hinv (hrsp'.symm ▸ hrsp) hmoves hsched)
    | sendCmd w =>
      obtain ⟨rfl, ws', rfl, hrest⟩ := remainingScript_eq_send hmoves
      have hr : s.rsp = none := by simpa using hrsp
      obtain ⟨t, r, ht, hr', hsched, hinv⟩ := performWord_next_of_inv (inv_setSchedule h (moves ++ ms)) w
      exact .step ((stepWith_send p hs hr).trans ht) (outstanding_send hs hr)
        (congrArg _ (triples_observe_of_not_transferred ((transferred_send hs).trans hr)))
        (ih hinv (by rw [hr']; rfl) hrest hsched)
    | takeRsp =>
      obtain ⟨⟨w, rfl⟩, hrest⟩ := remainingScript_eq_take hmoves
      obtain ⟨r, hr⟩ := Option.isSome_iff_exists.mp hrsp
      exact .step (stepWith_take p hs) (outstanding_take hs)
        (congrArg _ (triples_observe_of_transferred ((transferred_take hs).trans hr)))
        (ih (inv_dropRsp (inv_setSchedule h _)) rfl hrest rfl)
    | assertRst => exact absurd hmoves remainingScript_ne_rst

/-- Settles O9, by induction on the moves: a response waits exactly between a word's acceptance and its transfer. -/
theorem oneResponsePerCommandInOrder : Obligations.OneResponsePerCommandInOrder := by
  unfold Obligations.OneResponsePerCommandInOrder
  intro p ws moves ms s hinv hr hmoves hs
  exact answersInOrder_of_script p (sent := none) hinv (by rw [hr]; rfl) hmoves hs

/-! ### LOAD_FREQS -/

/-- A command sent with no response waiting and its response taken: two steps, the second of which drops the response. -/
theorem sendAndTake_run (p : TiePolicy) {i : Instr} {s t : State} {ms : List Move} (hr : s.rsp = none)
    (hs : s.schedule = .sendCmd (encode i) :: .takeRsp :: ms) (ht : exec i (s.setSchedule (.takeRsp :: ms)) = .next t) :
    runWith p 2 s = .next (t.setSchedule ms).dropRsp := by
  have hsend := (stepWith_send_of_decode p hs hr (decode_encode i)).trans ht
  obtain ⟨-, hsched⟩ := exec_channels ht
  exact (runWith_succ hsend).trans (runWith_succ (k := 0) (stepWith_take p hsched))

theorem symOutOfRange_ofNat {k : Nat} (hk : k < 256) : symOutOfRange (BitVec.ofNat 9 k) = false := by
  rw [← Bool.not_eq_true, symOutOfRange_iff, BitVec.toNat_ofNat, Nat.mod_eq_of_lt (by omega)]
  omega

/-- One FREQ_WR in LOAD, sent and its response taken, writes its entry and no other. -/
theorem freqWr_sent_run (p : TiePolicy) {sym : Idx} {v : Freq} {s : State} {ms : List Move} (hsym : symOutOfRange sym = false)
    (hp : s.phase = .load) (hr : s.rsp = none) (hs : s.schedule = .sendCmd (encode (.freqWr sym v)) :: .takeRsp :: ms) :
    ∃ t, runWith p 2 s = .next t ∧ t.phase = .load ∧ t.rsp = none ∧ t.schedule = ms ∧
      ∀ j, t.freqAt j = if sym.toNat = j then v else s.freqAt j :=
  ⟨_, sendAndTake_run p hr hs (exec_freqWr_of_load (s := s.setSchedule (.takeRsp :: ms)) hp hsym v), hp, rfl, rfl,
    fun j => State.writeFreq_freqAt s sym.toNat j v⟩

/-- FREQ_WR for each symbol of a list, sent one after the other in LOAD, writes those entries and no other. -/
theorem freqWrs_run (p : TiePolicy) (f : Nat → Freq) {ks : List Nat} {ms : List Move} {s : State}
    (hks : ∀ k ∈ ks, k < 256) (hp : s.phase = .load) (hr : s.rsp = none)
    (hs : s.schedule = commandScript (ks.map (fun k => .freqWr (BitVec.ofNat 9 k) (f k))) ++ ms) :
    ∃ t, runWith p (2 * ks.length) s = .next t ∧ t.phase = .load ∧ t.schedule = ms ∧
      ∀ v, t.freqAt v = if v ∈ ks then f v else s.freqAt v := by
  induction ks generalizing s with
  | nil => exact ⟨s, rfl, hp, hs, fun v => by simp⟩
  | cons k ks ih =>
    rw [List.forall_mem_cons] at hks
    obtain ⟨hk, hks⟩ := hks
    obtain ⟨u, hfirst, hpu, hru, hsu, hfrequ⟩ := freqWr_sent_run p (symOutOfRange_ofNat hk) hp hr hs
    obtain ⟨t, hrest, hpt, hst, hfreqt⟩ := ih hks hpu hru hsu
    refine ⟨t, ?_, hpt, hst, fun j => ?_⟩
    · rw [List.length_cons, Nat.mul_succ, Nat.add_comm, runWith_add hfirst, hrest]
    · have hk9 : (BitVec.ofNat 9 k).toNat = k := Nat.mod_eq_of_lt (by omega)
      rw [hfreqt, hfrequ, hk9]
      by_cases hj : j = k
      · simp [hj]
      · simp [hj, Ne.symm hj]

/-- Settles O47: the 256 commands write every entry. -/
theorem loadFreqsLoadsTheMapping : Obligations.LoadFreqsLoadsTheMapping := by
  unfold Obligations.LoadFreqsLoadsTheMapping
  intro p vs ms s hp hr hs
  obtain ⟨t, hrun, hp', hms, hfreq⟩ :=
    freqWrs_run p (fun k => vs.getD k 0#32) (ks := List.range 256) (fun k => List.mem_range.mp) hp hr hs
  exact ⟨t, by simpa using hrun, hp', hms, fun v hv => (hfreq v).trans (if_pos (List.mem_range.mpr hv))⟩

/-! ### WAIT_DONE and READ_TREE -/

/-- PHASE is the lowest field of the STATUS word (10_state.md rule R32). -/
theorem statusWord_phase (s : State) : s.statusWord.extractLsb' 0 2 = s.phase.bits := by
  rw [State.statusWord, zext64, BitVec.extractLsb'_setWidth_of_le (by decide), BitVec.extractLsb'_append_eq_right]

/-- NODE_COUNT is bits 25..17 of the STATUS word (10_state.md rule R32). -/
theorem statusWord_nodeCount (s : State) : s.statusWord.extractLsb' 17 9 = s.nodeCount := by
  rw [State.statusWord, zext64, BitVec.extractLsb'_setWidth_of_le (by decide)]
  -- the widths stay sums, so that the lemmas about `++` find the parts
  simp [BitVec.extractLsb'_append_eq_of_le, BitVec.extractLsb'_append_eq_right, -Nat.reduceAdd]

theorem waitDoneEnds_statusWord (s : State) : waitDoneEnds s.statusWord = true ↔ s.phase = .done ∨ s.phase = .fail := by
  rw [waitDoneEnds, statusWord_phase]
  cases s.phase <;> decide

theorem readTree_statusWord (s : State) :
    readTree s.statusWord = .statusRd :: (List.range s.nodeCount.toNat).map (fun i => .nodeRd (BitVec.ofNat 9 i)) := by
  rw [readTree, statusWord_nodeCount]

/-- NODE_RD below NODE_COUNT in DONE finds a record (42_readout_control.md rule R150). -/
theorem exec_nodeRd_of_done {s : State} (h : Inv s) (hp : s.phase = .done) {idx : Idx} (hi : idx.toNat < s.nodeCount.toNat) :
    ∃ r, exec (.nodeRd idx) s = .next (s.respond .ok (nodeWord r)) := by
  obtain ⟨r, hr⟩ := Option.isSome_iff_exists.mp (h.stored.nodeHeld idx.toNat hi)
  have hrange : ¬ idxOutOfRange s idx = true := by rw [idxOutOfRange_iff]; omega
  exact ⟨r, by simp [exec, execNodeRd, hp, hrange, hr]⟩

/-- Every command of READ_TREE is answered OK in a DONE state of the invariant. -/
theorem readTree_answered {s : State} (h : Inv s) (hp : s.phase = .done) {i : Instr} (hi : i ∈ readTree s.statusWord) :
    ∃ d, exec i s = .next (s.respond .ok d) := by
  rw [readTree_statusWord, List.mem_cons, List.mem_map] at hi
  obtain rfl | ⟨k, hk, rfl⟩ := hi
  · exact ⟨_, rfl⟩
  · have hlt := List.mem_range.mp hk
    have hidx : (BitVec.ofNat 9 k).toNat < s.nodeCount.toNat := by rw [BitVec.toNat_ofNat]; omega
    obtain ⟨r, hr⟩ := exec_nodeRd_of_done h hp hidx
    exact ⟨_, hr⟩

/-- Settles O48: STATUS_RD answers the STATUS word, whose fields PHASE and NODE_COUNT decide both; that response waiting
changes no later answer (`exec_respond`). -/
theorem waitDoneThenReadTreeReadsEveryNode : Obligations.WaitDoneThenReadTreeReadsEveryNode := by
  unfold Obligations.WaitDoneThenReadTreeReadsEveryNode
  intro s
  refine ⟨_, s.statusWord, rfl, rfl, waitDoneEnds_statusWord s, readTree_statusWord s, fun h hp i hi => ?_⟩
  obtain ⟨e, he⟩ := readTree_answered h hp hi
  exact ⟨_, e, (exec_respond i s .ok s.statusWord).trans he, rfl⟩

end Sys2Proof.Machine
end

section
/-! PROOF. The obligations of 40_frequency.md: what FREQ_WR, FREQ_INC and FREQ_RD answer and write (rules R100 to R102), and
that FREQ_INC over a buffer leaves the buffer's frequency mapping (rule R103). The words of all three come from
`decode_eq_ok_iff_row`: a word decodes to a command when it matches the command's row and holds its operands. -/

namespace Sys2Proof.Machine

/-! ### The words of one command -/

theorem decode_eq_ok_iff_splitWord {w : CmdWord} {i : Instr} : decode w = .ok i ↔ splitWord w = i.fields :=
  ⟨fun h => (fields_of_decodeFields h).symm, fun h => by rw [decode, h, decodeFields_fields]⟩

theorem fields_eq_iff (f g : Fields) : f = g ↔ f.data = g.data ∧ f.op = g.op ∧ f.rsv = g.rsv ∧ f.arg = g.arg := by
  cases f; cases g
  simp

/-- The opcode of a command is that of its row. -/
theorem fields_op_of_row {i : Instr} {r : OpcodeRow} (hr : r ∈ opcodeRows) (hi : i.mnemonic = r.mnemonic) :
    i.fields.op = rowOpcode r := by
  obtain ⟨hcommand, -⟩ := (decodeFields_eq_ok_iff i.fields i).mp (decodeFields_fields i)
  rw [← mnemonicOf_eq_iff r hr, ← mnemonicOf_of_commandOf, hcommand, Option.map_some, hi]

/-- An operand field holds its value: 0 where the field is unused, the operand where it is used. -/
theorem operand_eq_iff {n : Nat} {used : Bool} {x a : BitVec n} (ha : used = false → a = 0#n) :
    x = a ↔ (used = false → x = 0#n) ∧ (used = true → x = a) := by
  cases used with
  | true => simp
  | false => simp [ha rfl]

/-- A word decodes to a command when it matches the command's row and holds the command's operands (30_encoding.md
rules R73 and R74). -/
theorem decode_eq_ok_iff_row {i : Instr} (matchBits maskBits : CmdWord)
    (hr : ⟨i.mnemonic, matchBits, maskBits⟩ ∈ opcodeRows) (w : CmdWord) :
    decode w = .ok i ↔ w &&& maskBits = matchBits ∧
      (usesArg i.fields.op = true → w.extractLsb' 0 9 = i.fields.arg) ∧
      (usesData i.fields.op = true → w.extractLsb' 32 32 = i.fields.data) := by
  obtain ⟨-, hrsv, harg, hdata⟩ := (decodeFields_eq_ok_iff i.fields i).mp (decodeFields_fields i)
  have hrow := row_matches_iff_fields hr w
  rw [OpcodeRow.matches, beq_iff_eq, ← fields_op_of_row hr rfl] at hrow
  rw [decode_eq_ok_iff_splitWord, hrow, fields_eq_iff, operand_eq_iff harg, operand_eq_iff hdata, hrsv]
  simp only [splitWord]
  tauto

/-- A command whose one operand is ARG. -/
theorem decode_eq_ok_iff_of_argOnly {i : Instr} (matchBits maskBits : CmdWord)
    (hr : ⟨i.mnemonic, matchBits, maskBits⟩ ∈ opcodeRows) (harg : usesArg i.fields.op = true)
    (hdata : usesData i.fields.op = false) (w : CmdWord) :
    decode w = .ok i ↔ w &&& maskBits = matchBits ∧ w.extractLsb' 0 9 = i.fields.arg := by
  rw [decode_eq_ok_iff_row matchBits maskBits hr]
  simp [harg, hdata]

theorem decode_eq_freqWr_iff (sym : Idx) (value : Freq) (w : CmdWord) :
    decode w = .ok (.freqWr sym value) ↔
      w &&& 0x00000000FFFFFE00#64 = 0x0000000020000000#64 ∧ w.extractLsb' 0 9 = sym ∧ w.extractLsb' 32 32 = value := by
  rw [decode_eq_ok_iff_row 0x0000000020000000#64 0x00000000FFFFFE00#64 (by simp [opcodeRows, Instr.mnemonic])]
  simp [Instr.fields, usesArg, usesData]

theorem decode_eq_freqInc_iff (sym : Idx) (w : CmdWord) :
    decode w = .ok (.freqInc sym) ↔
      w &&& 0xFFFFFFFFFFFFFE00#64 = 0x0000000030000000#64 ∧ w.extractLsb' 0 9 = sym :=
  decode_eq_ok_iff_of_argOnly _ _ (by simp [opcodeRows, Instr.mnemonic]) rfl rfl w

theorem decode_eq_freqRd_iff (sym : Idx) (w : CmdWord) :
    decode w = .ok (.freqRd sym) ↔
      w &&& 0xFFFFFFFFFFFFFE00#64 = 0x0000000040000000#64 ∧ w.extractLsb' 0 9 = sym :=
  decode_eq_ok_iff_of_argOnly _ _ (by simp [opcodeRows, Instr.mnemonic]) rfl rfl w

/-! ### What each command answers, case by case -/

theorem symOutOfRange_of_le {sym : Idx} (h : sym.toNat ≤ 255) : symOutOfRange sym = false := by
  rw [← Bool.not_eq_true, symOutOfRange_iff]
  omega

theorem exec_freqWr_badPhase {s : State} (hp : s.phase ≠ .load) (sym : Idx) (value : Freq) :
    exec (.freqWr sym value) s = raise .badPhase s := by
  simp [exec, execFreqWr, hp]

theorem exec_freqWr_badIndex {s : State} {sym : Idx} (hp : s.phase = .load) (hsym : 255 < sym.toNat) (value : Freq) :
    exec (.freqWr sym value) s = raise .badIndex s := by
  simp [exec, execFreqWr, hp, (symOutOfRange_iff sym).mpr hsym]

theorem exec_freqInc_badPhase {s : State} (hp : s.phase ≠ .load) (sym : Idx) :
    exec (.freqInc sym) s = raise .badPhase s := by
  simp [exec, execFreqInc, hp]

theorem exec_freqInc_badIndex {s : State} {sym : Idx} (hp : s.phase = .load) (hsym : 255 < sym.toNat) :
    exec (.freqInc sym) s = raise .badIndex s := by
  simp [exec, execFreqInc, hp, (symOutOfRange_iff sym).mpr hsym]

theorem exec_freqInc_overflow {s : State} {sym : Idx} (hp : s.phase = .load) (hsym : symOutOfRange sym = false)
    (hfull : s.freqAt sym.toNat = 0xFFFFFFFF#32) : exec (.freqInc sym) s = raise .freqOverflow s := by
  simp [exec, execFreqInc, hp, hsym, hfull]

theorem exec_freqInc_of_load {s : State} {sym : Idx} (hp : s.phase = .load) (hsym : symOutOfRange sym = false)
    (hfull : s.freqAt sym.toNat ≠ 0xFFFFFFFF#32) :
    exec (.freqInc sym) s = .next ((s.writeFreq sym.toNat (s.freqAt sym.toNat + 1#32)).respond .ok 0#64) := by
  simp [exec, execFreqInc, hp, hsym, hfull]

theorem exec_freqRd_badIndex {sym : Idx} (hsym : 255 < sym.toNat) (s : State) :
    exec (.freqRd sym) s = raise .badIndex s := by
  simp [exec, execFreqRd, (symOutOfRange_iff sym).mpr hsym]

theorem exec_freqRd_inRange {sym : Idx} (hsym : symOutOfRange sym = false) (s : State) :
    exec (.freqRd sym) s = .next (s.respond .ok (zext64 (s.freqAt sym.toNat))) := by
  simp [exec, execFreqRd, hsym]

/-- FREQ_WR and FREQ_INC write no entry but their own. -/
theorem writeFreq_respond_freqAt_ne (s : State) {sym v : Nat} (hv : v ≠ sym) (value : Freq) (rc : ResultCode) (d : RData) :
    ((s.writeFreq sym value).respond rc d).freqAt v = s.freqAt v := by
  simp [hv.symm]

/-- Widening to 64 bits keeps the value (00_scope.md rule R7). -/
theorem zext64_toNat {n : Nat} (hn : n ≤ 64) (v : BitVec n) : (zext64 v).toNat = v.toNat :=
  BitVec.toNat_setWidth_of_le hn

/-! ### Rules R100 to R102 -/

/-- Settles O10, by the checks of FREQ_WR in their order. -/
theorem freqWrWritesOneEntry : Obligations.FreqWrWritesOneEntry := by
  unfold Obligations.FreqWrWritesOneEntry
  intro sym value s
  refine ⟨decode_eq_freqWr_iff sym value, fun hp => exec_freqWr_badPhase hp sym value,
    fun hp hsym => exec_freqWr_badIndex hp hsym value, fun hp hsym => ?_⟩
  exact ⟨_, exec_freqWr_of_load hp (symOutOfRange_of_le hsym) value, rfl, by simp,
    fun v hv => writeFreq_respond_freqAt_ne s hv value .ok 0#64, rfl⟩

/-- Settles O11, by the checks of FREQ_INC in their order; a count that is not full does not wrap. -/
theorem freqIncCountsOneOccurrence : Obligations.FreqIncCountsOneOccurrence := by
  unfold Obligations.FreqIncCountsOneOccurrence
  intro sym s
  refine ⟨decode_eq_freqInc_iff sym, fun hp => exec_freqInc_badPhase hp sym, fun hp hsym => exec_freqInc_badIndex hp hsym,
    fun hp hsym hfull => exec_freqInc_overflow hp (symOutOfRange_of_le hsym) hfull, fun hp hsym hfull => ?_⟩
  have hexec := exec_freqInc_of_load hp (symOutOfRange_of_le hsym) hfull
  exact ⟨_, hexec, rfl, freqInc_adds_one hexec rfl, fun v hv => writeFreq_respond_freqAt_ne s hv _ .ok 0#64, rfl⟩

/-- Settles O12: FREQ_RD checks its symbol only, in every phase. -/
theorem freqRdAnswersTheEntry : Obligations.FreqRdAnswersTheEntry := by
  unfold Obligations.FreqRdAnswersTheEntry
  intro sym s
  refine ⟨decode_eq_freqRd_iff sym, fun hsym => exec_freqRd_badIndex hsym s, fun hsym => ?_⟩
  exact ⟨_, _, exec_freqRd_inRange (symOutOfRange_of_le hsym) s, rfl, zext64_toNat (by decide) _, rfl⟩

/-! ### FREQ_INC over a buffer -/

theorem observe_of_not_transferred {sent : Option CmdWord} {s t : State} (h : transferred s = none)
    (hd : t.doneOut = s.doneOut) : observe sent s t = [] := by
  cases sent <;> simp [observe, h, hd]

theorem observe_of_transferred {w : CmdWord} {s t : State} {r : Response} (h : transferred s = some r)
    (hd : t.doneOut = s.doneOut) : observe (some w) s t = [.response ⟨w, r.rc, r.data⟩] := by
  simp [observe, h, hd]

/-- A command sent and its response taken show the command's triple and nothing else, if `done` keeps its level. -/
theorem sendAndTake_trace (p : TiePolicy) {i : Instr} {s t : State} {r : Response} {ms : List Move} (hr : s.rsp = none)
    (hs : s.schedule = .sendCmd (encode i) :: .takeRsp :: ms) (ht : exec i (s.setSchedule (.takeRsp :: ms)) = .next t)
    (hrt : t.rsp = some r) (hd : t.doneOut = s.doneOut) (k : Nat) :
    traceWith p (k + 2) none s =
      .response ⟨encode i, r.rc, r.data⟩ :: traceWith p k none (t.setSchedule ms).dropRsp := by
  have hsend := (stepWith_send_of_decode p hs hr (decode_encode i)).trans ht
  obtain ⟨-, hsched⟩ := exec_channels ht
  have htake : (t.setSchedule ms).dropRsp.doneOut = t.doneOut := rfl
  rw [traceWith_succ hsend, observe_of_not_transferred ((transferred_send hs).trans hr) hd, outstanding_send hs hr,
    traceWith_succ (stepWith_take p hsched), observe_of_transferred ((transferred_take hsched).trans hrt) htake,
    outstanding_take hsched]
  rfl

/-- A byte keeps its value as a 9-bit operand. -/
theorem sym_setWidth_toNat (b : Sym) : (b.setWidth 9).toNat = b.toNat := BitVec.toNat_setWidth_of_le (by decide)

theorem symOutOfRange_sym (b : Sym) : symOutOfRange (b.setWidth 9) = false :=
  symOutOfRange_of_le (by rw [sym_setWidth_toNat]; omega)

/-- One FREQ_INC in LOAD, sent and its response taken, on an entry that is not full: it answers OK and counts the byte. -/
theorem freqInc_sent_run (p : TiePolicy) {b : Sym} {s : State} {ms : List Move} (hp : s.phase = .load) (hr : s.rsp = none)
    (hs : s.schedule = .sendCmd (encode (.freqInc (b.setWidth 9))) :: .takeRsp :: ms)
    (hfull : s.freqAt b.toNat ≠ 0xFFFFFFFF#32) :
    ∃ t, runWith p 2 s = .next t ∧ t.phase = .load ∧ t.rsp = none ∧ t.schedule = ms ∧
      (∀ k, traceWith p (k + 2) none s =
        .response ⟨encode (.freqInc (b.setWidth 9)), .ok, 0#64⟩ :: traceWith p k none t) ∧
      ∀ c : Sym, (t.freqAt c.toNat).toNat = (s.freqAt c.toNat).toNat + [b].count c := by
  have hexec := exec_freqInc_of_load (s := s.setSchedule (.takeRsp :: ms)) hp (symOutOfRange_sym b)
    (by rwa [sym_setWidth_toNat])
  rw [sym_setWidth_toNat] at hexec
  refine ⟨_, sendAndTake_run p hr hs hexec, hp, rfl, rfl, sendAndTake_trace p hr hs hexec rfl rfl, fun c => ?_⟩
  by_cases hc : b = c
  · subst hc
    simp [freq_add_one_toNat hfull]
  · have hne : b.toNat ≠ c.toNat := fun h => hc (BitVec.eq_of_toNat_eq h)
    simp [hne, hc]

/-- FREQ_INC for each byte of a buffer, sent one after the other in LOAD, answers OK every time and adds each byte's number of
occurrences to its entry, if no entry would pass 2^32 - 1. -/
theorem freqIncs_run (p : TiePolicy) {buffer : List Sym} {ms : List Move} {s : State} (hp : s.phase = .load)
    (hr : s.rsp = none) (hs : s.schedule = commandScript (freqCount (buffer.map (fun b => b.setWidth 9))) ++ ms)
    (hfit : ∀ b : Sym, (s.freqAt b.toNat).toNat + buffer.count b ≤ 2 ^ 32 - 1) :
    ∃ t, runWith p (2 * buffer.length) s = .next t ∧ t.schedule = ms ∧
      traceWith p (2 * buffer.length) none s =
        buffer.map (fun b => .response ⟨encode (.freqInc (b.setWidth 9)), .ok, 0#64⟩) ∧
      ∀ b : Sym, (t.freqAt b.toNat).toNat = (s.freqAt b.toNat).toNat + buffer.count b := by
  induction buffer generalizing s with
  | nil => exact ⟨s, rfl, hs, rfl, fun b => rfl⟩
  | cons c buffer ih =>
    have hcount : ∀ b, (c :: buffer).count b = [c].count b + buffer.count b :=
      fun b => List.count_append (l₁ := [c])
    have hfull : s.freqAt c.toNat ≠ 0xFFFFFFFF#32 := fun h => by simpa [h] using hfit c
    obtain ⟨u, hfirst, hpu, hru, hsu, htrace, hfrequ⟩ := freqInc_sent_run p hp hr hs hfull
    obtain ⟨t, hrest, hst, htracet, hfreqt⟩ := ih hpu hru hsu
      (fun b => by rw [hfrequ, Nat.add_assoc, ← hcount]; exact hfit b)
    refine ⟨t, ?_, hst, ?_, fun b => ?_⟩
    · rw [List.length_cons, Nat.mul_succ, Nat.add_comm, runWith_add hfirst, hrest]
    · rw [List.length_cons, Nat.mul_succ, htrace, htracet, List.map_cons]
    · rw [hfreqt, hfrequ, Nat.add_assoc, ← hcount]

/-- Settles O46: every entry is 0 at the start (`freqIncs_run`). -/
theorem tallyCountsTheBuffer : Obligations.TallyCountsTheBuffer := by
  unfold Obligations.TallyCountsTheBuffer
  intro p buffer ms s hp hzero hr hs hcount
  obtain ⟨t, hrun, hms, htrace, hfreq⟩ := freqIncs_run p hp hr hs (fun b => by simpa [hzero] using hcount b)
  exact ⟨t, hrun, hms, htrace, fun b => by simpa [hzero] using hfreq b⟩

end Sys2Proof.Machine
end

section
/-! PROOF. What a step does to the block (41_build.md rules R120 to R129): the pair a MERGE takes under either tie policy,
a MERGE and a BUILD as functions of the block, and every step as one of these or one that ends in LOAD or FAIL. -/

namespace Sys2Proof.Machine

/-! ### What two states with the same block have in common -/

section
variable {s t : State} (h : SameBlock s t)
include h

theorem SameBlock.symm : SameBlock t s :=
  ⟨h.phase.symm, h.buildErr.symm, h.leafCount.symm, h.nodeCount.symm, h.root.symm, h.qCount.symm, h.freq.symm, h.node.symm,
    h.inq.symm⟩

theorem SameBlock.nodeAt (i : Nat) : t.nodeAt i = s.nodeAt i := by rw [State.nodeAt, State.nodeAt, h.nodeCount, h.node]

theorem SameBlock.queue : t.queue = s.queue := by rw [State.queue, State.queue, h.inq]

/-- They differ in the channels, the schedule and the free choices at most. -/
theorem SameBlock.eq_with : t = { s with rsp := t.rsp, schedule := t.schedule, draws := t.draws } :=
  State.eq_of_fields h.phase h.buildErr h.leafCount h.nodeCount h.root h.qCount h.freq h.node h.inq rfl rfl rfl

end

/-! ### The entries of the queue -/

theorem State.weightAt_of_nodeAt {s : State} {i : Nat} {r : NodeRec} (h : s.nodeAt i = some r) :
    s.weightAt i = r.weight.toNat := by
  rw [State.weightAt, h]

/-- The entry stands for a node in the queue and carries the weight of that node's record. -/
structure QueueEntry (s : State) (e : Entry) : Prop where
  queued : e.idx ∈ s.queue
  record : ∃ r, s.nodeAt e.idx = some r ∧ e.weight = r.weight

theorem QueueEntry.weightAt {s : State} {e : Entry} (h : QueueEntry s e) : s.weightAt e.idx = e.weight.toNat := by
  obtain ⟨r, hr, hw⟩ := h.record
  rw [State.weightAt_of_nodeAt hr, hw]

/-- The weighted queue lists exactly the entries of the queue, each index once. -/
theorem weigh_queue {s : State} {es : List Entry} (h : WellStored s) (hes : weigh s s.queue = some es) :
    (es.map (·.idx)).Nodup ∧ ∀ e, e ∈ es ↔ QueueEntry s e := by
  obtain ⟨hidx, hrec⟩ := weigh_eq_some hes
  refine ⟨hidx ▸ (State.queue_sorted h.inqForm).nodup, fun e => ⟨fun he => ⟨hidx ▸ List.mem_map_of_mem he, hrec e he⟩, ?_⟩⟩
  rintro ⟨hq, r, hr, hw⟩
  rw [← hidx] at hq
  obtain ⟨x, hx, hxe⟩ := List.mem_map.mp hq
  obtain ⟨r', hr', hw'⟩ := hrec x hx
  rw [hxe, hr] at hr'
  cases hr'
  have : x = e := by
    cases x; cases e
    cases hxe; cases hw.trans hw'.symm
    rfl
  exact this ▸ hx

/-- What holds of the weight of every entry holds of the weight of every node in the queue. -/
theorem queue_weights_of_entries {s : State} (h : WellStored s) {es : List Entry} (hes : weigh s s.queue = some es)
    {P : Nat → Nat → Prop} (hP : ∀ e ∈ es, P e.idx e.weight.toNat) : ∀ x ∈ s.queue, P x (s.weightAt x) := by
  intro x hx
  rw [← (weigh_eq_some hes).1] at hx
  obtain ⟨e, he, rfl⟩ := List.mem_map.mp hx
  rw [(((weigh_queue h hes).2 e).mp he).weightAt]
  exact hP e he

/-! ### The pair a MERGE takes -/

/-- Some tie choice under the policy makes a MERGE take this pair, left child first. -/
def Selects (p : TiePolicy) (s : State) (l r : Entry) : Prop :=
  ∃ pick es, weigh s s.queue = some es ∧ selectPair p pick es = some (l, r) ∧ s.nodeCount ≠ 511#9

theorem exists_mergeWith_iff {p : TiePolicy} {s t : State} :
    (∃ pick, mergeWith p pick s = .next t) ↔ ∃ l r, Selects p s l r ∧ t = joinPair l r s := by
  constructor
  · rintro ⟨pick, hm⟩
    obtain ⟨es, l, r, hes, hpair, hn, rfl⟩ := mergeWith_next hm
    exact ⟨l, r, ⟨pick, es, hes, hpair, hn⟩, rfl⟩
  · rintro ⟨l, r, ⟨pick, es, hes, hpair, hn⟩, rfl⟩
    exact ⟨pick, mergeWith_eq hes hpair hn⟩

theorem Selects.of_sameBlock {p : TiePolicy} {s t : State} {l r : Entry} (h : SameBlock s t) (hsel : Selects p s l r) :
    Selects p t l r := by
  obtain ⟨pick, es, hes, hpair, hn⟩ := hsel
  exact ⟨pick, es, by rw [h.queue, weigh_congr h.nodeAt, hes], hpair, h.nodeCount ▸ hn⟩

/-- Under `index_order` the choice draws nothing, so the block determines the pair. -/
theorem Selects.indexOrder_unique {s : State} {l r l' r' : Entry} (h : Selects .indexOrder s l r)
    (h' : Selects .indexOrder s l' r') : l = l' ∧ r = r' := by
  obtain ⟨pick, es, hes, hpair, -⟩ := h
  obtain ⟨pick', es', hes', hpair', -⟩ := h'
  cases hes.symm.trans hes'
  have hsame : selectPair .indexOrder pick es = selectPair .indexOrder pick' es := rfl
  rw [hsame, hpair'] at hpair
  cases hpair
  exact ⟨rfl, rfl⟩

/-- A pair that 41_build.md rule R125 admits: no queue entry is lighter than the first, and none but the first is lighter
than the second. -/
structure LightestPair (s : State) (a b : Entry) : Prop where
  first : QueueEntry s a
  second : QueueEntry s b
  ne : a.idx ≠ b.idx
  firstLe : ∀ x ∈ s.queue, s.weightAt a.idx ≤ s.weightAt x
  secondLe : ∀ x ∈ s.queue, x ≠ a.idx → s.weightAt b.idx ≤ s.weightAt x

/-- The entry has the smallest key (weight, index) among the queue's entries that satisfy `P` (41_build.md rule R124). -/
def SmallestKey (s : State) (P : Nat → Prop) (a : Nat) : Prop :=
  ∀ x ∈ s.queue, P x → x ≠ a → s.weightAt a < s.weightAt x ∨ (s.weightAt a = s.weightAt x ∧ a < x)

section
variable {s : State} (hs : WellStored s)
include hs

/-- Every selection, under either policy, takes a pair rule R125 admits, in one of the two orders. -/
theorem Selects.lightestPair {p : TiePolicy} {l r : Entry} (h : Selects p s l r) :
    LightestPair s l r ∨ LightestPair s r l := by
  obtain ⟨pick, es, hes, hpair, -⟩ := h
  obtain ⟨hnodup, hmem⟩ := weigh_queue hs hes
  obtain ⟨a, b, horder, ha, hb, hab, hfirst, hsecond⟩ := selectPair_spec hpair hnodup
  have ha' := (hmem a).mp ha
  have hb' := (hmem b).mp hb
  rw [← ha'.weightAt] at hfirst
  rw [← hb'.weightAt] at hsecond
  have hlightest : LightestPair s a b := ⟨ha', hb', hab, queue_weights_of_entries hs hes (P := fun _ w => _ ≤ w) hfirst,
    queue_weights_of_entries hs hes (P := fun i w => i ≠ a.idx → _ ≤ w) hsecond⟩
  obtain ⟨rfl, rfl⟩ | ⟨-, rfl, rfl⟩ := horder
  · exact .inl hlightest
  · exact .inr hlightest

/-- Under `any_min` every pair that rule R125 admits is taken for some choice, in either order. -/
theorem LightestPair.selects {a b : Entry} (h : LightestPair s a b) (hnode : ∀ i ∈ s.queue, i < s.nodeCount.toNat)
    (hn : s.nodeCount ≠ 511#9) : Selects .anyMin s a b ∧ Selects .anyMin s b a := by
  obtain ⟨es, hes⟩ := weigh_isSome (fun i hi => hs.nodeHeld i (hnode i hi))
  obtain ⟨-, hmem⟩ := weigh_queue hs hes
  obtain ⟨j, hj⟩ : ∃ j, pickMin j es = some a := by
    refine pickMin_iff.mpr ⟨(hmem a).mpr h.first, fun x hx => ?_⟩
    have hx' := (hmem x).mp hx
    rw [← h.first.weightAt, ← hx'.weightAt]
    exact h.firstLe _ hx'.queued
  obtain ⟨k, hk⟩ : ∃ k, pickMin k (without a es) = some b := by
    refine pickMin_iff.mpr ⟨mem_without.mpr ⟨(hmem b).mpr h.second, h.ne.symm⟩, fun x hx => ?_⟩
    obtain ⟨hx, hxa⟩ := mem_without.mp hx
    have hx' := (hmem x).mp hx
    rw [← h.second.weightAt, ← hx'.weightAt]
    exact h.secondLe _ hx'.queued hxa
  exact ⟨⟨⟨j, k, false⟩, es, hes, by simp [selectPair, hj, hk], hn⟩, ⟨⟨j, k, true⟩, es, hes, by simp [selectPair, hj, hk], hn⟩⟩

/-- Under `index_order` the left child has the smallest key, and the right child the smallest among the rest. -/
theorem Selects.smallestKeys {l r : Entry} (h : Selects .indexOrder s l r) :
    QueueEntry s l ∧ QueueEntry s r ∧ l.idx ≠ r.idx ∧ SmallestKey s (fun _ => True) l.idx ∧
      SmallestKey s (· ≠ l.idx) r.idx := by
  obtain ⟨pick, es, hes, hpair, -⟩ := h
  obtain ⟨hnodup, hmem⟩ := weigh_queue hs hes
  obtain ⟨hmin, hmin'⟩ : selectMin es = some l ∧ selectMin (without l es) = some r := by
    simp only [selectPair] at hpair
    split at hpair
    · cases hpair
    · split at hpair
      · cases hpair
      · cases hpair; exact ⟨‹_›, ‹_›⟩
  obtain ⟨hl, hkeyl⟩ := selectMin_spec hmin hnodup
  obtain ⟨hr, hkeyr⟩ := selectMin_spec hmin' (hnodup.sublist (List.filter_sublist.map _))
  obtain ⟨hr, hrl⟩ := mem_without.mp hr
  have hl' := (hmem l).mp hl
  have hr' := (hmem r).mp hr
  refine ⟨hl', hr', Ne.symm hrl, ?_, ?_⟩
  · rw [SmallestKey, hl'.weightAt]
    refine queue_weights_of_entries hs hes (P := fun i w => True → i ≠ l.idx → _ < w ∨ (_ = w ∧ _ < i)) ?_
    exact fun e he _ hne => (keyLt_iff l e).mp (hkeyl e he hne)
  · rw [SmallestKey, hr'.weightAt]
    refine queue_weights_of_entries hs hes (P := fun i w => i ≠ l.idx → i ≠ r.idx → _ < w ∨ (_ = w ∧ _ < i)) ?_
    exact fun e he hel hne => (keyLt_iff r e).mp (hkeyr e (mem_without.mpr ⟨he, hel⟩) hne)

end

/-- Two different entries of the queue, and no other entry lighter than either: what the tree needs to know of the pair a
MERGE takes, whatever the policy and the child order. -/
structure MergePair (s : State) (l r : Entry) : Prop where
  left : QueueEntry s l
  right : QueueEntry s r
  ne : l.idx ≠ r.idx
  restAbove : ∀ x ∈ s.queue, x ≠ l.idx → x ≠ r.idx →
    s.weightAt l.idx ≤ s.weightAt x ∧ s.weightAt r.idx ≤ s.weightAt x

theorem Selects.mergePair {p : TiePolicy} {s : State} {l r : Entry} (hs : WellStored s) (h : Selects p s l r) :
    MergePair s l r := by
  obtain ⟨hfirst, hsecond, hne, hfirstLe, hsecondLe⟩ | ⟨hfirst, hsecond, hne, hfirstLe, hsecondLe⟩ := h.lightestPair hs
  · exact ⟨hfirst, hsecond, hne, fun x hx hl _ => ⟨hfirstLe x hx, hsecondLe x hx hl⟩⟩
  · exact ⟨hsecond, hfirst, hne.symm, fun x hx _ hr => ⟨hsecondLe x hx hr, hfirstLe x hx⟩⟩

/-! ### Every step -/

/-- An engine turn is a MERGE of a selected pair in BUSY and nothing in the other phases. -/
theorem engineStep_merge {p : TiePolicy} {s t : State} (ht : engineStep p s = .next t) :
    (s.phase ≠ .busy ∧ t = s) ∨ (s.phase = .busy ∧ ∃ l r, Selects p s l r ∧ SameBlock (joinPair l r s) t) := by
  obtain ⟨hp, rfl⟩ | ⟨hp, rfl, hm⟩ | ⟨hp, rfl, hm⟩ := engineStep_cases ht
  · exact .inl ⟨hp, rfl⟩
  · obtain ⟨l, r, hsel, rfl⟩ := exists_mergeWith_iff.mp ⟨_, hm⟩
    exact .inr ⟨hp, l, r, hsel, .refl _⟩
  · obtain ⟨l, r, hsel, rfl⟩ := exists_mergeWith_iff.mp ⟨_, hm⟩
    have hdraw := sameBlock_countDraw s
    exact .inr ⟨hp, l, r, hsel.of_sameBlock hdraw.symm, joinPair_sameBlock hdraw l r⟩

/-- A step that is no abort leaves the block as it is, or is an engine turn or a command other than CLEAR on that block. -/
theorem stepWith_effect {p : TiePolicy} {s t : State} (ht : stepWith p s = .next t) (ha : abortsNext s = false) :
    SameBlock s t ∨
    ∃ u, SameBlock s u ∧ (engineStep p u = .next t ∨ ∃ i, i ≠ .clear ∧ exec i u = .next t) := by
  obtain ⟨-, he⟩ | ⟨ms, -, he⟩ | ⟨ms, -, he⟩ | ⟨ms, hs, -⟩ | ⟨w, ms, hs, hr, he⟩ | ⟨w, ms, r, -, -, he⟩ :=
    stepWith_cases p s
  · exact .inr ⟨s, .refl s, .inl (he.symm.trans ht)⟩
  · exact .inr ⟨_, sameBlock_setSchedule s ms, .inl (he.symm.trans ht)⟩
  · cases he.symm.trans ht
    exact .inl ((sameBlock_setSchedule s ms).trans (sameBlock_dropRsp _))
  · simp [abortsNext, hs] at ha
  · have hw : encode .clear ≠ w := by simpa [abortsNext, hs, State.cmdReady, hr] using ha
    have hperf := he.symm.trans ht
    unfold performWord at hperf
    split at hperf
    · rename_i i hi
      exact .inr ⟨_, sameBlock_setSchedule s ms, .inr ⟨i, fun hc => hw (encode_of_decode (hc ▸ hi)), hperf⟩⟩
    · cases hperf
      exact .inl ((sameBlock_setSchedule s ms).trans (sameBlock_respond _ _ _))
  · cases he.symm.trans ht
    exact .inl (sameBlock_dropRsp s)

/-- Outside LOAD a step that is no abort leaves the block as it is, or it is a MERGE of a selected pair. -/
theorem stepWith_merge {p : TiePolicy} {s t : State} (ht : stepWith p s = .next t) (hp : s.phase ≠ .load)
    (ha : abortsNext s = false) :
    SameBlock s t ∨ (s.phase = .busy ∧ ∃ l r, Selects p s l r ∧ SameBlock (joinPair l r s) t) := by
  obtain hsame | ⟨u, hu, hengine | ⟨i, hi, hexec⟩⟩ := stepWith_effect ht ha
  · exact .inl hsame
  · obtain ⟨-, rfl⟩ | ⟨hb, l, r, hsel, hjoin⟩ := engineStep_merge hengine
    · exact .inl hu
    · exact .inr ⟨hu.phase ▸ hb, l, r, hsel.of_sameBlock hu.symm, (joinPair_sameBlock hu l r).trans hjoin⟩
  · exact .inl (hu.trans (exec_sameBlock hexec (hu.phase ▸ hp) hi))

/-- The block after BUILD has found symbols. -/
abbrev built (s : State) : State := startBuild (BitVec.ofNat 9 s.symbols.length) (placeLeaves s 0 s.symbols)

/-- In LOAD a step that is no abort stays there, is a BUILD of no symbol, or is a BUILD of the symbols present. -/
theorem stepWith_load {p : TiePolicy} {s t : State} (ht : stepWith p s = .next t) (hp : s.phase = .load)
    (ha : abortsNext s = false) :
    t.phase = .load ∨ t.phase = .fail ∨ ∃ u, SameBlock s u ∧ u.symbols ≠ [] ∧ SameBlock (built u) t := by
  obtain hsame | ⟨u, hu, hengine | ⟨i, hi, hexec⟩⟩ := stepWith_effect ht ha
  · exact .inl (hsame.phase.trans hp)
  · obtain ⟨-, rfl⟩ | ⟨hb, -⟩ := engineStep_merge hengine
    · exact .inl (hu.phase.trans hp)
    · rw [hu.phase, hp] at hb; cases hb
  · have hload := hu.phase.trans hp
    obtain ⟨rc, d, rfl | ⟨-, -, -, sym, v, -, rfl⟩ | ⟨-, -, -, -, -, rfl⟩ | ⟨-, -, hsym, -, -, rfl⟩ | ⟨hc, -⟩⟩ :=
      exec_cases hexec
    · exact .inl hload
    · exact .inl hload
    · exact .inr (.inl rfl)
    · exact .inr (.inr ⟨u, hu, hsym, sameBlock_respond _ _ _⟩)
    · exact absurd hc hi

/-- Everything a step can do to the block: it ends in LOAD or FAIL, changes nothing, builds, or merges. -/
theorem stepWith_block {p : TiePolicy} {s t : State} (ht : stepWith p s = .next t) :
    (t.phase = .load ∨ t.phase = .fail) ∨ SameBlock s t ∨
    (∃ u, SameBlock s u ∧ u.phase = .load ∧ u.symbols ≠ [] ∧ SameBlock (built u) t) ∨
    (s.phase = .busy ∧ ∃ l r, Selects p s l r ∧ SameBlock (joinPair l r s) t) := by
  cases ha : abortsNext s with
  | true => exact .inl (.inl (stepWith_abort ht ha).phase)
  | false =>
    by_cases hp : s.phase = .load
    · obtain hload | hfail | ⟨u, hu, hsym, hbuilt⟩ := stepWith_load ht hp ha
      · exact .inl (.inl hload)
      · exact .inl (.inr hfail)
      · exact .inr (.inr (.inl ⟨u, hu, hu.phase.trans hp, hsym, hbuilt⟩))
    · obtain hsame | hmerge := stepWith_merge ht hp ha
      · exact .inr (.inl hsame)
      · exact .inr (.inr (.inr hmerge))

end Sys2Proof.Machine
end

section
/-! PROOF. The tree in NODE (41_build.md rules R130 to R134): children, parents and weights, that BUILD and MERGE keep the
tree invariant, and the obligations about it that need no path. -/

namespace Sys2Proof.Machine

/-! ### Children and parents -/

/-- The child of node n on one side, `true` for right. -/
def State.childAt (s : State) (n : Nat) (b : Bool) : Nat := if b then s.rightAt n else s.leftAt n

theorem State.mem_parents {s : State} {i n : Nat} :
    n ∈ s.parents i ↔ n < s.nodeCount.toNat ∧ s.isBranch n = true ∧ (s.leftAt n = i ∨ s.rightAt n = i) := by
  simp [State.parents]

theorem State.exists_childAt {s : State} {n i : Nat} : (∃ b, s.childAt n b = i) ↔ s.leftAt n = i ∨ s.rightAt n = i := by
  simp [State.childAt]

/-- What the tree looks at in a record depends on the record alone. -/
theorem State.nodeAt_congr {s t : State} {i : Nat} (h : t.nodeAt i = s.nodeAt i) :
    t.weightAt i = s.weightAt i ∧ t.leftAt i = s.leftAt i ∧ t.rightAt i = s.rightAt i ∧ t.isBranch i = s.isBranch i := by
  simp only [State.weightAt, State.leftAt, State.rightAt, State.isBranch, h, and_self]

theorem State.lt_of_isBranch {s : State} {n : Nat} (h : s.isBranch n = true) : n < s.nodeCount.toNat := by
  cases hn : s.nodeAt n with
  | none => simp [State.isBranch, hn] at h
  | some r => exact State.lt_of_nodeAt hn

@[simp] theorem leafRec_weight_toNat (v : Nat) (c : Freq) : (leafRec v c).weight.toNat = c.toNat :=
  BitVec.toNat_setWidth_of_le (by decide)

/-- The tree speaks of the block alone. -/
theorem treeInv_of_sameBlock {s t : State} (h : TreeInv s) (hb : SameBlock s t) : TreeInv t := by
  rw [hb.eq_with]
  obtain ⟨leafCount, leaves, branches, parents, total⟩ := h
  exact ⟨leafCount, leaves, branches, parents, total⟩

/-- Where there is a node, the phase is BUSY or DONE. -/
theorem Inv.busy_or_done {s : State} (h : Inv s) (hn : 0 < s.nodeCount.toNat) : s.phase = .busy ∨ s.phase = .done := by
  by_contra hne
  have hload : s.phase = .load ∨ s.phase = .fail := by
    cases hp : s.phase <;> simp [hp] at hne ⊢
  have := (counts_of_load_or_fail h hload).2
  omega

/-- Every queue entry is a node, in every phase. -/
theorem Inv.queue_lt {s : State} (h : Inv s) : ∀ i ∈ s.queue, i < s.nodeCount.toNat := by
  intro i hi
  cases hp : s.phase with
  | load => obtain ⟨-, -, -, -, -, hq⟩ := h.phases.load hp; simp [hq] at hi
  | busy => obtain ⟨-, -, -, -, -, -, -, hlt, -⟩ := h.phases.busy hp; exact hlt i hi
  | done =>
    obtain ⟨-, -, -, -, hq, hroot, -⟩ := h.phases.done hp
    rw [hq, List.mem_singleton] at hi
    omega
  | fail => obtain ⟨-, -, -, -, hq, -⟩ := h.phases.fail hp; simp [hq] at hi

theorem Inv.leafCount_le {s : State} (h : Inv s) : s.leafCount.toNat ≤ s.nodeCount.toNat := by
  cases hp : s.phase with
  | load => obtain ⟨hL, -⟩ := h.phases.load hp; omega
  | busy => obtain ⟨-, -, hL, -⟩ := h.phases.busy hp; exact hL
  | done => obtain ⟨-, -, hL, -⟩ := h.phases.done hp; omega
  | fail => obtain ⟨hL, -⟩ := h.phases.fail hp; omega

section
variable {s : State} (h : Inv s) (ht : TreeInv s)
include h ht

/-- NODE[k], k < L, is the Leaf of a symbol present. -/
theorem TreeInv.leaf {k : Nat} (hk : k < s.leafCount.toNat) :
    ∃ hlt : k < s.symbols.length, s.nodeAt k = some (leafRec s.symbols[k] (s.freqAt s.symbols[k])) := by
  have hpos : 0 < s.nodeCount.toNat := by have := h.leafCount_le; omega
  have hlt : k < s.symbols.length := by rw [ht.leafCount (h.busy_or_done hpos)]; exact hk
  exact ⟨hlt, by rw [ht.leaves k hk, List.getElem?_eq_getElem hlt, Option.map_some]⟩

theorem TreeInv.isBranch_of_lt {k : Nat} (hk : k < s.leafCount.toNat) : s.isBranch k = false := by
  obtain ⟨hlt, hleaf⟩ := ht.leaf h hk
  rw [State.isBranch, hleaf]
  rfl

theorem TreeInv.isBranch_iff {n : Nat} (hn : n < s.nodeCount.toNat) : s.isBranch n = true ↔ s.leafCount.toNat ≤ n := by
  by_cases hL : n < s.leafCount.toNat
  · simp [ht.isBranch_of_lt h hL, hL]
  · exact iff_of_true (ht.branches n hn (by omega)).1 (by omega)

/-- What rule R130 and rule R126 say of a Branch. -/
theorem TreeInv.branch {n : Nat} (hn : s.isBranch n = true) :
    s.leafCount.toNat ≤ n ∧ s.leftAt n < n ∧ s.rightAt n < n ∧ s.leftAt n ≠ s.rightAt n ∧
      s.weightAt n = s.weightAt (s.leftAt n) + s.weightAt (s.rightAt n) := by
  have hlt := State.lt_of_isBranch hn
  have hL := (ht.isBranch_iff h hlt).mp hn
  exact ⟨hL, (ht.branches n hlt hL).2⟩

theorem TreeInv.childAt_lt {n : Nat} (hn : s.isBranch n = true) (b : Bool) : s.childAt n b < n := by
  obtain ⟨-, hleft, hright, -⟩ := ht.branch h hn
  cases b
  · exact hleft
  · exact hright

theorem TreeInv.childAt_weight_le {n : Nat} (hn : s.isBranch n = true) (b : Bool) :
    s.weightAt (s.childAt n b) ≤ s.weightAt n := by
  obtain ⟨-, -, -, -, hw⟩ := ht.branch h hn
  cases b
  · exact hw ▸ Nat.le_add_right _ _
  · exact hw ▸ Nat.le_add_left _ _

theorem TreeInv.childAt_inj {n : Nat} (hn : s.isBranch n = true) {b c : Bool} (hbc : s.childAt n b = s.childAt n c) : b = c := by
  obtain ⟨-, -, -, hne, -⟩ := ht.branch h hn
  cases b <;> cases c
  · rfl
  · exact absurd hbc hne
  · exact absurd hbc.symm hne
  · rfl

omit h in
/-- Outside the queue every node has a parent. -/
theorem TreeInv.exists_parent {i : Nat} (hi : i < s.nodeCount.toNat) (hq : i ∉ s.queue) :
    ∃ n b, s.isBranch n = true ∧ s.childAt n b = i := by
  have hlen := ht.parents i hi
  rw [if_neg hq] at hlen
  obtain ⟨n, hn⟩ := List.exists_mem_of_length_pos (by omega : 0 < (s.parents i).length)
  obtain ⟨-, hbranch, hchild⟩ := State.mem_parents.mp hn
  obtain ⟨b, hb⟩ := State.exists_childAt.mpr hchild
  exact ⟨n, b, hbranch, hb⟩

/-- No node is a child twice. -/
theorem TreeInv.parent_unique {n m : Nat} {b c : Bool} (hn : s.isBranch n = true) (hm : s.isBranch m = true)
    (hnm : s.childAt n b = s.childAt m c) : n = m ∧ b = c := by
  have hlt := State.lt_of_isBranch hn
  have hn' : n ∈ s.parents (s.childAt n b) := State.mem_parents.mpr ⟨hlt, hn, State.exists_childAt.mp ⟨b, rfl⟩⟩
  have hm' : m ∈ s.parents (s.childAt n b) :=
    State.mem_parents.mpr ⟨State.lt_of_isBranch hm, hm, State.exists_childAt.mp ⟨c, hnm.symm⟩⟩
  have hlen : (s.parents (s.childAt n b)).length ≤ 1 := by
    rw [ht.parents _ ((ht.childAt_lt h hn b).trans hlt)]
    split <;> omega
  have heq : n = m := by
    have hpos := List.length_pos_of_mem hn'
    obtain ⟨x, hx⟩ := List.length_eq_one_iff.mp (show (s.parents (s.childAt n b)).length = 1 by omega)
    rw [hx, List.mem_singleton] at hn' hm'
    rw [hn', hm']
  exact ⟨heq, ht.childAt_inj h hn (heq ▸ hnm)⟩

theorem TreeInv.parents_of_queued {i : Nat} (hi : i ∈ s.queue) : s.parents i = [] :=
  List.eq_nil_of_length_eq_zero ((ht.parents i (h.queue_lt i hi)).trans (if_pos hi))

/-- What holds of every node in the queue and passes from a Branch to its children holds of every node: going up from
parent to parent ends in the queue. -/
theorem TreeInv.down_induction {P : Nat → Prop} (hqueue : ∀ i ∈ s.queue, P i)
    (hstep : ∀ n b, s.isBranch n = true → P n → P (s.childAt n b)) {i : Nat} (hi : i < s.nodeCount.toNat) : P i := by
  induction hd : s.nodeCount.toNat - i using Nat.strong_induction_on generalizing i with
  | _ d ih =>
    by_cases hq : i ∈ s.queue
    · exact hqueue i hq
    · obtain ⟨n, b, hn, rfl⟩ := ht.exists_parent hi hq
      have hlt := State.lt_of_isBranch hn
      have hchild := ht.childAt_lt h hn b
      exact hstep n b hn (ih _ (by omega) hlt rfl)

/-! ### Weights -/

theorem TreeInv.weightAt_pos {i : Nat} (hi : i < s.nodeCount.toNat) : 1 ≤ s.weightAt i := by
  induction i using Nat.strong_induction_on with
  | _ i ih =>
    by_cases hL : i < s.leafCount.toNat
    · obtain ⟨hlt, hleaf⟩ := ht.leaf h hL
      have hfreq := ((State.mem_symbols s _).mp (List.getElem_mem hlt)).2
      have : (s.freqAt s.symbols[i]).toNat ≠ 0 := fun h0 => hfreq (BitVec.eq_of_toNat_eq h0)
      rw [State.weightAt_of_nodeAt hleaf, leafRec_weight_toNat]
      omega
    · obtain ⟨-, hleft, -, -, hw⟩ := ht.branches i hi (by omega)
      have := ih _ hleft (hleft.trans hi)
      omega

/-- No node is heavier than the queue: a child is no heavier than its Branch. -/
theorem TreeInv.weightAt_le_queueWeight {i : Nat} (hi : i < s.nodeCount.toNat) : s.weightAt i ≤ s.queueWeight :=
  ht.down_induction h (P := fun i => s.weightAt i ≤ s.queueWeight)
    (fun _ hq => List.le_sum_of_mem (List.mem_map_of_mem hq)) (fun _ b hn hw => (ht.childAt_weight_le h hn b).trans hw) hi

end

theorem State.freqTotal_le (s : State) : s.freqTotal ≤ 0xFFFFFFFF00 := by
  have hle := List.sum_le_card_nsmul ((List.range 256).map (fun v => (s.freqAt v).toNat)) 0xFFFFFFFF (by
    intro c hc
    obtain ⟨v, -, rfl⟩ := List.mem_map.mp hc
    exact Nat.le_of_lt_succ (s.freqAt v).isLt)
  simpa [State.freqTotal] using hle

/-- A list without repetition, two different members first. -/
theorem perm_filter_ne_and_ne {q : List Nat} {a b : Nat} (hq : q.Nodup) (ha : a ∈ q) (hb : b ∈ q) (hab : a ≠ b) :
    (a :: b :: q.filter (fun i => i ≠ a ∧ i ≠ b)).Perm q := by
  refine (List.perm_ext_iff_of_nodup (by simpa [hab] using hq.filter _) hq).mpr (fun i => ?_)
  by_cases hia : i = a
  · simp [hia, ha]
  · by_cases hib : i = b <;> simp [hia, hib, hb]

/-- The weight of the queue, two different entries taken out first. -/
theorem queueWeight_split {s : State} (h : WellStored s) {a b : Nat} (ha : a ∈ s.queue) (hb : b ∈ s.queue) (hab : a ≠ b) :
    s.queueWeight =
      s.weightAt a + (s.weightAt b + ((s.queue.filter (fun i => i ≠ a ∧ i ≠ b)).map s.weightAt).sum) := by
  have hperm := perm_filter_ne_and_ne (State.queue_sorted h.inqForm).nodup ha hb hab
  simpa [State.queueWeight] using ((hperm.map s.weightAt).sum_eq).symm

/-- Any two queue entries together weigh at most what FREQ holds. -/
theorem TreeInv.pair_weight_le {s : State} (h : Inv s) (ht : TreeInv s) {a b : Nat} (ha : a ∈ s.queue) (hb : b ∈ s.queue)
    (hab : a ≠ b) : s.weightAt a + s.weightAt b ≤ s.freqTotal := by
  have hpos : 0 < s.nodeCount.toNat := by have := h.queue_lt a ha; omega
  have hsplit := queueWeight_split h.stored ha hb hab
  rw [← ht.total (h.busy_or_done hpos)]
  omega

/-- Settles O29: every node weighs at most what the queue weighs (`TreeInv.weightAt_le_queueWeight`), which is the sum of
FREQ. -/
theorem noWeightOverflows : Obligations.NoWeightOverflows := by
  unfold Obligations.NoWeightOverflows
  intro s h ht
  have htotal := s.freqTotal_le
  refine ⟨htotal, fun i hi => ⟨ht.weightAt_pos h hi, ?_⟩, fun a ha b hb hab => ?_⟩
  · rw [← ht.total (h.busy_or_done (by omega))]
    exact ht.weightAt_le_queueWeight h hi
  · have := ht.pair_weight_le h ha hb hab
    omega

/-! ### BUILD -/

theorem State.symbols_toNat (s : State) : (BitVec.ofNat 9 s.symbols.length).toNat = s.symbols.length := by
  have := s.symbols_length_le
  rw [BitVec.toNat_ofNat]
  omega

@[simp] theorem built_freqAt (s : State) (v : Nat) : (built s).freqAt v = s.freqAt v := placeLeaves_freqAt s 0 s.symbols v

@[simp] theorem built_symbols (s : State) : (built s).symbols = s.symbols :=
  State.symbols_congr (fun v _ => built_freqAt s v)

@[simp] theorem built_leafCount (s : State) : (built s).leafCount.toNat = s.symbols.length := s.symbols_toNat

@[simp] theorem built_nodeCount (s : State) : (built s).nodeCount.toNat = s.symbols.length := s.symbols_toNat

@[simp] theorem built_qCount (s : State) : (built s).qCount.toNat = s.symbols.length := s.symbols_toNat

/-- The k-th record after BUILD is the Leaf of the k-th symbol present. -/
theorem built_nodeAt (s : State) (k : Nat) :
    (built s).nodeAt k = (s.symbols[k]?).map (fun v => leafRec v (s.freqAt v)) := by
  by_cases hk : k < s.symbols.length
  · rw [State.nodeAt_of_lt (by simpa using hk), built, startBuild_frame, placeLeaves_node, dif_pos (by omega),
      List.getElem?_eq_getElem hk]
    rfl
  · rw [State.nodeAt_of_ge (by simpa using hk), List.getElem?_eq_none (by omega)]
    rfl

theorem built_queue {s : State} (h : Inv s) (hp : s.phase = .load) (hs : s.symbols ≠ []) :
    (built s).queue = List.range s.symbols.length := by
  have hform := (inv_startBuild h hp hs).stored.inqForm
  exact placeLeaves_queue h hp s.symbols hform

/-- The symbols present weigh what FREQ holds. -/
theorem symbols_weight (s : State) : (s.symbols.map (fun v => (s.freqAt v).toNat)).sum = s.freqTotal := by
  have hfilter : s.symbols.map (fun v => (s.freqAt v).toNat) =
      ((List.range 256).map (fun v => (s.freqAt v).toNat)).filter (· != 0) := by
    rw [List.filter_map, State.symbols]
    congr 1
    refine List.filter_congr (fun v _ => ?_)
    simp [← BitVec.toNat_inj, bne, beq_eq_decide]
  rw [hfilter, List.sum_filter_bne_zero, State.freqTotal]

theorem built_queueWeight {s : State} (h : Inv s) (hp : s.phase = .load) (hs : s.symbols ≠ []) :
    (built s).queueWeight = (built s).freqTotal := by
  have hweights : (List.range s.symbols.length).map (built s).weightAt = s.symbols.map (fun v => (s.freqAt v).toNat) := by
    refine List.ext_getElem (by simp) (fun k _ hk => ?_)
    have hk : k < s.symbols.length := by simpa using hk
    have hnode : (built s).nodeAt k = some (leafRec s.symbols[k] (s.freqAt s.symbols[k])) := by
      rw [built_nodeAt, List.getElem?_eq_getElem hk, Option.map_some]
    simp [State.weightAt_of_nodeAt hnode]
  rw [State.queueWeight, built_queue h hp hs, hweights, symbols_weight]
  simp only [State.freqTotal, built_freqAt]

/-- After BUILD there are leaves only, all of them in the queue. -/
theorem treeInv_built {s : State} (h : Inv s) (hp : s.phase = .load) (hs : s.symbols ≠ []) : TreeInv (built s) where
  leafCount _ := by rw [built_symbols, built_leafCount]
  leaves k _ := by simp only [built_nodeAt, built_symbols, built_freqAt]
  branches n hn hL := by
    rw [built_nodeCount] at hn
    rw [built_leafCount] at hL
    omega
  parents i hi := by
    have hnone : (built s).parents i = [] := by
      refine List.eq_nil_iff_forall_not_mem.mpr (fun n hn => ?_)
      obtain ⟨-, hbranch, -⟩ := State.mem_parents.mp hn
      rw [State.isBranch, built_nodeAt] at hbranch
      cases hv : s.symbols[n]? <;> simp [hv, leafRec] at hbranch
    rw [built_nodeCount] at hi
    rw [hnone, built_queue h hp hs, if_pos (List.mem_range.mpr hi)]
    rfl
  total _ := built_queueWeight h hp hs

/-! ### MERGE -/

/-- In BUSY a record is free. -/
theorem Inv.nodeCount_lt {s : State} (h : Inv s) (hp : s.phase = .busy) : s.nodeCount.toNat < 511 := by
  obtain ⟨-, hL, -, hn, -⟩ := h.phases.busy hp
  omega

section
variable {s : State} {l r : Entry} (h : Inv s) (hp : s.phase = .busy)
include h hp

theorem joinPair_nodeCount_toNat : (joinPair l r s).nodeCount.toNat = s.nodeCount.toNat + 1 := by
  have := h.nodeCount_lt hp
  rw [joinPair_nodeCount]
  bv_omega

theorem joinPair_nodeAt_old {i : Nat} (hi : i ≠ s.nodeCount.toNat) : (joinPair l r s).nodeAt i = s.nodeAt i := by
  have := h.nodeCount_lt hp
  rw [joinPair_nodeAt l r s (by bv_omega), if_neg hi]

theorem joinPair_nodeAt_new :
    (joinPair l r s).nodeAt s.nodeCount.toNat = some (branchRec l.idx r.idx l.weight r.weight) := by
  have := h.nodeCount_lt hp
  rw [joinPair_nodeAt l r s (by bv_omega), if_pos rfl]

variable (hm : MergePair s l r)
include hm

omit hp in
theorem MergePair.idx_lt : l.idx < s.nodeCount.toNat ∧ r.idx < s.nodeCount.toNat :=
  ⟨h.queue_lt _ hm.left.queued, h.queue_lt _ hm.right.queued⟩

/-- The new Branch has the chosen pair as its children. -/
theorem joinPair_newBranch :
    (joinPair l r s).isBranch s.nodeCount.toNat = true ∧ (joinPair l r s).leftAt s.nodeCount.toNat = l.idx ∧
      (joinPair l r s).rightAt s.nodeCount.toNat = r.idx := by
  have := h.nodeCount_lt hp
  obtain ⟨hl, hr⟩ := hm.idx_lt h
  simp only [State.isBranch, State.leftAt, State.rightAt, joinPair_nodeAt_new h hp, branchRec, BitVec.toNat_ofNat]
  exact ⟨rfl, by omega, by omega⟩

/-- The 40-bit sum does not wrap: the new Branch weighs what its children weigh. -/
theorem joinPair_newWeight (ht : TreeInv s) :
    (joinPair l r s).weightAt s.nodeCount.toNat = s.weightAt l.idx + s.weightAt r.idx := by
  have hpair := ht.pair_weight_le h hm.left.queued hm.right.queued hm.ne
  have htotal := s.freqTotal_le
  rw [hm.left.weightAt, hm.right.weightAt] at hpair ⊢
  rw [State.weightAt_of_nodeAt (joinPair_nodeAt_new h hp), branchRec, BitVec.toNat_add]
  omega

/-- The parents after a MERGE: the new Branch is the one more parent of each of its children. -/
theorem joinPair_parents (i : Nat) :
    (joinPair l r s).parents i = s.parents i ++ if l.idx = i ∨ r.idx = i then [s.nodeCount.toNat] else [] := by
  obtain ⟨hbranch, hleft, hright⟩ := joinPair_newBranch h hp hm
  have hold : ∀ n ∈ List.range s.nodeCount.toNat,
      ((joinPair l r s).isBranch n && ((joinPair l r s).leftAt n = i || (joinPair l r s).rightAt n = i)) =
        (s.isBranch n && (s.leftAt n = i || s.rightAt n = i)) := by
    intro n hn
    obtain ⟨-, hl, hr, hb⟩ := State.nodeAt_congr (joinPair_nodeAt_old (l := l) (r := r) h hp (List.mem_range.mp hn).ne)
    rw [hl, hr, hb]
  rw [State.parents, joinPair_nodeCount_toNat h hp, List.range_succ, List.filter_append, List.filter_congr hold,
    ← State.parents]
  simp [List.filter_cons, hbranch, hleft, hright]

/-- The queue after a MERGE weighs what it weighed before. -/
theorem joinPair_queueWeight (ht : TreeInv s) : (joinPair l r s).queueWeight = s.queueWeight := by
  have hold : ∀ i ∈ s.queue.filter (fun i => i ≠ l.idx ∧ i ≠ r.idx), (joinPair l r s).weightAt i = s.weightAt i :=
    fun i hi => (State.nodeAt_congr (joinPair_nodeAt_old h hp (h.queue_lt i (List.mem_filter.mp hi).1).ne)).1
  rw [queueWeight_split h.stored hm.left.queued hm.right.queued hm.ne, State.queueWeight,
    joinPair_queue h.stored.inqForm h.queue_lt, List.map_append, List.map_congr_left hold, List.sum_append,
    List.map_singleton, joinPair_newWeight h hp hm ht, List.sum_singleton]
  omega

/-- After a MERGE a node in the queue has no parent and every other node has one: the new Branch has none, its children had
none and left the queue, and nothing changes for the rest. -/
theorem joinPair_parents_length (ht : TreeInv s) {i : Nat} (hi : i < (joinPair l r s).nodeCount.toNat) :
    ((joinPair l r s).parents i).length = if i ∈ (joinPair l r s).queue then 0 else 1 := by
  obtain ⟨hl, hr⟩ := hm.idx_lt h
  rw [joinPair_nodeCount_toNat h hp] at hi
  rw [joinPair_parents h hp hm, joinPair_queue h.stored.inqForm h.queue_lt]
  by_cases hnew : i = s.nodeCount.toNat
  · have hnone : s.parents i = [] := by
      refine List.eq_nil_iff_forall_not_mem.mpr (fun n hn => ?_)
      obtain ⟨hlt, hbranch, hchild⟩ := State.mem_parents.mp hn
      obtain ⟨-, hleft, hright, -⟩ := ht.branch h hbranch
      omega
    rw [hnone, if_neg (by omega), if_pos (by simp [hnew])]
    rfl
  · have hparents := ht.parents i (by omega)
    by_cases hchild : l.idx = i ∨ r.idx = i
    · have hq : i ∈ s.queue := by
        rcases hchild with rfl | rfl
        · exact hm.left.queued
        · exact hm.right.queued
      have hout : i = l.idx ∨ i = r.idx := hchild.imp Eq.symm Eq.symm
      rw [if_pos hq] at hparents
      simp [hchild, hparents, hnew, ← not_or, hout]
    · have hstay : i ≠ l.idx ∧ i ≠ r.idx := ⟨fun e => hchild (.inl e.symm), fun e => hchild (.inr e.symm)⟩
      simp [hchild, hparents, hnew, hstay]

/-- MERGE keeps the tree: the new Branch takes two nodes out of the queue and becomes their one parent. -/
theorem treeInv_joinPair (ht : TreeInv s) : TreeInv (joinPair l r s) := by
  obtain ⟨hl, hr⟩ := hm.idx_lt h
  have hcount := joinPair_nodeCount_toNat (l := l) (r := r) h hp
  have hsym : (joinPair l r s).symbols = s.symbols := State.symbols_congr (fun v _ => joinPair_freqAt l r s v)
  have hold : ∀ i, i < s.nodeCount.toNat → (joinPair l r s).nodeAt i = s.nodeAt i :=
    fun i hi => joinPair_nodeAt_old h hp hi.ne
  refine ⟨fun _ => ?_, fun k hk => ?_, fun n hn hL => ?_, fun i => joinPair_parents_length h hp hm ht, fun _ => ?_⟩
  · rw [hsym, joinPair_leafCount]
    exact ht.leafCount (.inl hp)
  · rw [joinPair_leafCount] at hk
    rw [hold k (hk.trans_le h.leafCount_le), ht.leaves k hk, hsym]
    simp only [joinPair_freqAt]
  · rw [joinPair_leafCount] at hL
    by_cases hnew : n = s.nodeCount.toNat
    · subst hnew
      obtain ⟨hbranch, hleft, hright⟩ := joinPair_newBranch h hp hm
      rw [hleft, hright, (State.nodeAt_congr (hold _ hl)).1, (State.nodeAt_congr (hold _ hr)).1]
      exact ⟨hbranch, hl, hr, hm.ne, joinPair_newWeight h hp hm ht⟩
    · have hn : n < s.nodeCount.toNat := by omega
      obtain ⟨hw', hl', hr', hb'⟩ := State.nodeAt_congr (hold n hn)
      obtain ⟨hbranch, hleft, hright, hne, hw⟩ := ht.branches n hn hL
      rw [hw', hl', hr', hb', (State.nodeAt_congr (hold _ (hleft.trans hn))).1,
        (State.nodeAt_congr (hold _ (hright.trans hn))).1]
      exact ⟨hbranch, hleft, hright, hne, hw⟩
  · rw [joinPair_queueWeight h hp hm ht, ht.total (.inl hp)]
    simp only [State.freqTotal, joinPair_freqAt]

end

/-! ### Every step -/

/-- Settles O36, by what a step can do to the block. -/
theorem stepKeepsTheTree : Obligations.StepKeepsTheTree := by
  unfold Obligations.StepKeepsTheTree
  intro p s t h htree ht
  obtain hend | hsame | ⟨u, hu, hload, hsym, hbuilt⟩ | ⟨hp, l, r, hsel, hjoin⟩ := stepWith_block ht
  · exact treeInv_of_load_or_fail (stepKeepsTheInvariant p s t h ht) hend
  · exact treeInv_of_sameBlock htree hsame
  · exact treeInv_of_sameBlock (treeInv_built (inv_of_sameBlock h hu) hload hsym) hbuilt
  · exact treeInv_of_sameBlock (treeInv_joinPair h hp (hsel.mergePair h.stored) htree) hjoin

/-! ### The order of the Branch weights -/

theorem mergeOrder_of_sameBlock {s t : State} (h : MergeOrder s) (hb : SameBlock s t) : MergeOrder t := by
  rw [hb.eq_with]
  obtain ⟨rising, queueAbove⟩ := h
  exact ⟨rising, queueAbove⟩

/-- After BUILD there is no Branch. -/
theorem mergeOrder_built (s : State) : MergeOrder (built s) := by
  constructor
  · intro n hn hL
    rw [built_nodeCount] at hn
    rw [built_leafCount] at hL
    omega
  · intro _ hlt
    rw [built_leafCount, built_nodeCount] at hlt
    omega

/-- MERGE keeps the order: both children of the new Branch were in the queue, so each weighs at least what each child of the
Branch before it weighs. -/
theorem mergeOrder_joinPair {s : State} {l r : Entry} (h : Inv s) (hp : s.phase = .busy) (hm : MergePair s l r)
    (htree : TreeInv s) (hord : MergeOrder s) : MergeOrder (joinPair l r s) := by
  obtain ⟨hl, hr⟩ := hm.idx_lt h
  have hcount := joinPair_nodeCount_toNat (l := l) (r := r) h hp
  have hnew := joinPair_newWeight h hp hm htree
  have hold : ∀ i, i < s.nodeCount.toNat → (joinPair l r s).weightAt i = s.weightAt i :=
    fun i hi => (State.nodeAt_congr (joinPair_nodeAt_old h hp hi.ne)).1
  constructor
  · intro n hn hL
    rw [joinPair_leafCount] at hL
    by_cases hlast : n + 1 = s.nodeCount.toNat
    · obtain ⟨-, -, -, -, hw⟩ := htree.branches n (by omega) hL
      have hnewest : s.nodeCount.toNat - 1 = n := by omega
      obtain ⟨hleft, -⟩ := hord.queueAbove hp (by omega) l.idx hm.left.queued
      obtain ⟨-, hright⟩ := hord.queueAbove hp (by omega) r.idx hm.right.queued
      rw [hnewest] at hleft hright
      rw [hold n (by omega), hlast, hnew, hw]
      exact Nat.add_le_add hleft hright
    · rw [hold n (by omega), hold (n + 1) (by omega)]
      exact hord.rising n (by omega) hL
  · intro _ _ i hi
    obtain ⟨-, hleft, hright⟩ := joinPair_newBranch h hp hm
    have hnewest : (joinPair l r s).nodeCount.toNat - 1 = s.nodeCount.toNat := by omega
    rw [hnewest, hleft, hright, hold _ hl, hold _ hr]
    rw [joinPair_queue h.stored.inqForm h.queue_lt, List.mem_append, List.mem_singleton] at hi
    obtain hi | rfl := hi
    · obtain ⟨hq, hne⟩ := List.mem_filter.mp hi
      obtain ⟨hil, hir⟩ := of_decide_eq_true hne
      rw [hold i (h.queue_lt i hq)]
      exact hm.restAbove i hq hil hir
    · rw [hnew]
      omega

/-- Settles O37, by what a step can do to the block. -/
theorem stepKeepsBranchWeightsRising : Obligations.StepKeepsBranchWeightsRising := by
  unfold Obligations.StepKeepsBranchWeightsRising
  intro p s t h htree hord ht
  obtain hend | hsame | ⟨u, hu, hload, hsym, hbuilt⟩ | ⟨hp, l, r, hsel, hjoin⟩ := stepWith_block ht
  · exact mergeOrder_of_load_or_fail (stepKeepsTheInvariant p s t h ht) hend
  · exact mergeOrder_of_sameBlock hord hsame
  · exact mergeOrder_of_sameBlock (mergeOrder_built u) hbuilt
  · exact mergeOrder_of_sameBlock (mergeOrder_joinPair h hp (hsel.mergePair h.stored) htree hord) hjoin

/-! ### Reachable states -/

/-- The three invariants hold along every run from reset. -/
theorem invariants_of_runWith_reset {p : TiePolicy} {ms : List Move} {k : Nat} {s : State}
    (hs : runWith p k (State.reset.setSchedule ms) = .next s) : Inv s ∧ TreeInv s ∧ MergeOrder s :=
  runWith_keeps (P := fun s => Inv s ∧ TreeInv s ∧ MergeOrder s)
    (fun u v ⟨h, htree, hord⟩ hv => ⟨stepKeepsTheInvariant p u v h hv, stepKeepsTheTree p u v h htree hv,
      stepKeepsBranchWeightsRising p u v h htree hord hv⟩)
    (resetMeetsTheInvariants ms) hs

/-- Settles O40: the invariants hold along the run, and in DONE the root is all of the queue. -/
theorem reachableTreeWeights : Obligations.ReachableTreeWeights := by
  unfold Obligations.ReachableTreeWeights
  intro p ms k s hs
  obtain ⟨h, htree, hord⟩ := invariants_of_runWith_reset hs
  refine ⟨fun n hL hn => hord.rising n hn hL, fun hp => ?_⟩
  obtain ⟨-, -, -, -, hqueue, -⟩ := h.phases.done hp
  rw [← htree.total (.inr hp), State.queueWeight, hqueue]
  simp

end Sys2Proof.Machine
end

section
/-! PROOF. Paths in the finished tree (41_build.md rules R130, R132 and R135): every node is reached from ROOT along exactly
one path, and how long a path can be. -/

namespace Sys2Proof.Machine

/-! ### Paths, one child at a time -/

/-- Induction along a path with one case for both sides. -/
theorem HasPath.child_induction {s : State} {P : Nat → List Bool → Nat → Prop} (here : ∀ i, P i [] i)
    (step : ∀ i b bits k, s.isBranch i = true → P (s.childAt i b) bits k → P i (b :: bits) k) {i k : Nat} {bits : List Bool}
    (h : HasPath s i bits k) : P i bits k := by
  induction h with
  | here i => exact here i
  | left i k bits hi _ ih => exact step i false bits k hi ih
  | right i k bits hi _ ih => exact step i true bits k hi ih

theorem HasPath.cons {s : State} {i k : Nat} {b : Bool} {bits : List Bool} (hi : s.isBranch i = true)
    (h : HasPath s (s.childAt i b) bits k) : HasPath s i (b :: bits) k := by
  cases b
  · exact .left i k bits hi h
  · exact .right i k bits hi h

/-- A path goes on from a Branch at its end. -/
theorem HasPath.snoc {s : State} {i n : Nat} {bits : List Bool} (h : HasPath s i bits n) (hn : s.isBranch n = true) (b : Bool) :
    HasPath s i (bits ++ [b]) (s.childAt n b) :=
  HasPath.child_induction (P := fun i bits n => s.isBranch n = true → HasPath s i (bits ++ [b]) (s.childAt n b))
    (fun _ hi => .cons hi (.here _)) (fun _ _ _ _ hi ih hn => .cons hi (ih hn)) h hn

/-- A path is empty or has a last step, from a Branch to its child. -/
theorem HasPath.eq_nil_or_snoc {s : State} {i k : Nat} {bits : List Bool} (h : HasPath s i bits k) :
    (bits = [] ∧ i = k) ∨
    ∃ front n b, bits = front ++ [b] ∧ HasPath s i front n ∧ s.isBranch n = true ∧ s.childAt n b = k := by
  refine HasPath.child_induction (P := fun i bits k => (bits = [] ∧ i = k) ∨ ∃ front n b, bits = front ++ [b] ∧
    HasPath s i front n ∧ s.isBranch n = true ∧ s.childAt n b = k) (fun i => .inl ⟨rfl, rfl⟩) ?_ h
  rintro i b bits k hi (⟨rfl, hk⟩ | ⟨front, n, c, rfl, hfront, hn, hk⟩)
  · exact .inr ⟨[], i, b, rfl, .here i, hi, hk⟩
  · exact .inr ⟨b :: front, n, c, rfl, .cons hi hfront, hn, hk⟩

/-- A path passes Branches of falling index only, and Branches start at LEAF_COUNT. -/
theorem HasPath.length_le {s : State} (hinv : Inv s) (ht : TreeInv s) {i k : Nat} {bits : List Bool} (h : HasPath s i bits k) :
    bits.length ≤ i + 1 - s.leafCount.toNat := by
  refine HasPath.child_induction (P := fun i bits _ => bits.length ≤ i + 1 - s.leafCount.toNat)
    (fun i => Nat.zero_le _) (fun i b bits k hi ih => ?_) h
  have hL := (ht.branch hinv hi).1
  have hchild := ht.childAt_lt hinv hi b
  rw [List.length_cons]
  omega

/-! ### Paths from ROOT -/

section
variable {s : State} (h : Inv s) (ht : TreeInv s) (hp : s.phase = .done)
include h ht hp

theorem TreeInv.root_no_child {n : Nat} {b : Bool} (hn : s.isBranch n = true) : s.childAt n b ≠ s.root.toNat := by
  obtain ⟨-, -, -, -, hqueue, -⟩ := h.phases.done hp
  intro hchild
  have hmem : n ∈ s.parents s.root.toNat :=
    State.mem_parents.mpr ⟨State.lt_of_isBranch hn, hn, State.exists_childAt.mp ⟨b, hchild⟩⟩
  rw [ht.parents_of_queued h (by simp [hqueue])] at hmem
  cases hmem

/-- Every node is reached from ROOT along exactly one path: ROOT is nobody's child, and the last step of a path into any
other node comes from its one parent. -/
theorem TreeInv.unique_path {k : Nat} (hk : k < s.nodeCount.toNat) :
    ∃ bits, HasPath s s.root.toNat bits k ∧ ∀ other, HasPath s s.root.toNat other k → other = bits := by
  obtain ⟨-, -, -, -, hqueue, -⟩ := h.phases.done hp
  refine ht.down_induction h (P := fun k => ∃ bits, HasPath s s.root.toNat bits k ∧
    ∀ other, HasPath s s.root.toNat other k → other = bits) (fun i hi => ?_) ?_ hk
  · rw [hqueue, List.mem_singleton] at hi
    subst hi
    refine ⟨[], .here _, fun other hother => ?_⟩
    obtain ⟨hnil, -⟩ | ⟨-, n, b, -, -, hn, hchild⟩ := hother.eq_nil_or_snoc
    · exact hnil
    · exact absurd hchild (ht.root_no_child h hp hn)
  · rintro n b hn ⟨bits, hbits, hunique⟩
    refine ⟨bits ++ [b], hbits.snoc hn b, fun other hother => ?_⟩
    obtain ⟨-, hroot⟩ | ⟨front, m, c, rfl, hfront, hm, hchild⟩ := hother.eq_nil_or_snoc
    · exact absurd hroot.symm (ht.root_no_child h hp hn)
    · obtain ⟨rfl, rfl⟩ := ht.parent_unique h hm hn hchild
      rw [hunique front hfront]

end

/-- Settles O42: `TreeInv.unique_path`. -/
theorem everyNodeHasExactlyOnePath : Obligations.EveryNodeHasExactlyOnePath := by
  unfold Obligations.EveryNodeHasExactlyOnePath
  exact fun s k h ht hp hk => ht.unique_path h hp hk

/-- Settles O41: a path from ROOT = 2L - 2 passes Branches of falling index down to L at most (`HasPath.length_le`). -/
theorem leafDepthIsBounded : Obligations.LeafDepthIsBounded := by
  unfold Obligations.LeafDepthIsBounded
  intro s k h ht hp hk
  obtain ⟨hL1, hL256, hnode, -, -, hroot, -⟩ := h.phases.done hp
  obtain ⟨bits, hbits, -⟩ := ht.unique_path h hp (hk.trans_le h.leafCount_le)
  refine ⟨⟨bits, hbits⟩, fun bits hbits => ?_⟩
  have hle := hbits.length_le h ht
  have hpos : 2 ≤ s.leafCount.toNat → 1 ≤ bits.length := by
    intro hL
    obtain ⟨-, hk'⟩ | ⟨front, -, b, rfl, -⟩ := hbits.eq_nil_or_snoc
    · omega
    · rw [List.length_append, List.length_singleton]
      omega
  exact ⟨fun hL => by omega, fun hL => ⟨hpos hL, by omega⟩, by omega⟩

/-- A record is a LEAF exactly below LEAF_COUNT. -/
theorem TreeInv.isLeaf_iff {s : State} (h : Inv s) (ht : TreeInv s) {n : Nat} (hn : n < s.nodeCount.toNat) :
    s.isLeaf n = true ↔ n < s.leafCount.toNat := by
  by_cases hL : n < s.leafCount.toNat
  · obtain ⟨hlt, hleaf⟩ := ht.leaf h hL
    exact iff_of_true (by rw [State.isLeaf, hleaf]; rfl) hL
  · have hbranch := (ht.isBranch_iff h hn).mpr (by omega)
    refine iff_of_false (fun hleaf => ?_) hL
    cases hr : s.nodeAt n with
    | none => simp [State.isLeaf, hr] at hleaf
    | some r =>
      simp only [State.isLeaf, hr, decide_eq_true_iff] at hleaf
      simp [State.isBranch, hr, hleaf] at hbranch

/-- Settles O39: the tree invariant along the run gives the leaves, the Branches and the parents, `TreeInv.unique_path` that
every node is reached. -/
theorem finishedTreeIsStrictBinary : Obligations.FinishedTreeIsStrictBinary := by
  unfold Obligations.FinishedTreeIsStrictBinary
  intro p ms k s hs hp
  obtain ⟨h, ht, -⟩ := invariants_of_runWith_reset hs
  obtain ⟨-, hL256, hnode, -, hqueue, -, -⟩ := h.phases.done hp
  have hlen := ht.leafCount (.inr hp)
  refine ⟨⟨s.symbols, s.symbols_sorted, s.mem_symbols, hlen, fun j hj => ?_⟩, fun n hn => ht.isLeaf_iff h hn,
    fun n hn hL => ?_, fun i hi hroot => ?_, ht.parents_of_queued h (by simp [hqueue]), hnode, by omega, fun k hk => ?_⟩
  · obtain ⟨_, hleaf⟩ := ht.leaf h (hlen ▸ hj)
    have hsym := ((State.mem_symbols s _).mp (List.getElem_mem hj)).1
    exact ⟨_, hleaf, rfl, by rw [leafRec, BitVec.toNat_ofNat]; omega⟩
  · obtain ⟨hbranch, hleft, hright, hne, -⟩ := ht.branches n hn hL
    exact ⟨hbranch, hleft, hright, hne⟩
  · rw [ht.parents i hi, if_neg (by simp [hqueue, hroot])]
  · obtain ⟨bits, hbits, -⟩ := ht.unique_path h hp hk
    exact ⟨bits, hbits⟩

end Sys2Proof.Machine
end

section
/-! PROOF. BUILD and MERGE as functions of the block (41_build.md rules R120 to R128): what each writes and leaves alone, the
pairs either tie policy admits, and that no command but CLEAR disturbs a running build (R129). -/

namespace Sys2Proof.Machine

/-! ### BUILD -/

theorem decode_eq_ok_iff_encode {w : CmdWord} {i : Instr} : decode w = .ok i ↔ w = encode i :=
  ⟨fun h => (encode_of_decode h).symm, fun h => h ▸ decode_encode i⟩

theorem exec_build_badPhase {s : State} (hp : s.phase ≠ .load) : exec .build s = .next (s.respond .badPhase 0#64) := if_pos hp

theorem exec_build_empty {s : State} (hp : s.phase = .load) (hs : s.symbols = []) :
    exec .build s = .next (((s.setPhase .fail).setBuildErr 1#3).respond .emptyInput 0#64) :=
  (if_neg (not_not_intro hp)).trans (if_pos hs)

theorem exec_build_symbols {s : State} (hp : s.phase = .load) (hs : s.symbols ≠ []) :
    exec .build s = .next ((built s).respond .ok 0#64) :=
  (if_neg (not_not_intro hp)).trans (if_neg hs)

theorem built_phase (s : State) : (built s).phase = if s.symbols.length = 1 then .done else .busy := by
  have hone : BitVec.ofNat 9 s.symbols.length = 1#9 ↔ s.symbols.length = 1 := by
    rw [← BitVec.toNat_inj, s.symbols_toNat]
    rfl
  rw [built, startBuild_frame]
  simp only [hone]

theorem built_inqAt (s : State) (k : Nat) : (built s).inqAt k = if k < s.symbols.length then true else s.inqAt k := by
  have hloop := placeLeaves_inqAt s 0 s.symbols k
  simpa [built, startBuild] using hloop

theorem built_frame (s : State) :
    built s = { s with
      phase := (built s).phase, leafCount := (built s).leafCount, nodeCount := (built s).nodeCount, root := 0#9,
      qCount := (built s).qCount, node := (built s).node, inq := (built s).inq } := by
  rw [built, startBuild_frame, placeLeaves_frame]

/-- Settles O13: `S` is the list of the symbols present, and the leaves are those of `built_nodeAt`. -/
theorem buildPlacesTheLeaves : Obligations.BuildPlacesTheLeaves := by
  unfold Obligations.BuildPlacesTheLeaves
  intro s S hsorted hmem
  obtain rfl : s.symbols = S :=
    s.symbols_sorted.eq_of_mem_iff hsorted (fun v => (s.mem_symbols v).trans (hmem v).symm)
  refine ⟨fun w => decode_eq_ok_iff_encode, exec_build_badPhase, exec_build_empty, fun hp hs => ?_⟩
  refine ⟨_, exec_build_symbols hp hs, rfl, built_leafCount s, built_nodeCount s, built_qCount s, rfl,
    fun h1 => (built_phase s).trans (if_pos h1), fun h1 => (built_phase s).trans (if_neg h1), fun k hk => ?_, built_inqAt s, ?_⟩
  · have hv := ((s.mem_symbols _).mp (List.getElem_mem hk)).1
    refine ⟨leafRec s.symbols[k] (s.freqAt s.symbols[k]), ?_, rfl, ?_, rfl, rfl, leafRec_weight_toNat _ _⟩
    · rw [State.respond_nodeAt, built_nodeAt, List.getElem?_eq_getElem hk, Option.map_some]
    · rw [leafRec, BitVec.toNat_ofNat]
      omega
  · exact congrArg (State.respond · .ok 0#64) (built_frame s)

/-! ### MERGE -/

/-- Under `index_order` the engine's turn in BUSY joins the selected pair. -/
theorem engineStep_indexOrder {s t : State} (hp : s.phase = .busy) (ht : engineStep .indexOrder s = .next t) :
    ∃ l r, Selects .indexOrder s l r ∧ t = joinPair l r s := by
  have hm : engineStep .indexOrder s = mergeWith .indexOrder default s := if_neg (not_not_intro hp)
  exact exists_mergeWith_iff.mp ⟨_, hm.symm.trans ht⟩

/-- Settles O27: the selection of `index_order` (`Selects.smallestKeys`) and the writes of a MERGE. -/
theorem mergeJoinsTheTwoSmallestKeys : Obligations.MergeJoinsTheTwoSmallestKeys := by
  unfold Obligations.MergeJoinsTheTwoSmallestKeys
  refine ⟨fun p s hp => if_pos hp, fun s h hp => ?_⟩
  obtain ⟨t, ht, -⟩ := engineStep_next_of_inv h .indexOrder
  obtain ⟨l, r, hsel, rfl⟩ := engineStep_indexOrder hp ht
  obtain ⟨⟨hl, rl, hrl, hwl⟩, ⟨hr, rr, hrr, hwr⟩, hne, hkeyl, hkeyr⟩ := hsel.smallestKeys h.stored
  obtain ⟨-, -, -, -, -, hq2, -⟩ := h.phases.busy hp
  have hlast : s.qCount - 1#9 = 1#9 ↔ s.qCount = 2#9 := by bv_omega
  refine ⟨l.idx, r.idx, rl, rr, _, hl, hr, hne, hrl, hrr, fun x hx hxl => hkeyl x hx trivial hxl,
    fun x hx hxl hxr => hkeyr x hx hxl hxr, ht, ?_, fun i hi => joinPair_nodeAt_old h hp hi, joinPair_inqAt l r s,
    joinPair_nodeCount_toNat h hp, ?_, fun hq => ?_, fun hq => ?_, ?_⟩
  · rw [joinPair_nodeAt_new h hp, branchRec, hwl, hwr]
  · rw [joinPair_qCount]
    bv_omega
  · simp [hq]
  · simp [hlast, hq, hp]
  · rw [joinPair_frame]

/-- Under `any_min` a MERGE takes exactly the pairs and child orders of rule R125. -/
theorem selects_anyMin_iff {s : State} (h : Inv s) (hp : s.phase = .busy) {l r : Entry} :
    Selects .anyMin s l r ↔ LightestPair s l r ∨ LightestPair s r l := by
  have hn : s.nodeCount ≠ 511#9 := by
    have := h.nodeCount_lt hp
    bv_omega
  refine ⟨Selects.lightestPair h.stored, ?_⟩
  rintro (hpair | hpair)
  · exact (hpair.selects h.stored h.queue_lt hn).1
  · exact (hpair.selects h.stored h.queue_lt hn).2

/-- A MERGE under `any_min`, by the pair of rule R125 it joins. -/
theorem exists_anyMin_iff {s t : State} (h : Inv s) (hp : s.phase = .busy) :
    (∃ pick, mergeWith .anyMin pick s = .next t) ↔
      ∃ a b, LightestPair s a b ∧ (t = joinPair a b s ∨ t = joinPair b a s) := by
  rw [exists_mergeWith_iff]
  constructor
  · rintro ⟨l, r, hsel, ht⟩
    obtain hpair | hpair := (selects_anyMin_iff h hp).mp hsel
    · exact ⟨l, r, hpair, .inl ht⟩
    · exact ⟨r, l, hpair, .inr ht⟩
  · rintro ⟨a, b, hpair, ht | ht⟩
    · exact ⟨a, b, (selects_anyMin_iff h hp).mpr (.inl hpair), ht⟩
    · exact ⟨b, a, (selects_anyMin_iff h hp).mpr (.inr hpair), ht⟩

/-- The pairs of rule R125 by their nodes and records. -/
theorem exists_lightestPair_iff {s : State} {Q : Entry → Entry → Prop} :
    (∃ a b, LightestPair s a b ∧ Q a b) ↔
      ∃ a b ra rb, a ∈ s.queue ∧ b ∈ s.queue ∧ b ≠ a ∧ s.nodeAt a = some ra ∧ s.nodeAt b = some rb ∧
        (∀ x ∈ s.queue, s.weightAt a ≤ s.weightAt x) ∧ (∀ x ∈ s.queue, x ≠ a → s.weightAt b ≤ s.weightAt x) ∧
        Q ⟨a, ra.weight⟩ ⟨b, rb.weight⟩ := by
  constructor
  · rintro ⟨⟨a, wa⟩, ⟨b, wb⟩, ⟨⟨ha, ra, hra, rfl⟩, ⟨hb, rb, hrb, rfl⟩, hne, hfirst, hsecond⟩, hQ⟩
    exact ⟨a, b, ra, rb, ha, hb, hne.symm, hra, hrb, hfirst, hsecond, hQ⟩
  · rintro ⟨a, b, ra, rb, ha, hb, hne, hra, hrb, hfirst, hsecond, hQ⟩
    exact ⟨_, _, ⟨⟨ha, ra, hra, rfl⟩, ⟨hb, rb, hrb, rfl⟩, hne.symm, hfirst, hsecond⟩, hQ⟩

theorem joinPair_countDraw (l r : Entry) (s : State) : joinPair l r s.countDraw = (joinPair l r s).countDraw := by
  rw [joinPair_frame, joinPair_frame l r s, joinPair_node, joinPair_node, joinPair_inq, joinPair_inq]
  rfl

theorem joinPair_draws (l r : Entry) (s : State) : (joinPair l r s).draws = s.draws := by rw [joinPair_frame]

/-- Settles O28: a MERGE under `any_min` takes the pairs of `LightestPair`, and every selection is one of them. -/
theorem anyMinAdmitsExactlyTheEnvelope : Obligations.AnyMinAdmitsExactlyTheEnvelope := by
  unfold Obligations.AnyMinAdmitsExactlyTheEnvelope
  intro s t h hp
  refine ⟨(exists_anyMin_iff h hp).trans exists_lightestPair_iff, fun ht => ?_, fun ht => ?_⟩
  · have hm : engineStep .anyMin s = mergeWith .anyMin (Config.tiePick s.draws) s.countDraw := if_neg (not_not_intro hp)
    obtain ⟨l, r, hsel, rfl⟩ := exists_mergeWith_iff.mp ⟨_, hm.symm.trans ht⟩
    refine exists_mergeWith_iff.mpr ⟨l, r, hsel.of_sameBlock (sameBlock_countDraw s).symm, ?_⟩
    rw [joinPair_countDraw, State.countDraw, ← joinPair_draws l r s]
  · obtain ⟨l, r, hsel, rfl⟩ := engineStep_indexOrder hp ht
    exact exists_mergeWith_iff.mpr ⟨l, r, (selects_anyMin_iff h hp).mpr (hsel.lightestPair h.stored), rfl⟩

/-! ### Commands during a build -/

theorem exec_nodeRd_badPhase {s : State} (hp : s.phase ≠ .done) (idx : Idx) :
    exec (.nodeRd idx) s = .next (s.respond .badPhase 0#64) := if_pos hp

/-- In BUSY a command other than CLEAR answers a response and writes nothing else; the loading commands, BUILD and NODE_RD
are refused. -/
theorem exec_busy {i : Instr} {s t : State} (hp : s.phase = .busy) (ht : exec i s = .next t) (hi : i ≠ .clear) :
    ∃ rc d, t = s.respond rc d ∧ (rc = .ok → i = .nop ∨ i = .statusRd ∨ ∃ sym, i = .freqRd sym) := by
  have hrefused : ∀ {j : Instr}, exec j s = .next (s.respond .badPhase 0#64) → exec j s = .next t →
      ∃ rc d, t = s.respond rc d ∧ (rc = .ok → j = .nop ∨ j = .statusRd ∨ ∃ sym, j = .freqRd sym) := by
    intro j hj ht
    cases hj.symm.trans ht
    exact ⟨_, _, rfl, fun h => nomatch h⟩
  have hload : s.phase ≠ .load := by simp [hp]
  cases i with
  | clear => exact absurd rfl hi
  | nop => cases ht; exact ⟨_, _, rfl, fun _ => .inl rfl⟩
  | statusRd => cases ht; exact ⟨_, _, rfl, fun _ => .inr (.inl rfl)⟩
  | freqRd sym =>
    obtain ⟨rc, d, rfl⟩ := read_next (.inr (.inl ⟨sym, rfl⟩)) ht
    exact ⟨rc, d, rfl, fun _ => .inr (.inr ⟨sym, rfl⟩)⟩
  | freqWr sym value => exact hrefused (exec_freqWr_badPhase hload sym value) ht
  | freqInc sym => exact hrefused (exec_freqInc_badPhase hload sym) ht
  | build => exact hrefused (exec_build_badPhase hload) ht
  | nodeRd idx => exact hrefused (exec_nodeRd_badPhase (by simp [hp]) idx) ht

/-- Settles O32, by what a command can do in BUSY. -/
theorem commandsLeaveARunningBuildAlone : Obligations.CommandsLeaveARunningBuildAlone := by
  unfold Obligations.CommandsLeaveARunningBuildAlone
  intro i s t hp ht hi
  obtain ⟨rc, d, rfl, hok⟩ := exec_busy hp ht hi
  refine ⟨rfl, fun e he => hok ?_⟩
  cases he
  rfl

end Sys2Proof.Machine
end

section
/-! PROOF. Runs of a build (41_build.md rules R127, R129 and R132): how many engine turns it takes, and that the finished tree
does not depend on the schedule. -/

namespace Sys2Proof.Machine

/-! ### Engine turns in BUSY -/

/-- An engine turn in BUSY makes one node of two queue entries; it is the last one exactly at QCOUNT = 2. -/
theorem engineTurn_busy {s : State} (h : Inv s) (hp : s.phase = .busy) (p : TiePolicy) :
    ∃ t, engineStep p s = .next t ∧ Inv t ∧ t.schedule = s.schedule ∧ t.nodeCount.toNat = s.nodeCount.toNat + 1 ∧
      t.qCount.toNat + 1 = s.qCount.toNat ∧ t.phase = if s.qCount.toNat = 2 then .done else .busy := by
  obtain ⟨t, ht, hinv⟩ := engineStep_next_of_inv h p
  obtain ⟨-, -, -, -, -, hq2, -⟩ := h.phases.busy hp
  obtain ⟨hne, -⟩ | ⟨-, l, r, -, hjoin⟩ := engineStep_merge ht
  · exact absurd hp hne
  · have hlast : s.qCount - 1#9 = 1#9 ↔ s.qCount.toNat = 2 := by bv_omega
    refine ⟨t, ht, hinv, (engineStep_channels ht).1, ?_, ?_, ?_⟩
    · rw [hjoin.nodeCount, joinPair_nodeCount_toNat h hp]
    · rw [hjoin.qCount, joinPair_qCount]
      bv_omega
    · rw [hjoin.phase, joinPair_phase, hp]
      simp only [hlast]

theorem stepWith_idle (p : TiePolicy) {s : State} (h : s.schedule = []) : stepWith p s = engineStep p s := by
  simp [stepWith, h]

/-- While the queue holds more than the turns to come, a build stays in BUSY. -/
theorem busyTurns_run (p : TiePolicy) {k : Nat} {s : State} (h : Inv s) (hp : s.phase = .busy) (hs : s.schedule = [])
    (hk : k + 2 ≤ s.qCount.toNat) :
    ∃ u, runWith p k s = .next u ∧ Inv u ∧ u.phase = .busy ∧ u.schedule = [] ∧
      u.nodeCount.toNat = s.nodeCount.toNat + k ∧ u.qCount.toNat + k = s.qCount.toNat := by
  induction k generalizing s with
  | zero => exact ⟨s, rfl, h, hp, hs, rfl, rfl⟩
  | succ k ih =>
    obtain ⟨t, ht, hinv, hsched, hnode, hq, hphase⟩ := engineTurn_busy h hp p
    rw [if_neg (by omega)] at hphase
    obtain ⟨u, hrun, hu, hup, hus, hun, huq⟩ := ih hinv hphase (hsched.trans hs) (by omega)
    exact ⟨u, (runWith_succ ((stepWith_idle p hs).trans ht)).trans hrun, hu, hup, hus, by omega, by omega⟩

/-- The command BUILD offered in LOAD with L >= 2 symbols present: one step leads into BUSY with L leaves. -/
theorem buildSent_step (p : TiePolicy) {s : State} (h : Inv s) (hp : s.phase = .load) (hr : s.rsp = none)
    (hs : s.schedule = [.sendCmd (encode .build)]) (hL : 2 ≤ s.symbols.length) :
    ∃ t, stepWith p s = .next t ∧ Inv t ∧ t.phase = .busy ∧ t.schedule = [] ∧
      t.nodeCount.toNat = s.symbols.length ∧ t.qCount.toNat = s.symbols.length := by
  have hsymbols : (s.setSchedule []).symbols = s.symbols := rfl
  have hne : (s.setSchedule []).symbols ≠ [] := List.ne_nil_of_length_pos (by rw [hsymbols]; omega)
  refine ⟨_, (stepWith_send_of_decode p hs hr (decode_encode .build)).trans (exec_build_symbols hp hne),
    inv_respond (inv_startBuild (inv_setSchedule h []) hp hne) _ _, ?_,
    congrArg State.schedule (built_frame (s.setSchedule [])), built_nodeCount _, built_qCount _⟩
  rw [State.respond_phase, built_phase, if_neg (by rw [hsymbols]; omega)]

/-- Settles O30: the command BUILD, turns that stay in BUSY (`busyTurns_run`), and the turn at QCOUNT = 2. -/
theorem buildEndsAfterLMinusOneMerges : Obligations.BuildEndsAfterLMinusOneMerges := by
  unfold Obligations.BuildEndsAfterLMinusOneMerges
  intro p s h hp hr hs hL
  obtain ⟨b, hbuild, hinv, hphase, hsched, hnode, hq⟩ := buildSent_step p h hp hr hs hL
  have hturns : ∀ k, k + 2 ≤ s.symbols.length → ∃ u, runWith p (1 + k) s = .next u ∧ Inv u ∧ u.phase = .busy ∧
      u.schedule = [] ∧ u.nodeCount.toNat = s.symbols.length + k ∧ u.qCount.toNat + k = s.symbols.length := by
    intro k hk
    obtain ⟨u, hrun, hu⟩ := busyTurns_run p hinv hphase hsched (k := k) (by omega)
    rw [hnode, hq] at hu
    exact ⟨u, by rw [Nat.add_comm, runWith_succ hbuild, hrun], hu⟩
  constructor
  · intro k hk
    obtain ⟨u, hrun, -, hup, -, hun, huq⟩ := hturns k (by omega)
    exact ⟨u, hrun, hup, hun, huq⟩
  · obtain ⟨u, hrun, hu, hup, hus, hun, huq⟩ := hturns (s.symbols.length - 2) (by omega)
    obtain ⟨t, ht, htinv, -, htn, -, htp⟩ := engineTurn_busy hu hup p
    rw [if_pos (by omega)] at htp
    obtain ⟨-, -, -, -, -, hroot, -⟩ := htinv.phases.done htp
    have hlast : runWith p (1 + (s.symbols.length - 2) + 1) s = .next t :=
      (runWith_add hrun).trans (runWith_succ (k := 0) ((stepWith_idle p hus).trans ht))
    rw [show 1 + (s.symbols.length - 2) + 1 = s.symbols.length by omega] at hlast
    exact ⟨t, hlast, htp, by omega, hroot⟩

/-! ### Two schedules -/

theorem core_run_eq (k : Nat) (s : State) : core.run k s = runWith .indexOrder k s := by
  induction k generalizing s with
  | zero => rfl
  | succ k ih =>
    have hstep : core.step s = stepWith .indexOrder s := rfl
    simp only [Host.Core.run, runWith, hstep]
    cases stepWith .indexOrder s with
    | next t => exact ih t
    | fault r => rfl
    | refused r => rfl

/-- The schedule brings no CLEAR and no reset. -/
def AbortFree (s : State) : Prop := ∀ m ∈ s.schedule, isAbort m = false

theorem AbortFree.abortsNext {s : State} (h : AbortFree s) : abortsNext s = false := by
  unfold Machine.abortsNext
  split
  · rename_i ms hs
    exact absurd (h .assertRst (by simp [hs])) (by decide)
  · rename_i w ms hs
    have hw := h (.sendCmd w) (by simp [hs])
    simp only [isAbort] at hw
    simp [hw]
  · rfl

/-- No step adds a move to the schedule. -/
theorem stepWith_schedule_subset {p : TiePolicy} {s t : State} (ht : stepWith p s = .next t) : t.schedule ⊆ s.schedule := by
  obtain ⟨-, he⟩ | ⟨ms, hs, he⟩ | ⟨ms, hs, he⟩ | ⟨ms, hs, he⟩ | ⟨w, ms, hs, -, he⟩ | ⟨w, ms, r, -, -, he⟩ :=
    stepWith_cases p s <;> rw [he] at ht
  · rw [(engineStep_channels ht).1]
    exact List.Subset.refl _
  · rw [(engineStep_channels ht).1, hs]
    exact List.subset_cons_self _ _
  · cases ht
    rw [hs]
    exact List.subset_cons_self _ _
  · cases ht
    rw [hs]
    exact List.subset_cons_self _ _
  · rw [hs]
    have hms : t.schedule = ms := by
      unfold performWord at ht
      split at ht
      · exact (exec_channels ht).2
      · cases ht; rfl
    rw [hms]
    exact List.subset_cons_self _ _
  · cases ht
    exact List.Subset.refl _

theorem AbortFree.step {p : TiePolicy} {s t : State} (h : AbortFree s) (ht : stepWith p s = .next t) : AbortFree t :=
  fun m hm => h m (stepWith_schedule_subset ht hm)

/-- A run of this hardware from BUSY or DONE to DONE, without CLEAR or reset. -/
structure Finishes (k : Nat) (s s' : State) : Prop where
  phase : s.phase = .busy ∨ s.phase = .done
  abortFree : AbortFree s
  run : runWith .indexOrder k s = .next s'
  done : s'.phase = .done

/-- Its first step leaves the block as it is or is a MERGE, and the rest is such a run again. -/
theorem Finishes.step {k : Nat} {s s' : State} (h : Finishes (k + 1) s s') :
    ∃ u, Finishes k u s' ∧
      (SameBlock s u ∨ (s.phase = .busy ∧ ∃ l r, Selects .indexOrder s l r ∧ SameBlock (joinPair l r s) u)) := by
  obtain ⟨u, hu, hrun⟩ := runWith_succ_inv h.run
  have hload : s.phase ≠ .load := by rcases h.phase with hp | hp <;> simp [hp]
  have heffect := stepWith_merge hu hload h.abortFree.abortsNext
  refine ⟨u, ⟨?_, h.abortFree.step hu, hrun, h.done⟩, heffect⟩
  obtain hsame | ⟨hb, l, r, -, hjoin⟩ := heffect
  · rw [hsame.phase]
    exact h.phase
  · rw [hjoin.phase, joinPair_phase, hb]
    split
    · exact .inr rfl
    · exact .inl rfl

/-- In DONE nothing changes the block any more. -/
theorem Finishes.sameBlock_of_done {k : Nat} {s s' : State} (h : Finishes k s s') (hp : s.phase = .done) : SameBlock s s' := by
  induction k generalizing s with
  | zero => cases h.run; exact .refl _
  | succ k ih =>
    obtain ⟨u, hu, hsame | ⟨hb, -⟩⟩ := h.step
    · exact hsame.trans (ih hu (hsame.phase.trans hp))
    · rw [hp] at hb; cases hb

/-- In BUSY a run that finishes has a step to take. -/
theorem Finishes.exists_succ {k : Nat} {s s' : State} (h : Finishes k s s') (hp : s.phase = .busy) : ∃ j, k = j + 1 := by
  cases k with
  | zero =>
    cases h.run
    exact absurd (hp.symm.trans h.done) (by decide)
  | succ k => exact ⟨k, rfl⟩

/-- Two such runs from the same block end in the same block: steps that change nothing are skipped in either run, and two
MERGE steps on the same block take the same pair. -/
theorem Finishes.sameBlock {j k : Nat} {s t s' t' : State} (hs : Finishes j s s') (ht : Finishes k t t')
    (hst : SameBlock s t) : SameBlock s' t' := by
  induction hn : j + k using Nat.strong_induction_on generalizing j k s t with
  | _ n ih =>
    obtain hp | hp := hs.phase
    · obtain ⟨j, rfl⟩ := hs.exists_succ hp
      obtain ⟨k, rfl⟩ := ht.exists_succ (hst.phase.trans hp)
      obtain ⟨u, hu, hsu | ⟨-, l, r, hsel, hsu⟩⟩ := hs.step
      · exact ih _ (by omega) hu ht (hsu.symm.trans hst) rfl
      · obtain ⟨v, hv, htv | ⟨-, l', r', hsel', htv⟩⟩ := ht.step
        · exact ih _ (by omega) hs hv (hst.trans htv) rfl
        · obtain ⟨rfl, rfl⟩ := hsel.indexOrder_unique (hsel'.of_sameBlock hst.symm)
          have huv := (hsu.symm.trans (joinPair_sameBlock hst l r)).trans htv
          exact ih _ (by omega) hu hv huv rfl
    · have hs' := hs.sameBlock_of_done hp
      have ht' := ht.sameBlock_of_done (hst.phase.trans hp)
      exact (hs'.symm.trans hst).trans ht'

/-- Settles O33: `Finishes.sameBlock`. -/
theorem finalTreeIgnoresTheInterleaving : Obligations.FinalTreeIgnoresTheInterleaving := by
  unfold Obligations.FinalTreeIgnoresTheInterleaving
  intro j k s t s' t' hp hst hs ht hrun hrun' hdone hdone'
  rw [core_run_eq] at hrun hrun'
  exact Finishes.sameBlock ⟨.inl hp, hs, hrun, hdone⟩ ⟨.inl (hst.phase.trans hp), ht, hrun', hdone'⟩ hst

end Sys2Proof.Machine
end

section
/-! PROOF. The obligations of 42_readout_control.md: what NODE_RD, STATUS_RD, NOP and CLEAR answer and write (rules R150 to
R153). The node word and the STATUS word are both a row of fields widened to 64 bits, and each field is read back from that
row. -/

namespace Sys2Proof.Machine

/-! ### Fields of a widened word -/

theorem zext64_extractLsb' {n start len : Nat} (v : BitVec n) (h : start + len ≤ 64) :
    (zext64 v).extractLsb' start len = v.extractLsb' start len :=
  BitVec.extractLsb'_setWidth_of_le h

/-- Widening fills the bits above the value with 0 (00_scope.md rule R7). -/
theorem zext64_extractLsb'_above {n start : Nat} (v : BitVec n) (h : n ≤ start) (len : Nat) :
    (zext64 v).extractLsb' start len = 0#len := by
  refine BitVec.eq_of_getLsbD_eq (fun i _ => ?_)
  simp [zext64, BitVec.getLsbD_of_ge v (start + i) (by omega)]

/-! ### The node word -/

theorem nodeWord_leaf {r : NodeRec} (hk : r.kind = .leaf) : nodeWord r = zext64 (1#1 ++ 0#15 ++ r.sym ++ r.weight) := by
  rw [zext64, BitVec.setWidth_append_append_append_eq_shiftLeft_setWidth_or]
  simp [nodeWord, hk, zext64]

theorem nodeWord_branch {r : NodeRec} (hk : r.kind = .branch) : nodeWord r = zext64 (r.right ++ r.left ++ r.weight) := by
  rw [zext64, BitVec.setWidth_append_append_eq_shiftLeft_setWidth_or]
  simp [nodeWord, hk, zext64]

/-- The LEAF column of the table of 42_readout_control.md rule R150, from the top bit down. -/
theorem nodeWord_fields_of_leaf {r : NodeRec} (hk : r.kind = .leaf) :
    (nodeWord r).extractLsb' 63 1 = 1#1 ∧ (nodeWord r).extractLsb' 58 5 = 0#5 ∧ (nodeWord r).extractLsb' 49 9 = 0#9 ∧
    (nodeWord r).extractLsb' 48 1 = 0#1 ∧ (nodeWord r).extractLsb' 40 8 = r.sym ∧
    (nodeWord r).extractLsb' 0 40 = r.weight := by
  rw [nodeWord_leaf hk]
  -- the widths stay sums, so that the lemmas about `++` find the parts
  simp [zext64_extractLsb', BitVec.extractLsb'_append_eq_of_le, BitVec.extractLsb'_append_eq_of_add_le, -Nat.reduceAdd]

/-- The BRANCH column of the table of 42_readout_control.md rule R150, from the top bit down. -/
theorem nodeWord_fields_of_branch {r : NodeRec} (hk : r.kind = .branch) :
    (nodeWord r).extractLsb' 63 1 = 0#1 ∧ (nodeWord r).extractLsb' 58 5 = 0#5 ∧ (nodeWord r).extractLsb' 49 9 = r.right ∧
    (nodeWord r).extractLsb' 40 9 = r.left ∧ (nodeWord r).extractLsb' 0 40 = r.weight := by
  rw [nodeWord_branch hk]
  refine ⟨zext64_extractLsb'_above _ (by decide) 1, zext64_extractLsb'_above _ (by decide) 5, ?_⟩
  -- the widths stay sums, so that the lemmas about `++` find the parts
  simp [zext64_extractLsb', BitVec.extractLsb'_append_eq_of_le, BitVec.extractLsb'_append_eq_right, -Nat.reduceAdd]

/-! ### NODE_RD -/

theorem decode_eq_nodeRd_iff (idx : Idx) (w : CmdWord) :
    decode w = .ok (.nodeRd idx) ↔
      w &&& 0xFFFFFFFFFFFFFE00#64 = 0x0000000060000000#64 ∧ w.extractLsb' 0 9 = idx :=
  decode_eq_ok_iff_of_argOnly _ _ (by simp [opcodeRows, Instr.mnemonic]) rfl rfl w

theorem exec_nodeRd_badIndex {s : State} {idx : Idx} (hp : s.phase = .done) (hi : s.nodeCount.toNat ≤ idx.toNat) :
    exec (.nodeRd idx) s = raise .badIndex s := by
  simp [exec, execNodeRd, hp, (idxOutOfRange_iff s idx).mpr hi]

/-- In DONE a record that is held is answered as its node word. -/
theorem exec_nodeRd_of_nodeAt {s : State} {idx : Idx} {r : NodeRec} (hp : s.phase = .done)
    (hr : s.nodeAt idx.toNat = some r) : exec (.nodeRd idx) s = .next (s.respond .ok (nodeWord r)) := by
  have hrange : ¬ idxOutOfRange s idx = true := by
    rw [idxOutOfRange_iff]
    exact Nat.not_le.mpr (State.lt_of_nodeAt hr)
  simp [exec, execNodeRd, hp, hrange, hr]

/-- Settles O14, by the checks of NODE_RD in their order; index 511 is never below a 9-bit NODE_COUNT. -/
theorem nodeRdAnswersTheRecord : Obligations.NodeRdAnswersTheRecord := by
  unfold Obligations.NodeRdAnswersTheRecord
  intro idx s
  refine ⟨decode_eq_nodeRd_iff idx, fun hp => exec_nodeRd_badPhase hp idx, fun hp hi => exec_nodeRd_badIndex hp ?_,
    fun r hp hr => ⟨_, nodeWord r, exec_nodeRd_of_nodeAt hp hr, rfl, rfl, ?_⟩⟩
  · have hcount := s.nodeCount.isLt
    omega
  · cases hk : r.kind with
    | leaf =>
      obtain ⟨hkind, hreserved, hright, hleft, hsym, hweight⟩ := nodeWord_fields_of_leaf hk
      exact ⟨hweight, hreserved, fun _ => ⟨hkind, hright, hleft, hsym⟩, nofun⟩
    | branch =>
      obtain ⟨hkind, hreserved, hright, hleft, hweight⟩ := nodeWord_fields_of_branch hk
      exact ⟨hweight, hreserved, nofun, fun _ => ⟨hkind, hright, hleft⟩⟩

/-! ### STATUS_RD -/

/-- The fields of the STATUS word beside PHASE and NODE_COUNT, from bit 2 up (10_state.md rule R32). -/
theorem statusWord_fields (s : State) :
    s.statusWord.extractLsb' 2 3 = s.buildErr ∧ s.statusWord.extractLsb' 5 3 = 0#3 ∧
    s.statusWord.extractLsb' 8 9 = s.leafCount ∧ s.statusWord.extractLsb' 26 9 = s.root ∧
    s.statusWord.extractLsb' 35 9 = s.qCount := by
  rw [State.statusWord]
  -- the widths stay sums, so that the lemmas about `++` find the parts
  simp [zext64_extractLsb', BitVec.extractLsb'_append_eq_of_le, BitVec.extractLsb'_append_eq_right, -Nat.reduceAdd]

/-- Settles O15: the fields of the STATUS word, which STATUS_RD answers in every state. -/
theorem statusRdAnswersTheStatusWord : Obligations.StatusRdAnswersTheStatusWord := by
  unfold Obligations.StatusRdAnswersTheStatusWord
  intro s
  have hphase {p : Phase} (hp : s.phase = p) : s.statusWord.extractLsb' 0 2 = p.bits := by rw [statusWord_phase, hp]
  obtain ⟨hbuildErr, hreserved, hleafCount, hroot, hqCount⟩ := statusWord_fields s
  exact ⟨fun w => decode_eq_ok_iff_encode, _, s.statusWord, rfl, rfl, rfl, hphase, hphase, hphase, hphase,
    hbuildErr, hreserved, hleafCount, statusWord_nodeCount s, hroot, hqCount,
    zext64_extractLsb'_above _ (by decide) 20⟩

/-! ### NOP -/

/-- Opcode 0 names no command but NOP (30_encoding.md rule R74). -/
theorem eq_nop_of_decode {w : CmdWord} {i : Instr} (hop : w.extractLsb' 28 4 = 0#4) (h : decode w = .ok i) : i = .nop := by
  obtain ⟨hcommand, -⟩ := (decodeFields_eq_ok_iff (splitWord w) i).mp h
  have hzero : (splitWord w).op = 0#4 := hop
  rw [hzero] at hcommand
  exact (Option.some.inj hcommand).symm

/-- Settles O16: a word with OP = 0 that decodes is the one word of NOP (`eq_nop_of_decode`). -/
theorem nopAnswersOkAndWritesNothing : Obligations.NopAnswersOkAndWritesNothing := by
  unfold Obligations.NopAnswersOkAndWritesNothing
  have hword : ∀ w : CmdWord, decode w = .ok .nop ↔ w = 0#64 := fun w => decode_eq_ok_iff_encode
  refine ⟨hword, fun w s hop hne => performWord_of_not_decode ?_ s, fun s => ⟨_, rfl, rfl, rfl⟩⟩
  rintro ⟨i, hi⟩
  obtain rfl := eq_nop_of_decode hop hi
  exact hne ((hword w).mp hi)

/-! ### CLEAR -/

/-- Settles O17: CLEAR answers on the cleared block, whose entries are those of `State.clearBlock`. -/
theorem clearReturnsTheResetState : Obligations.ClearReturnsTheResetState := by
  unfold Obligations.ClearReturnsTheResetState
  exact ⟨fun w => decode_eq_ok_iff_encode, fun s => ⟨s.clearBlock.respond .ok 0#64, rfl, rfl, rfl, rfl, rfl, rfl, rfl, rfl,
    s.clearBlock_freqAt, s.clearBlock_inqAt, s.clearBlock_nodeAt, rfl⟩⟩

end Sys2Proof.Machine
end

section
/-! PROOF. The obligations of 60_exceptions.md: no step of a state of the invariant stops (R174), what each result code means
and writes (R171, R172, R175), along which transitions the phase moves (R176), and how FAIL is entered and left (R177, R178).
The common ground is `performWord_answers`: the code a word is answered with is `wordCode`, the first error that applies. -/

namespace Sys2Proof.Machine

/-! ### No step stops -/

/-- Settles O35, by the move at the head of the schedule: an engine turn finds its pair and its records
(`engineStep_next_of_inv`), and every word is answered (`performWord_next_of_inv`). -/
theorem noStepStops : Obligations.NoStepStops := by
  unfold Obligations.NoStepStops
  intro p s h
  obtain ⟨-, he⟩ | ⟨ms, -, he⟩ | ⟨ms, -, he⟩ | ⟨ms, -, he⟩ | ⟨w, ms, -, -, he⟩ | ⟨w, ms, r, -, -, he⟩ :=
    stepWith_cases p s <;> rw [he]
  · obtain ⟨t, ht, -⟩ := engineStep_next_of_inv h p
    exact ⟨t, ht⟩
  · obtain ⟨t, ht, -⟩ := engineStep_next_of_inv (inv_setSchedule h ms) p
    exact ⟨t, ht⟩
  · exact ⟨_, rfl⟩
  · exact ⟨_, rfl⟩
  · obtain ⟨t, -, ht, -⟩ := performWord_next_of_inv (inv_setSchedule h ms) w
    exact ⟨t, ht⟩
  · exact ⟨_, rfl⟩

/-! ### The permission table -/

@[simp] theorem permitted_nop (p : Phase) : permitted .nop p = true := rfl
@[simp] theorem permitted_clear (p : Phase) : permitted .clear p = true := rfl
@[simp] theorem permitted_freqRd (sym : Idx) (p : Phase) : permitted (.freqRd sym) p = true := rfl
@[simp] theorem permitted_statusRd (p : Phase) : permitted .statusRd p = true := rfl
@[simp] theorem permitted_freqWr (sym : Idx) (v : Freq) (p : Phase) : permitted (.freqWr sym v) p = decide (p = .load) := by
  cases p <;> rfl
@[simp] theorem permitted_freqInc (sym : Idx) (p : Phase) : permitted (.freqInc sym) p = decide (p = .load) := by
  cases p <;> rfl
@[simp] theorem permitted_build (p : Phase) : permitted .build p = decide (p = .load) := by cases p <;> rfl
@[simp] theorem permitted_nodeRd (idx : Idx) (p : Phase) : permitted (.nodeRd idx) p = decide (p = .done) := by
  cases p <;> rfl

/-- Where the table says so, a command is refused, and the refusal is all it writes. -/
theorem exec_of_not_permitted {i : Instr} {s : State} (h : permitted i s.phase = false) :
    exec i s = .next (s.respond .badPhase 0#64) := by
  cases i with
  | nop | clear | freqRd _ | statusRd => simp at h
  | freqWr sym v => exact exec_freqWr_badPhase (by simpa using h) sym v
  | freqInc sym => exact exec_freqInc_badPhase (by simpa using h) sym
  | build => exact exec_build_badPhase (by simpa using h)
  | nodeRd idx => exact exec_nodeRd_badPhase (by simpa using h) idx

/-- A command that is performed refuses an index out of range, and the refusal is all it writes. -/
theorem exec_of_indexError {i : Instr} {s : State} (hp : permitted i s.phase = true) (h : indexError i s = true) :
    exec i s = .next (s.respond .badIndex 0#64) := by
  cases i with
  | nop | clear | build | statusRd => cases h
  | freqWr sym v => exact exec_freqWr_badIndex (by simpa using hp) (of_decide_eq_true h) v
  | freqInc sym => exact exec_freqInc_badIndex (by simpa using hp) (of_decide_eq_true h)
  | freqRd sym => exact exec_freqRd_badIndex (of_decide_eq_true h) s
  | nodeRd idx => exact exec_nodeRd_badIndex (by simpa using hp) (of_decide_eq_true h)

/-! ### Result codes -/

/-- The code of a command once its phase and its index are in order: only FREQ_INC and BUILD have a failure of their own
(60_exceptions.md rule R172, FREQ_OVERFLOW and EMPTY_INPUT). -/
def ownCode (i : Instr) (s : State) : ResultCode :=
  match i with
  | .freqInc sym => if s.freqAt sym.toNat = 0xFFFFFFFF#32 then .freqOverflow else .ok
  | .build => if s.symbols = [] then .emptyInput else .ok
  | _ => .ok

/-- The result code of a command: the first error that applies, in the order of 60_exceptions.md rule R175 after BAD_CMD. -/
def commandCode (i : Instr) (s : State) : ResultCode :=
  if permitted i s.phase = false then .badPhase else if indexError i s = true then .badIndex else ownCode i s

/-- The result code of a word (60_exceptions.md rule R175). -/
def wordCode (w : CmdWord) (s : State) : ResultCode :=
  match decode w with
  | .ok i => commandCode i s
  | .error _ => .badCmd

/-- From s to t a response is given as its code says (60_exceptions.md rule R171): an error has data 0 and writes nothing but
the response, and EMPTY_INPUT also enters FAIL. -/
structure Answers (s t : State) (rc : ResultCode) (d : RData) : Prop where
  offered : t.rsp = some ⟨rc, d⟩
  data    : rc ≠ .ok → d = 0#64
  frame   : rc ≠ .ok → rc ≠ .emptyInput → t = { s with rsp := t.rsp }
  fail    : rc = .emptyInput → t = { s with phase := .fail, buildErr := 1#3, rsp := t.rsp }

theorem answers_ok {s t : State} {d : RData} (h : t.rsp = some ⟨.ok, d⟩) : Answers s t .ok d :=
  ⟨h, fun hne => absurd rfl hne, fun hne => absurd rfl hne, nofun⟩

theorem answers_respond {s : State} {rc : ResultCode} (h : rc ≠ .emptyInput) : Answers s (s.respond rc 0#64) rc 0#64 :=
  ⟨rfl, fun _ => rfl, fun _ _ => rfl, fun he => absurd he h⟩

theorem answers_enterFail (s : State) :
    Answers s (((s.setPhase .fail).setBuildErr 1#3).respond .emptyInput 0#64) .emptyInput 0#64 :=
  ⟨rfl, fun _ => rfl, fun _ hne => absurd rfl hne, fun _ => rfl⟩

theorem symOutOfRange_eq_decide (sym : Idx) : symOutOfRange sym = decide (255 < sym.toNat) := by
  rw [Bool.eq_iff_iff, symOutOfRange_iff, decide_eq_true_iff]

/-- Below NODE_COUNT a record that is absent stops NODE_RD (10_state.md rule R35). -/
theorem exec_nodeRd_absent {s : State} {idx : Idx} (hp : s.phase = .done) (hi : ¬ s.nodeCount.toNat ≤ idx.toNat)
    (hn : s.nodeAt idx.toNat = none) : exec (.nodeRd idx) s = .fault .absentNode := by
  rw [← idxOutOfRange_iff] at hi
  simp [exec, execNodeRd, hp, hi, hn]

/-- A command that is performed on an index in range answers OK or fails in its own way. -/
theorem exec_answers_of_accepted {i : Instr} {s t : State} (hp : permitted i s.phase = true) (hi : indexError i s = false)
    (ht : exec i s = .next t) : ∃ d, Answers s t (ownCode i s) d := by
  cases i with
  | nop | clear | statusRd => cases ht; exact ⟨_, answers_ok rfl⟩
  | freqWr sym v =>
    have hsym := (symOutOfRange_eq_decide sym).trans hi
    cases (exec_freqWr_of_load (by simpa using hp) hsym v).symm.trans ht
    exact ⟨_, answers_ok rfl⟩
  | freqInc sym =>
    have hsym := (symOutOfRange_eq_decide sym).trans hi
    by_cases hfull : s.freqAt sym.toNat = 0xFFFFFFFF#32
    · cases (exec_freqInc_overflow (by simpa using hp) hsym hfull).symm.trans ht
      rw [show ownCode (.freqInc sym) s = .freqOverflow from if_pos hfull]
      exact ⟨_, answers_respond nofun⟩
    · cases (exec_freqInc_of_load (by simpa using hp) hsym hfull).symm.trans ht
      rw [show ownCode (.freqInc sym) s = .ok from if_neg hfull]
      exact ⟨_, answers_ok rfl⟩
  | freqRd sym =>
    have hsym := (symOutOfRange_eq_decide sym).trans hi
    cases (exec_freqRd_inRange hsym s).symm.trans ht
    exact ⟨_, answers_ok rfl⟩
  | build =>
    by_cases hs : s.symbols = []
    · cases (exec_build_empty (by simpa using hp) hs).symm.trans ht
      rw [show ownCode .build s = .emptyInput from if_pos hs]
      exact ⟨_, answers_enterFail s⟩
    · cases (exec_build_symbols (by simpa using hp) hs).symm.trans ht
      rw [show ownCode .build s = .ok from if_neg hs]
      exact ⟨_, answers_ok rfl⟩
  | nodeRd idx =>
    cases hn : s.nodeAt idx.toNat with
    | none => cases (exec_nodeRd_absent (by simpa using hp) (of_decide_eq_false hi) hn).symm.trans ht
    | some r =>
      cases (exec_nodeRd_of_nodeAt (by simpa using hp) hn).symm.trans ht
      exact ⟨_, answers_ok rfl⟩

/-- A command that answers at all answers its code. -/
theorem exec_answers {i : Instr} {s t : State} (ht : exec i s = .next t) : ∃ d, Answers s t (commandCode i s) d := by
  unfold commandCode
  split_ifs with hp hi
  · cases (exec_of_not_permitted hp).symm.trans ht
    exact ⟨_, answers_respond nofun⟩
  · cases (exec_of_indexError (by simpa using hp) hi).symm.trans ht
    exact ⟨_, answers_respond nofun⟩
  · exact exec_answers_of_accepted (by simpa using hp) (by simpa using hi) ht

/-- A word that is answered at all is answered its code. -/
theorem performWord_answers {w : CmdWord} {s t : State} (ht : performWord w s = .next t) :
    ∃ d, Answers s t (wordCode w s) d := by
  unfold performWord at ht
  unfold wordCode
  cases hw : decode w with
  | ok i =>
    rw [hw] at ht
    exact exec_answers ht
  | error e =>
    rw [hw] at ht
    cases ht
    exact ⟨_, answers_respond nofun⟩

/-! ### The cause of each code -/

theorem State.symbols_eq_nil_iff (s : State) : s.symbols = [] ↔ ∀ v, v < 256 → s.freqAt v = 0#32 := by
  simp [List.eq_nil_iff_forall_not_mem, State.mem_symbols]

theorem ownCode_eq_freqOverflow_iff (i : Instr) (s : State) :
    ownCode i s = .freqOverflow ↔ ∃ sym, i = .freqInc sym ∧ s.freqAt sym.toNat = 0xFFFFFFFF#32 := by
  cases i with
  | nop | clear | freqWr _ _ | freqInc _ | freqRd _ | nodeRd _ | statusRd => simp [ownCode]
  | build => by_cases hs : s.symbols = [] <;> simp [ownCode, hs]

theorem ownCode_eq_emptyInput_iff (i : Instr) (s : State) : ownCode i s = .emptyInput ↔ i = .build ∧ s.symbols = [] := by
  cases i with
  | nop | clear | freqWr _ _ | freqRd _ | build | nodeRd _ | statusRd => simp [ownCode]
  | freqInc sym => by_cases hfull : s.freqAt sym.toNat = 0xFFFFFFFF#32 <;> simp [ownCode, hfull]

theorem ownCode_cases (i : Instr) (s : State) : ownCode i s = .ok ∨ ownCode i s = .freqOverflow ∨ ownCode i s = .emptyInput := by
  cases i with
  | nop | clear | freqWr _ _ | freqRd _ | nodeRd _ | statusRd => exact .inl rfl
  | freqInc sym => exact (ite_eq_or_eq _ _ _).elim (fun h => .inr (.inl h)) .inl
  | build => exact (ite_eq_or_eq _ _ _).elim (fun h => .inr (.inr h)) .inl

theorem commandCode_eq_badPhase_iff (i : Instr) (s : State) : commandCode i s = .badPhase ↔ permitted i s.phase = false := by
  unfold commandCode
  split_ifs with hp hi
  · simp [hp]
  · simp [hp]
  · obtain h | h | h := ownCode_cases i s <;> simp [h, hp]

theorem commandCode_eq_badIndex_iff (i : Instr) (s : State) :
    commandCode i s = .badIndex ↔ permitted i s.phase = true ∧ indexError i s = true := by
  unfold commandCode
  split_ifs with hp hi
  · simp [hp]
  · simp [hp, hi]
  · obtain h | h | h := ownCode_cases i s <;> simp [h, hi]

/-- A failure of the command's own is reported when neither the phase nor the index is at fault. -/
theorem commandCode_eq_own_iff {rc : ResultCode} (hphase : rc ≠ .badPhase) (hindex : rc ≠ .badIndex) (i : Instr) (s : State) :
    commandCode i s = rc ↔ permitted i s.phase = true ∧ indexError i s = false ∧ ownCode i s = rc := by
  unfold commandCode
  split_ifs with hp hi
  · simp [hp, hphase.symm]
  · simp [hi, hindex.symm]
  · simp [hp, hi]

theorem commandCode_eq_freqOverflow_iff (i : Instr) (s : State) :
    commandCode i s = .freqOverflow ↔
      ∃ sym, i = .freqInc sym ∧ s.phase = .load ∧ sym.toNat ≤ 255 ∧ s.freqAt sym.toNat = 0xFFFFFFFF#32 := by
  rw [commandCode_eq_own_iff (rc := .freqOverflow) nofun nofun, ownCode_eq_freqOverflow_iff]
  constructor
  · rintro ⟨hp, hi, sym, rfl, hfull⟩
    exact ⟨sym, rfl, by simpa using hp, Nat.not_lt.mp (of_decide_eq_false hi), hfull⟩
  · rintro ⟨sym, rfl, hp, hsym, hfull⟩
    exact ⟨by simpa using hp, decide_eq_false (Nat.not_lt.mpr hsym), sym, rfl, hfull⟩

theorem commandCode_eq_emptyInput_iff (i : Instr) (s : State) :
    commandCode i s = .emptyInput ↔ i = .build ∧ s.phase = .load ∧ ∀ v, v < 256 → s.freqAt v = 0#32 := by
  rw [commandCode_eq_own_iff (rc := .emptyInput) nofun nofun, ownCode_eq_emptyInput_iff, State.symbols_eq_nil_iff]
  constructor
  · rintro ⟨hp, -, rfl, hzero⟩
    exact ⟨rfl, by simpa using hp, hzero⟩
  · rintro ⟨rfl, hp, hzero⟩
    exact ⟨by simpa using hp, rfl, rfl, hzero⟩

theorem commandCode_ne_badCmd (i : Instr) (s : State) : commandCode i s ≠ .badCmd := by
  rw [Ne, commandCode_eq_own_iff (rc := .badCmd) nofun nofun]
  rintro ⟨-, -, hown⟩
  obtain h | h | h := ownCode_cases i s <;> cases h.symm.trans hown

theorem wordCode_eq_badCmd_iff (w : CmdWord) (s : State) : wordCode w s = .badCmd ↔ ∀ i, decode w ≠ .ok i := by
  unfold wordCode
  cases hw : decode w with
  | ok i => simp [commandCode_ne_badCmd]
  | error e => simp

/-- Any other code is the code of the command the word decodes to. -/
theorem wordCode_eq_iff {rc : ResultCode} (hrc : rc ≠ .badCmd) (w : CmdWord) (s : State) :
    wordCode w s = rc ↔ ∃ i, decode w = .ok i ∧ commandCode i s = rc := by
  unfold wordCode
  cases hw : decode w with
  | ok i => simp
  | error e => simp [hrc.symm]

/-! ### Rules R171, R172 and R175 -/

/-- Settles O18: every word is answered as its code says, and EMPTY_INPUT is the code of BUILD alone. -/
theorem errorsWriteNoState : Obligations.ErrorsWriteNoState := by
  unfold Obligations.ErrorsWriteNoState
  intro w s t ht
  obtain ⟨d, hoffered, hdata, hframe, hfail⟩ := performWord_answers ht
  refine ⟨_, d, hoffered, hdata, hframe, fun he => ⟨?_, hfail he⟩⟩
  obtain ⟨i, hi, hcode⟩ := (wordCode_eq_iff (rc := .emptyInput) nofun w s).mp he
  obtain ⟨rfl, -⟩ := (commandCode_eq_emptyInput_iff i s).mp hcode
  exact hi

/-- Settles O19, by the cause of each code of a word. -/
theorem resultCodesNameTheirCause : Obligations.ResultCodesNameTheirCause := by
  unfold Obligations.ResultCodesNameTheirCause
  intro w s t ht
  obtain ⟨d, hoffered, -, hframe, hfail⟩ := performWord_answers ht
  refine ⟨_, d, hoffered, wordCode_eq_badCmd_iff w s, ?_, ?_, ?_, ?_, hframe, fun he => ?_⟩
  · simp only [wordCode_eq_iff (rc := .badPhase) nofun, commandCode_eq_badPhase_iff]
  · simp only [wordCode_eq_iff (rc := .badIndex) nofun, commandCode_eq_badIndex_iff]
  · simp only [wordCode_eq_iff (rc := .freqOverflow) nofun, commandCode_eq_freqOverflow_iff]
    exact ⟨fun ⟨i, hi, sym, hsym, hcause⟩ => ⟨sym, hsym ▸ hi, hcause⟩, fun ⟨sym, hi, hcause⟩ => ⟨_, hi, sym, rfl, hcause⟩⟩
  · simp only [wordCode_eq_iff (rc := .emptyInput) nofun, commandCode_eq_emptyInput_iff]
    exact ⟨fun ⟨i, hi, hbuild, hcause⟩ => ⟨hbuild ▸ hi, hcause⟩, fun ⟨hi, hcause⟩ => ⟨_, hi, rfl, hcause⟩⟩
  · rw [hfail he]
    exact ⟨rfl, rfl⟩

/-! ### The command a step performs -/

theorem nextCommand_eq_some_iff {s : State} {i : Instr} :
    nextCommand s = some i ↔ ∃ w ms, s.schedule = .sendCmd w :: ms ∧ s.rsp = none ∧ decode w = .ok i := by
  constructor
  · intro h
    unfold nextCommand at h
    split at h
    · rename_i w ms hs
      split_ifs at h with hr
      split at h
      · rename_i j hj
        cases h
        exact ⟨w, ms, hs, by simpa [State.cmdReady] using hr, hj⟩
      · cases h
    · cases h
  · rintro ⟨w, ms, hs, hr, hw⟩
    simp [nextCommand, hs, State.cmdReady, hr, hw]

theorem stepWith_of_nextCommand (p : TiePolicy) {s : State} {i : Instr} (h : nextCommand s = some i) :
    ∃ ms, stepWith p s = exec i (s.setSchedule ms) := by
  obtain ⟨w, ms, hs, hr, hw⟩ := nextCommand_eq_some_iff.mp h
  exact ⟨ms, stepWith_send_of_decode p hs hr hw⟩

/-! ### Transitions -/

/-- An engine turn moves the phase only as the last MERGE. -/
theorem engineStep_phase {p : TiePolicy} {s t : State} (ht : engineStep p s = .next t) (hne : t.phase ≠ s.phase) :
    s.phase = .busy ∧ t.phase = .done ∧ s.qCount = 2#9 := by
  obtain ⟨-, rfl⟩ | ⟨hp, l, r, -, hjoin⟩ := engineStep_merge ht
  · exact absurd rfl hne
  · rw [hjoin.phase, joinPair_phase] at hne ⊢
    by_cases hlast : s.qCount - 1#9 = 1#9
    · exact ⟨hp, if_pos hlast, by bv_omega⟩
    · exact absurd (if_neg hlast) hne

/-- A command other than CLEAR moves the phase only as BUILD. -/
theorem exec_phase {i : Instr} {s t : State} (ht : exec i s = .next t) (hi : i ≠ .clear) (hne : t.phase ≠ s.phase) :
    i = .build ∧ s.phase = .load ∧
      t.phase = if s.symbols.length = 0 then .fail else if s.symbols.length = 1 then .done else .busy := by
  obtain ⟨rc, d, rfl | ⟨-, -, -, sym, v, -, rfl⟩ | ⟨hb, hp, hs, -, -, rfl⟩ | ⟨hb, hp, hs, -, -, rfl⟩ | ⟨hc, -⟩⟩ :=
    exec_cases ht
  · exact absurd rfl hne
  · exact absurd rfl hne
  · exact ⟨hb, hp, by simp [hs]⟩
  · exact ⟨hb, hp, (built_phase s).trans (if_neg (fun h => hs (List.length_eq_zero_iff.mp h))).symm⟩
  · exact absurd hc hi

/-- A step that moves the phase is an abort, a BUILD or the last MERGE (60_exceptions.md rule R176). -/
theorem stepWith_phase {p : TiePolicy} {s t : State} (ht : stepWith p s = .next t) (hne : t.phase ≠ s.phase) :
    (abortsNext s = true ∧ t.phase = .load) ∨
    (s.phase = .load ∧ nextCommand s = some .build ∧
      t.phase = if s.symbols.length = 0 then .fail else if s.symbols.length = 1 then .done else .busy) ∨
    (s.phase = .busy ∧ t.phase = .done ∧ s.qCount = 2#9 ∧ ∀ m, s.schedule.head? = some m → m = .engineTurn) := by
  cases ha : abortsNext s with
  | true => exact .inl ⟨rfl, (stepWith_abort ht ha).phase⟩
  | false =>
    obtain ⟨hs, he⟩ | ⟨ms, hs, he⟩ | ⟨ms, -, he⟩ | ⟨ms, hs, -⟩ | ⟨w, ms, hs, hr, he⟩ | ⟨w, ms, r, -, -, he⟩ :=
      stepWith_cases p s
    · obtain ⟨hp, hdone, hq⟩ := engineStep_phase (he.symm.trans ht) hne
      exact .inr (.inr ⟨hp, hdone, hq, by simp [hs]⟩)
    · obtain ⟨hp, hdone, hq⟩ := engineStep_phase (he.symm.trans ht) hne
      exact .inr (.inr ⟨hp, hdone, hq, by simp [hs]⟩)
    · cases he.symm.trans ht
      exact absurd rfl hne
    · simp [abortsNext, hs] at ha
    · by_cases hw : ∃ i, decode w = .ok i
      · obtain ⟨i, hi⟩ := hw
        have hclear : i ≠ .clear := by
          rintro rfl
          simp [abortsNext, hs, State.cmdReady, hr, encode_of_decode hi] at ha
        have hexec := (performWord_of_decode hi _).symm.trans (he.symm.trans ht)
        obtain ⟨rfl, hp, hphase⟩ := exec_phase hexec hclear hne
        exact .inr (.inl ⟨hp, nextCommand_eq_some_iff.mpr ⟨w, ms, hs, hr, hi⟩, hphase⟩)
      · cases (performWord_of_not_decode hw _).symm.trans (he.symm.trans ht)
        exact absurd rfl hne
    · cases he.symm.trans ht
      exact absurd rfl hne

/-- Settles O20: BAD_PHASE is the code of exactly the commands the table refuses, and the transitions are those of
`stepWith_phase`. -/
theorem phasesFollowThePermissionTable : Obligations.PhasesFollowThePermissionTable := by
  unfold Obligations.PhasesFollowThePermissionTable
  refine ⟨fun i s => ⟨exec_of_not_permitted, fun hp t d ht hrsp => ?_⟩, fun _ _ _ => stepWith_phase⟩
  obtain ⟨d', hanswer⟩ := exec_answers ht
  have hcode : commandCode i s = .badPhase :=
    congrArg Response.rc (Option.some.inj (hanswer.offered.symm.trans hrsp))
  simp [(commandCode_eq_badPhase_iff i s).mp hcode] at hp

/-! ### FAIL -/

/-- Settles O21: of the transitions of `stepWith_phase` only a BUILD with no symbol leads to FAIL, and it starts from a block
in LOAD. -/
theorem failIsEnteredOnlyByEmptyBuild : Obligations.FailIsEnteredOnlyByEmptyBuild := by
  unfold Obligations.FailIsEnteredOnlyByEmptyBuild
  intro p s t h ht hs hfail
  obtain ⟨-, hload⟩ | ⟨hp, hbuild, hphase⟩ | ⟨-, hdone, -⟩ := stepWith_phase ht (fun he => hs (he.symm.trans hfail))
  · cases hload.symm.trans hfail
  · have hempty : s.symbols = [] := by
      rw [hfail] at hphase
      split_ifs at hphase with h0
      exact List.length_eq_zero_iff.mp h0
    obtain ⟨ms, hstep⟩ := stepWith_of_nextCommand p hbuild
    cases (exec_build_empty (s := s.setSchedule ms) hp hempty).symm.trans (hstep.symm.trans ht)
    obtain ⟨hleaf, hnode, hq, hroot, -, -⟩ := h.phases.load hp
    exact ⟨hbuild, s.symbols_eq_nil_iff.mp hempty, rfl, rfl, rfl, BitVec.eq_of_toNat_eq hleaf, BitVec.eq_of_toNat_eq hnode,
      BitVec.eq_of_toNat_eq hroot, BitVec.eq_of_toNat_eq hq, rfl, rfl, rfl⟩
  · cases hdone.symm.trans hfail

/-- Settles O22: an abort gives the reset state, FAIL has no MERGE, and the table refuses the four commands. -/
theorem failIsLeftOnlyByClearOrReset : Obligations.FailIsLeftOnlyByClearOrReset := by
  unfold Obligations.FailIsLeftOnlyByClearOrReset
  intro p s hp
  refine ⟨fun t ht => ⟨stepWith_abort ht, fun ha => ?_⟩, exec_of_not_permitted (by simp [hp]),
    fun sym v => exec_of_not_permitted (by simp [hp]), fun sym => exec_of_not_permitted (by simp [hp]),
    fun idx => exec_of_not_permitted (by simp [hp])⟩
  obtain hsame | ⟨hbusy, -⟩ := stepWith_sameBlock ht (by simp [hp]) ha
  · exact hsame
  · cases hp.symm.trans hbusy

end Sys2Proof.Machine
end

section
/-! PROOF. The obligations of 70_reset_and_hazards.md: what `rst` leaves (R200), what stays fixed after BUILD until an abort
(R206) and after the build's end (R209), and that a build ends along every schedule that is fair to the engine (R210). -/

namespace Sys2Proof.Machine

/-! ### Reset -/

/-- Settles O25: a step on `rst` is `resetBlock`. -/
theorem resetDropsEverything : Obligations.ResetDropsEverything := by
  unfold Obligations.ResetDropsEverything
  intro p s ms hs
  exact ⟨_, stepWith_rst p hs, sameBlock_resetBlock _, State.resetBlock_rsp _, rfl, State.resetBlock_nodeAt _⟩

/-! ### After BUILD -/

/-- A MERGE does not lead back to LOAD. -/
theorem joinPair_phase_ne_load {s : State} (hp : s.phase ≠ .load) (l r : Entry) : (joinPair l r s).phase ≠ .load := by
  rw [joinPair_phase]
  split
  · decide
  · exact hp

/-- Settles O44: outside LOAD a step that is no abort leaves the block as it is or is a MERGE, which does not write FREQ; an
abort gives the reset state. -/
theorem freqIsFrozenUntilClear : Obligations.FreqIsFrozenUntilClear := by
  unfold Obligations.FreqIsFrozenUntilClear
  intro p s t hp ht
  refine ⟨fun ha => ?_, fun ha => ?_, exec_build_badPhase hp⟩
  · obtain hsame | ⟨-, l, r, hjoin⟩ := stepWith_sameBlock ht hp ha
    · exact ⟨hsame.freq, hsame.phase ▸ hp⟩
    · exact ⟨hjoin.freq.trans (joinPair_freq l r s), hjoin.phase ▸ joinPair_phase_ne_load hp l r⟩
  · have hreset := stepWith_abort ht ha
    exact ⟨hreset.phase, fun v => by rw [State.freqAt, hreset.freq]; rfl⟩

/-- In DONE and FAIL a step that is no abort leaves the block as it is. -/
theorem stepWith_sameBlock_of_ended {p : TiePolicy} {s t : State} (ht : stepWith p s = .next t)
    (hp : s.phase = .done ∨ s.phase = .fail) (ha : abortsNext s = false) : SameBlock s t := by
  have hload : s.phase ≠ .load := by rcases hp with hp | hp <;> simp [hp]
  obtain hsame | ⟨hbusy, -⟩ := stepWith_sameBlock ht hload ha
  · exact hsame
  · simp [hbusy] at hp

/-- Settles O45, by induction on the number of steps. -/
theorem nothingChangesAfterTheBuildEnds : Obligations.NothingChangesAfterTheBuildEnds := by
  unfold Obligations.NothingChangesAfterTheBuildEnds
  intro p k s t hp (hfree : AbortFree s) hrun
  induction k generalizing s with
  | zero => cases hrun; exact .refl _
  | succ k ih =>
    obtain ⟨u, hu, hrest⟩ := runWith_succ_inv hrun
    have hsame := stepWith_sameBlock_of_ended hu hp hfree.abortsNext
    exact hsame.trans (ih u (hsame.phase ▸ hp) (hfree.step hu) hrest)

/-! ### Fair schedules -/

/-- Outside LOAD a host's move other than an abort leaves the block as it is. -/
theorem hostMove_sameBlock {p : TiePolicy} {s t : State} {m : Move} (ht : stepWith p (s.offerMove m) = .next t)
    (hp : s.phase ≠ .load) (hm : isAbort m = false) (hhost : m ≠ .engineTurn) : SameBlock s t := by
  have hoffer : SameBlock s (s.offerMove m) := sameBlock_setSchedule s [m]
  have htaken : SameBlock s ((s.offerMove m).setSchedule []) := hoffer.trans (sameBlock_setSchedule _ [])
  cases m with
  | engineTurn => exact absurd rfl hhost
  | assertRst => cases hm
  | takeRsp =>
    cases (stepWith_take p rfl).symm.trans ht
    exact htaken.trans (sameBlock_dropRsp _)
  | sendCmd w =>
    cases hr : (s.offerMove (.sendCmd w)).rsp with
    | none =>
      exact htaken.trans (performWord_sameBlock ((stepWith_send p rfl hr).symm.trans ht) hp (of_decide_eq_false hm))
    | some r =>
      cases (stepWith_send_waiting p rfl hr).symm.trans ht
      exact hoffer.trans (sameBlock_dropRsp _)

theorem along_succ {p : TiePolicy} {moves : Nat → Move} {n : Nat} {s t u : State} (h : along p moves n s = some t)
    (hu : stepWith p (t.offerMove (moves n)) = .next u) : along p moves (n + 1) s = some u := by
  simp [along, h, hu]

section
variable {p : TiePolicy} {moves : Nat → Move} {n : Nat} {s t : State} (hfree : ∀ n, isAbort (moves n) = false)
  (hrun : along p moves n s = some t) (h : Inv t) (hp : t.phase = .busy)
include hfree hrun h hp

/-- Up to the engine's next turn a build in BUSY keeps the block as it is. -/
theorem along_sameBlock_until_turn {d : Nat} (hturn : moves (n + d) = .engineTurn) :
    ∃ k u, along p moves k s = some u ∧ SameBlock t u ∧ moves k = .engineTurn := by
  induction d generalizing n t with
  | zero => exact ⟨n, t, hrun, .refl t, hturn⟩
  | succ d ih =>
    by_cases hnow : moves n = .engineTurn
    · exact ⟨n, t, hrun, .refl t, hnow⟩
    · obtain ⟨u, hu⟩ := noStepStops p (t.offerMove (moves n)) (inv_setSchedule h _)
      have hsame := hostMove_sameBlock hu (by simp [hp]) (hfree n) hnow
      obtain ⟨k, v, hv, huv, hk⟩ := ih (along_succ hrun hu) (inv_of_sameBlock h hsame) (hsame.phase.trans hp)
        (by rw [← hturn]; congr 1; omega)
      exact ⟨k, v, hv, hsame.trans huv, hk⟩

/-- Every turn of the engine takes one entry off the queue, so a build in BUSY ends. -/
theorem along_reaches_done (hfair : WeaklyFair moves) : ∃ k u, along p moves k s = some u ∧ u.phase = .done := by
  induction hq : t.qCount.toNat using Nat.strong_induction_on generalizing n t with
  | _ q ih =>
    obtain ⟨m, hm, hturn⟩ := hfair n
    obtain ⟨k, u, hu, htu, hk⟩ := along_sameBlock_until_turn hfree hrun h hp (d := m - n) (by rwa [Nat.add_sub_cancel' hm])
    obtain ⟨v, hv, hvinv, -, -, hvq, hvp⟩ :=
      engineTurn_busy (s := u.setSchedule []) (inv_setSchedule (inv_of_sameBlock h htu) []) (htu.phase.trans hp) p
    have hnext : along p moves (k + 1) s = some v := along_succ hu (by rw [hk]; exact hv)
    split at hvp
    · exact ⟨k + 1, v, hnext, hvp⟩
    · rw [State.setSchedule_qCount, htu.qCount] at hvq
      exact ih _ (by omega) hnext hvinv hvp rfl

end

/-- Settles O31: `along_reaches_done` from the start of the schedule. -/
theorem fairEngineReachesDone : Obligations.FairEngineReachesDone := by
  unfold Obligations.FairEngineReachesDone
  intro p moves s h hp hfair hfree
  exact along_reaches_done hfree (n := 0) rfl h hp hfair

end Sys2Proof.Machine
end
